-- ==== Sys2Proof/Word.lean ====
section
/-! DEFINITION. The word types of PWENC: the widths the spec gives its operands, its message fields
and its status codes (`00_scope.md` R8, `10_state.md` R14 and R15). Every value is unsigned (R10). -/

namespace Sys2Proof

/-- A byte: 8 bits, the unit of the frame buffer and of the wire (R10, R47); also `BYTE_W` (R8). -/
abbrev Byte := BitVec 8

/-- `VALUE_W` = 16: the width of every "14-bit" operand port (R8). -/
abbrev Half := BitVec 16

/-- A 7-bit field of a wire message: the low seven bits of a 7-bit-safe byte (R75). -/
abbrev Septet := BitVec 7

/-- A 14-bit field of a wire message: two septets, low half first on the wire (R42). -/
abbrev Val14 := BitVec 14

/-- A completion code, the three bits of `STATUS.err` (R20). -/
abbrev Code := BitVec 3

/-- A number of milliseconds on `dly_ms`, seven bits (R29). -/
abbrev Millis := BitVec 7

end Sys2Proof
end

