-- ==== Sys2Proof/Config.lean ====
section
/-! DEFINITION. What an instance of PWENC fixes: the constants the source gives (`00_scope.md` R6), the
OPEN parameters `CFG_CONST` it names without a value (R7), and the reference instance `REFCFG` of
`93_implementation_defined.md` Part 3. The constants are read-only tables, not state (R24). -/

namespace Sys2Proof

/-- The 11 effect kinds, in the order of R105. -/
inductive Kind where
  | constant | sine | square | ramp | triangle | sawtoothDown | sawtoothUp
  | spring | damper | inertia | friction
  deriving DecidableEq, Repr

/-- The three effect categories (R105). -/
inductive Category where
  | periodic | condition | friction
  deriving DecidableEq, Repr

/-- All kinds, in the order of R105. -/
def Kind.all : List Kind :=
  [.constant, .sine, .square, .ramp, .triangle, .sawtoothDown, .sawtoothUp,
   .spring, .damper, .inertia, .friction]

/-- The record `CFG_CONST` of OPEN parameters (R7): bytes the source names and gives no value for. -/
structure CfgConst where
  /-- `TYPE_CODE(k)`: the effect-type byte of each kind. -/
  typeCode  : Kind → Byte
  /-- `UNUSED7`: the byte at index 7 of an effect frame. -/
  unused7   : Byte
  /-- `PER_CONST_A`, `PER_CONST_B`: the two fixed constant bytes of the periodic tail. -/
  perConstA : Byte
  perConstB : Byte
  /-- `INIT_MSG3`: 78 opaque bytes. -/
  initMsg3  : Fin 78 → Byte
  /-- `AC_ON_MODE`, `AC_OFF_MODE`, `AC_REG`, `AC_RW_B1`, `AC_RW_B2`: the bytes of AUTOCENTER. -/
  acOnMode  : Byte
  acOffMode : Byte
  acReg     : Byte
  acRwB1    : Byte
  acRwB2    : Byte
  deriving Inhabited

/-- A byte is 7-bit-safe when its bit 7 is clear (R75). -/
abbrev Byte7Safe (b : Byte) : Prop := b.toNat < 128

/-- The well-formedness conditions of the right-hand column of R7, with R103's reading of the register
write: `TYPE_CODE` below `0x80` and pairwise distinct, every single byte below `0x80`,
`AC_OFF_MODE` different from `AC_ON_MODE`, one of `AC_RW_B1`, `AC_RW_B2` equal to `0x7F`. -/
def CfgConst.wellFormed (c : CfgConst) : Bool :=
  Kind.all.all (fun k => decide (Byte7Safe (c.typeCode k))) &&
  Kind.all.all (fun k => Kind.all.all (fun j => decide (c.typeCode k = c.typeCode j → k = j))) &&
  decide (Byte7Safe c.unused7) && decide (Byte7Safe c.perConstA) && decide (Byte7Safe c.perConstB) &&
  decide (Byte7Safe c.acOnMode) && decide (Byte7Safe c.acOffMode) &&
  decide (c.acOffMode ≠ c.acOnMode) && decide (Byte7Safe c.acReg) &&
  decide (Byte7Safe c.acRwB1) && decide (Byte7Safe c.acRwB2) &&
  decide (c.acRwB1 = 0x7F#8 ∨ c.acRwB2 = 0x7F#8)

namespace Config

/-- `TYPE_CODE` of `REFCFG` (`93_implementation_defined.md` Part 3, G1). UNVERIFIED: general knowledge. -/
def refTypeCode : Kind → Byte
  | .constant => 0x12#8
  | .sine => 0x02#8
  | .square => 0x05#8
  | .ramp => 0x06#8
  | .triangle => 0x08#8
  | .sawtoothDown => 0x0A#8
  | .sawtoothUp => 0x0B#8
  | .spring => 0x0D#8
  | .damper => 0x0E#8
  | .inertia => 0x0F#8
  | .friction => 0x10#8

/-- `SYNTH78` of `95_test_vectors.md` section 0: 13 groups `B5 (0x40+k) 7F A5 k 00`, synthetic. -/
def synth78 (i : Fin 78) : Byte :=
  match i.val % 6 with
  | 0 => 0xB5#8
  | 1 => BitVec.ofNat 8 (0x40 + i.val / 6)
  | 2 => 0x7F#8
  | 3 => 0xA5#8
  | 4 => BitVec.ofNat 8 (i.val / 6)
  | _ => 0x00#8

/-- `REFCFG` (`93_implementation_defined.md` Part 3), the reference instance of the test vectors;
no rule depends on it (R9). -/
def refCfg : CfgConst where
  typeCode := refTypeCode
  unused7 := 0x7F#8
  perConstA := 0x10#8
  perConstB := 0x4E#8
  initMsg3 := synth78
  acOnMode := 0x01#8
  acOffMode := 0x06#8
  acReg := 0x7C#8
  acRwB1 := 0x7F#8
  acRwB2 := 0x00#8

/-- The OPEN parameters as the instance gives them: no body, so nothing can prove a value of one (R7). -/
opaque raw : CfgConst

/-- The instance of `CFG_CONST` this machine holds (R24): `raw` where it is an instance at all, that is
where it meets R7's conditions. DESIGN CHOICE (log 1): an ill-formed `raw` is no PWENC, and the
reference instance stands in for it, so that `cfg` ranges over exactly the well-formed instances. -/
def cfg : CfgConst := if raw.wellFormed then raw else refCfg

/-- `SYSEX_START` (R6). -/
abbrev sysexStart : Byte := 0xF0#8
/-- `SYSEX_END` (R6). -/
abbrev sysexEnd : Byte := 0xF7#8
/-- `SUBCMD_EFFECT` (R6). -/
abbrev subcmdEffect : Byte := 0x23#8
/-- `ST_PC`, first byte of a program-change-style message (R6, R61). -/
abbrev stPc : Byte := 0xC5#8
/-- `ST_CC`, first byte of a control-change-style message (R6, R62). -/
abbrev stCc : Byte := 0xB5#8
/-- `ST_RW`, first byte of the register-write half (R6, R63). -/
abbrev stRw : Byte := 0xA5#8
/-- `CC_PLAY` (R6). -/
abbrev ccPlay : Byte := 0x20#8
/-- `CC_STOP` (R6). -/
abbrev ccStop : Byte := 0x30#8
/-- `PER_MUST_7F` (R6); also the fixed third byte of AUTOCENTER message 2 (R102). -/
abbrev must7F : Byte := 0x7F#8
/-- `PER_TRAIL`, each of the two trailing bytes (R6). -/
abbrev perTrail : Byte := 0x01#8
/-- `PAD`, the zero pad after each strength byte (R6). -/
abbrev pad : Byte := 0x00#8
/-- `DLY_INIT_1` = 20 ms (R6). -/
abbrev dlyInit1 : Millis := 20#7
/-- `DLY_INIT_2` = 57 ms (R6). -/
abbrev dlyInit2 : Millis := 57#7
/-- `DLY_AC` = 70 ms (R6). -/
abbrev dlyAc : Millis := 70#7
/-- `CSUM_START` = 5 (R6). -/
abbrev csumStart : Nat := 5
/-- `FBUF_LEN` = 78 (R8). -/
abbrev fbufLen : Nat := 78
/-- `STRICT_RESET` = 0 (R8). -/
abbrev strictReset : Bool := false

end Config

end Sys2Proof
end

