-- ==== Sys2Proof/Syntax.lean ====
section
/-! DEFINITION. The instructions of PWENC, one constructor per row of `opcode_table.json`: the eight
values of the 3-bit `op` word (`30_encoding.md` R58, the command's operands being separate inputs,
R57) and the 22 wire messages the commands emit (R60 to R70), each with its variable fields. -/

namespace Sys2Proof

/-- The variable fields of an `SXE-P` frame (R68); the letters are the table's. -/
structure PeriodicMsg where
  etype       : Septet   -- t
  unused      : Septet   -- u
  duration    : Val14    -- d, D
  buttonMask  : Val14    -- b, B
  direction   : Val14    -- r, R
  strength    : Septet   -- g
  sampleRate  : Val14    -- s, S
  constA      : Septet   -- i
  constB      : Septet   -- j
  attackLevel : Septet   -- l
  attackTime  : Val14    -- a, A
  fadeTime    : Val14    -- f, F
  fadeLevel   : Septet   -- v
  frequency   : Val14    -- q, Q
  amplitude   : Val14    -- m, M
  checksum    : Septet   -- k
  deriving DecidableEq, Repr

/-- The variable fields of an `SXE-C` frame (R69). -/
structure ConditionMsg where
  etype      : Septet   -- t
  unused     : Septet   -- u
  duration   : Val14    -- d, D
  buttonMask : Val14    -- b, B
  strengthX  : Septet   -- x
  strengthY  : Septet   -- y
  offsetX    : Val14    -- o, O
  offsetY    : Val14    -- p, P
  checksum   : Septet   -- k
  deriving DecidableEq, Repr

/-- The variable fields of an `SXE-F` frame (R70). -/
structure FrictionMsg where
  etype      : Septet   -- t
  unused     : Septet   -- u
  duration   : Val14    -- d, D
  buttonMask : Val14    -- b, B
  strengthX  : Septet   -- x
  strengthY  : Septet   -- y
  checksum   : Septet   -- k
  deriving DecidableEq, Repr

/-- One constructor per row of `opcode_table.json`. The first eight are the commands on the command
port, whose operands are the registers `OPR` (R15); the others are the messages of the running
command, the units the frame sequencer's position `mi` steps through (R19). -/
inductive Instr where
  /-- `INIT` (R98). -/
  | init
  /-- `AUTOCENTER` (R101, R102). -/
  | autocenter
  /-- `EFFECT` (R107). -/
  | effect
  /-- `PLAY` (R127). -/
  | play
  /-- `STOP` (R128). -/
  | stop
  /-- `MODIFY` (R129). -/
  | modify
  /-- `op` = 6, reserved (R80). -/
  | reserved6
  /-- `op` = 7, reserved (R80). -/
  | reserved7
  /-- INIT message 1, `C5 01` (R98). -/
  | initM1
  /-- INIT message 2, `F0 00 01 0A 01 10 05 6B F7` (R65). -/
  | initM2
  /-- INIT message 3, 78 opaque bytes (R66). -/
  | initM3 (z : List Byte)
  /-- AUTOCENTER enabled, the only message `C5 n` (R101). -/
  | autocenterOnM1 (n : Septet)
  /-- AUTOCENTER disabled, message 1 `C5 n` (R102). -/
  | autocenterOffM1 (n : Septet)
  /-- AUTOCENTER disabled, message 2 `B5 r 7F` (R102). -/
  | autocenterOffM2 (r : Septet)
  /-- AUTOCENTER disabled, message 3 `A5 b c` (R102, R103). -/
  | autocenterOffM3 (b c : Septet)
  /-- AUTOCENTER disabled, message 4 `C5 f` (R102). -/
  | autocenterOffM4 (f : Septet)
  /-- The frame of `EFFECT.CONSTANT` (R116). -/
  | effectConstant (m : PeriodicMsg)
  /-- The frame of `EFFECT.SINE` (R117). -/
  | effectSine (m : PeriodicMsg)
  /-- The frame of `EFFECT.SQUARE` (R118). -/
  | effectSquare (m : PeriodicMsg)
  /-- The frame of `EFFECT.RAMP` (R119). -/
  | effectRamp (m : PeriodicMsg)
  /-- The frame of `EFFECT.TRIANGLE` (R120). -/
  | effectTriangle (m : PeriodicMsg)
  /-- The frame of `EFFECT.SAWTOOTH_DOWN` (R121). -/
  | effectSawtoothDown (m : PeriodicMsg)
  /-- The frame of `EFFECT.SAWTOOTH_UP` (R122). -/
  | effectSawtoothUp (m : PeriodicMsg)
  /-- The frame of `EFFECT.SPRING` (R123). -/
  | effectSpring (m : ConditionMsg)
  /-- The frame of `EFFECT.DAMPER` (R124). -/
  | effectDamper (m : ConditionMsg)
  /-- The frame of `EFFECT.INERTIA` (R125). -/
  | effectInertia (m : ConditionMsg)
  /-- The frame of `EFFECT.FRICTION` (R126). -/
  | effectFriction (m : FrictionMsg)
  /-- PLAY's message `B5 20 i` (R127). -/
  | playM1 (i : Septet)
  /-- STOP's message `B5 30 i` (R128). -/
  | stopM1 (i : Septet)
  /-- MODIFY's message `B5 p i A5 l h` (R129, R64); `v` holds `l` (low) and `h` (high). -/
  | modifyM1 (p i : Septet) (v : Val14)
  deriving DecidableEq, Repr

/-- Where a message stands: the command, the branch AUTOCENTER took, and the number of the message, the
sequencer's position (R19, R78). Every EFFECT frame stands at the one message of EFFECT. -/
inductive Slot where
  | initM1 | initM2 | initM3
  | onM1 | offM1 | offM2 | offM3 | offM4
  | effectM1 | playM1 | stopM1 | modifyM1
  deriving DecidableEq, Repr

end Sys2Proof
end

