-- ==== Sys2Proof/Machine/Operands.lean ====
section
/-! DEFINITION. Operand assembly: SPLIT14, LOHI, MASK7 and RECON14 (`40_split14.md`), the checksum CSUM7
in both its forms (`41_checksum.md`), the effect multiplexer's select function (`43_framer_effect.md`
R106), and the byte patterns of the wire messages (`30_encoding.md` R60 to R70). -/

namespace Sys2Proof.Machine

/-! ### SPLIT14 and MASK7 -/

/-- SPLIT14 (R84), for any natural number: `lo = value & 0x7F`, `hi = (value >> 7) & 0x7F`, each a byte. -/
def split14 (v : Nat) : Byte × Byte :=
  (BitVec.ofNat 8 (v &&& 0x7F), BitVec.ofNat 8 ((v >>> 7) &&& 0x7F))

/-- LOHI (R87): the two bytes of a 14-bit field, low half at the lower index (R42). -/
def lohi (v : Nat) : List Byte := [(split14 v).1, (split14 v).2]

/-- MASK7 (R88): `b & 0x7F`, for any natural number. -/
def mask7 (b : Nat) : Byte := BitVec.ofNat 8 (b &&& 0x7F)

/-- RECON14 (R89), a specification function: `(hi << 7) | lo`. -/
def recon14 (lo hi : Byte) : Nat := (hi.toNat <<< 7) ||| lo.toNat

/-! ### CSUM7 -/

/-- CSUM7 (R91): the sum of the bytes modulo 128, subtracted from `0x80`, masked to 7 bits. -/
def csum7 (s : List Byte) : Byte :=
  BitVec.ofNat 8 ((0x80 - (s.map BitVec.toNat).sum % 128) &&& 0x7F)

/-- The `add(b)` step of the accumulator form (R94): `acc <- (acc + b) mod 128`. -/
def accAdd (acc : Septet) (b : Byte) : Septet := BitVec.ofNat 7 (acc.toNat + b.toNat)

/-- The `final` step of the accumulator form (R94): `(0x80 - acc) & 0x7F`. -/
def accFinal (acc : Septet) : Byte := BitVec.ofNat 8 ((0x80 - acc.toNat) &&& 0x7F)

/-! ### The effect multiplexer -/

/-- `KIND_OF(etype)` (R106): the kind whose `TYPE_CODE` is `etype`, if there is one. -/
def kindOf (c : CfgConst) (etype : Byte) : Option Kind :=
  Kind.all.find? (fun k => c.typeCode k = etype)

/-- The category of a kind (R105). -/
def categoryOfKind : Kind → Category
  | .constant => .periodic
  | .sine => .periodic
  | .square => .periodic
  | .ramp => .periodic
  | .triangle => .periodic
  | .sawtoothDown => .periodic
  | .sawtoothUp => .periodic
  | .spring => .condition
  | .damper => .condition
  | .inertia => .condition
  | .friction => .friction

/-- `CATEGORY_OF(etype)` (R106). -/
def categoryOf (c : CfgConst) (etype : Byte) : Option Category :=
  (kindOf c etype).map categoryOfKind

/-! ### Fields of a wire byte -/

/-- A 7-bit field as the byte that carries it: bit 7 is 0 (R75). -/
def byteOf (x : Septet) : Byte := x.setWidth 8

/-- The low half of a 14-bit field, bits 6 to 0. -/
def lo7 (v : Val14) : Septet := v.extractLsb' 0 7

/-- The high half of a 14-bit field, bits 13 to 7. -/
def hi7 (v : Val14) : Septet := v.extractLsb' 7 7

/-- The 14-bit field of a low and a high half (R89). -/
def join14 (lo hi : Septet) : Val14 := hi ++ lo

/-! ### Byte patterns: the rows of `opcode_table.json`, byte by byte -/

/-- One byte of a row's pattern: all eight bits fixed, or bit 7 clear and a 7-bit field. -/
inductive PatByte where
  | lit (b : Byte)
  | field
  deriving DecidableEq, Repr

/-- The bytes of a pattern whose fields are, in order, `xs`. -/
def fill : List PatByte → List Septet → List Byte
  | [], _ => []
  | .lit b :: ps, xs => b :: fill ps xs
  | .field :: ps, [] => Config.pad :: fill ps []
  | .field :: ps, x :: xs => byteOf x :: fill ps xs

/-- The fields of bytes that fit a pattern: every fixed byte equal, every field byte with bit 7 clear,
and the same length. -/
def fits : List PatByte → List Byte → Option (List Septet)
  | [], [] => some []
  | .lit c :: ps, b :: bs => if b = c then fits ps bs else none
  | .field :: ps, b :: bs => if b.toNat < 128 then (fits ps bs).map (b.setWidth 7 :: ·) else none
  | [], _ :: _ => none
  | _ :: _, [] => none

/-- `PC2`: `C5 0vvvvvvv` (R61). -/
def patPc2 : List PatByte := [.lit Config.stPc, .field]

/-- AUTOCENTER message 2, `B5 0rrrrrrr 7F` (R62, R102). -/
def patAcReg : List PatByte := [.lit Config.stCc, .field, .lit Config.must7F]

/-- `RW3`: `A5 0bbbbbbb 0ccccccc` (R63). -/
def patRw3 : List PatByte := [.lit Config.stRw, .field, .field]

/-- PLAY's `CC3`: `B5 20 0iiiiiii` (R62, R127). -/
def patPlay : List PatByte := [.lit Config.stCc, .lit Config.ccPlay, .field]

/-- STOP's `CC3`: `B5 30 0iiiiiii` (R62, R128). -/
def patStop : List PatByte := [.lit Config.stCc, .lit Config.ccStop, .field]

/-- `MOD6`: `B5 0ppppppp 0iiiiiii A5 0lllllll 0hhhhhhh` (R64). -/
def patMod6 : List PatByte :=
  [.lit Config.stCc, .field, .field, .lit Config.stRw, .field, .field]

/-- Indices 0 to 11 of every effect frame (R67): header, `23`, etype, unused, duration, button mask. -/
def patHead : List PatByte :=
  [.lit Config.sysexStart, .lit 0x00#8, .lit 0x01#8, .lit 0x0A#8, .lit 0x01#8,
   .lit Config.subcmdEffect, .field, .field, .field, .field, .field, .field]

/-- The last two bytes of every effect frame (R67): the checksum and the terminator. -/
def patClose : List PatByte := [.field, .lit Config.sysexEnd]

/-- `SXE-P`, 34 bytes (R68); the tail is indices 12 to 31. -/
def patPeriodic : List PatByte :=
  patHead ++
  [.field, .field,                              -- 12, 13 direction
   .field,                                      -- 14 strength
   .field, .field,                              -- 15, 16 sample_rate
   .field, .field,                              -- 17, 18 PER_CONST_A, PER_CONST_B
   .field,                                      -- 19 attack_level
   .field, .field,                              -- 20, 21 attack_time
   .lit Config.must7F,                          -- 22
   .field, .field,                              -- 23, 24 fade_time
   .field,                                      -- 25 fade_level
   .field, .field,                              -- 26, 27 frequency
   .field, .field,                              -- 28, 29 amplitude
   .lit Config.perTrail, .lit Config.perTrail]  -- 30, 31
  ++ patClose

/-- Indices 12 to 15 of the Condition and Friction frames (R69, R70): each strength and its zero pad. -/
def patStrengths : List PatByte := [.field, .lit Config.pad, .field, .lit Config.pad]

/-- `SXE-C`, 22 bytes (R69); offset_x at 16, 17 and offset_y at 18, 19. -/
def patCondition : List PatByte :=
  patHead ++ patStrengths ++ [.field, .field, .field, .field] ++ patClose

/-- `SXE-F`, 18 bytes (R70). -/
def patFriction : List PatByte := patHead ++ patStrengths ++ patClose

/-- The fields of an `SXE-P` frame in wire order (R68). -/
def periodicFields (m : PeriodicMsg) : List Septet :=
  [m.etype, m.unused, lo7 m.duration, hi7 m.duration, lo7 m.buttonMask, hi7 m.buttonMask,
   lo7 m.direction, hi7 m.direction, m.strength, lo7 m.sampleRate, hi7 m.sampleRate,
   m.constA, m.constB, m.attackLevel, lo7 m.attackTime, hi7 m.attackTime,
   lo7 m.fadeTime, hi7 m.fadeTime, m.fadeLevel, lo7 m.frequency, hi7 m.frequency,
   lo7 m.amplitude, hi7 m.amplitude, m.checksum]

/-- The fields of an `SXE-C` frame in wire order (R69). -/
def conditionFields (m : ConditionMsg) : List Septet :=
  [m.etype, m.unused, lo7 m.duration, hi7 m.duration, lo7 m.buttonMask, hi7 m.buttonMask,
   m.strengthX, m.strengthY, lo7 m.offsetX, hi7 m.offsetX, lo7 m.offsetY, hi7 m.offsetY, m.checksum]

/-- The fields of an `SXE-F` frame in wire order (R70). -/
def frictionFields (m : FrictionMsg) : List Septet :=
  [m.etype, m.unused, lo7 m.duration, hi7 m.duration, lo7 m.buttonMask, hi7 m.buttonMask,
   m.strengthX, m.strengthY, m.checksum]

/-- The `SXE-P` message with the given fields in wire order (R68). -/
def periodicOf : List Septet → Option PeriodicMsg
  | [t, u, d, d', b, b', r, r', g, s, s', i, j, l, a, a', f, f', v, q, q', m, m', k] =>
    some { etype := t, unused := u, duration := join14 d d', buttonMask := join14 b b',
           direction := join14 r r', strength := g, sampleRate := join14 s s',
           constA := i, constB := j, attackLevel := l, attackTime := join14 a a',
           fadeTime := join14 f f', fadeLevel := v, frequency := join14 q q',
           amplitude := join14 m m', checksum := k }
  | _ => none

/-- The `SXE-C` message with the given fields in wire order (R69). -/
def conditionOf : List Septet → Option ConditionMsg
  | [t, u, d, d', b, b', x, y, o, o', p, p', k] =>
    some { etype := t, unused := u, duration := join14 d d', buttonMask := join14 b b',
           strengthX := x, strengthY := y, offsetX := join14 o o', offsetY := join14 p p',
           checksum := k }
  | _ => none

/-- The `SXE-F` message with the given fields in wire order (R70). -/
def frictionOf : List Septet → Option FrictionMsg
  | [t, u, d, d', b, b', x, y, k] =>
    some { etype := t, unused := u, duration := join14 d d', buttonMask := join14 b b',
           strengthX := x, strengthY := y, checksum := k }
  | _ => none

/-- The bytes of an `SXE-P` frame. -/
def periodicBytes (m : PeriodicMsg) : List Byte := fill patPeriodic (periodicFields m)

/-- The bytes of an `SXE-C` frame. -/
def conditionBytes (m : ConditionMsg) : List Byte := fill patCondition (conditionFields m)

/-- The bytes of an `SXE-F` frame. -/
def frictionBytes (m : FrictionMsg) : List Byte := fill patFriction (frictionFields m)

/-- The bytes a frame's checksum covers (R74, R95): from index 5 to the last tail byte, that is all
but the header, the checksum itself and the terminator. -/
def checkedBytes (frame : List Byte) : List Byte :=
  (frame.drop Config.csumStart).take (frame.length - Config.csumStart - 2)

/-! ### The constant messages -/

/-- The fixed 5-byte header of a SysEx frame, `F0 00 01 0A 01` (R6, R41). -/
def sysexHeader : List Byte := [Config.sysexStart, 0x00#8, 0x01#8, 0x0A#8, 0x01#8]

/-- `INIT_MSG1` = `C5 01` (R6). -/
def initMsg1 : List Byte := [Config.stPc, 0x01#8]

/-- `INIT_MSG2` = `F0 00 01 0A 01 10 05 6B F7` (R6, R65). -/
def initMsg2 : List Byte := sysexHeader ++ [0x10#8, 0x05#8, 0x6B#8, Config.sysexEnd]

/-- `INIT_MSG3`, the 78 bytes of the OPEN parameter, verbatim (R66). -/
def initMsg3 (c : CfgConst) : List Byte := List.ofFn c.initMsg3

end Sys2Proof.Machine
end

