-- ==== Sys2Proof/WellFormed.lean ====
section
/-! DEFINITION. Which instructions are well formed for an instance of `CFG_CONST`: the fields of a
message that the spec binds to an OPEN parameter hold that parameter's value (`30_encoding.md` R73), and the
checksum field of an effect frame is the checksum of its bytes (R74). -/

namespace Sys2Proof

/-- The frame's checksum field is CSUM7 of the bytes it covers (R74). -/
def checksumOk (frame : List Byte) (k : Septet) : Bool :=
  Machine.byteOf k = Machine.csum7 (Machine.checkedBytes frame)

/-- The checks of an `SXE-P` frame of kind `k` (R67, R68). -/
def PeriodicMsg.wellFormed (c : CfgConst) (k : Kind) (m : PeriodicMsg) : Bool :=
  decide (Machine.byteOf m.etype = c.typeCode k) && decide (Machine.byteOf m.unused = c.unused7) &&
  decide (Machine.byteOf m.constA = c.perConstA) && decide (Machine.byteOf m.constB = c.perConstB) &&
  checksumOk (Machine.periodicBytes m) m.checksum

/-- The checks of an `SXE-C` frame of kind `k` (R67, R69). -/
def ConditionMsg.wellFormed (c : CfgConst) (k : Kind) (m : ConditionMsg) : Bool :=
  decide (Machine.byteOf m.etype = c.typeCode k) && decide (Machine.byteOf m.unused = c.unused7) &&
  checksumOk (Machine.conditionBytes m) m.checksum

/-- The checks of an `SXE-F` frame (R67, R70). -/
def FrictionMsg.wellFormed (c : CfgConst) (k : Kind) (m : FrictionMsg) : Bool :=
  decide (Machine.byteOf m.etype = c.typeCode k) && decide (Machine.byteOf m.unused = c.unused7) &&
  checksumOk (Machine.frictionBytes m) m.checksum

/-- Well-formedness of an instruction under the instance `c`. A command has no field of its own: every
value of every operand register is legal (R81). -/
def Instr.wellFormed (c : CfgConst) : Instr → Bool
  | .init => true
  | .autocenter => true
  | .effect => true
  | .play => true
  | .stop => true
  | .modify => true
  | .reserved6 => true
  | .reserved7 => true
  | .initM1 => true
  | .initM2 => true
  | .initM3 z => z = Machine.initMsg3 c
  | .autocenterOnM1 n => Machine.byteOf n = c.acOnMode
  | .autocenterOffM1 n => Machine.byteOf n = c.acOnMode
  | .autocenterOffM2 r => Machine.byteOf r = c.acReg
  | .autocenterOffM3 b d => decide (Machine.byteOf b = c.acRwB1) && decide (Machine.byteOf d = c.acRwB2)
  | .autocenterOffM4 f => Machine.byteOf f = c.acOffMode
  | .effectConstant m => m.wellFormed c .constant
  | .effectSine m => m.wellFormed c .sine
  | .effectSquare m => m.wellFormed c .square
  | .effectRamp m => m.wellFormed c .ramp
  | .effectTriangle m => m.wellFormed c .triangle
  | .effectSawtoothDown m => m.wellFormed c .sawtoothDown
  | .effectSawtoothUp m => m.wellFormed c .sawtoothUp
  | .effectSpring m => m.wellFormed c .spring
  | .effectDamper m => m.wellFormed c .damper
  | .effectInertia m => m.wellFormed c .inertia
  | .effectFriction m => m.wellFormed c .friction
  | .playM1 _ => true
  | .stopM1 _ => true
  | .modifyM1 _ _ _ => true

end Sys2Proof
end

