-- ==== Sys2Proof/Decode.lean ====
section
/-! DEFINITION. Decoding and encoding. A command is the 3-bit word on the `op` port (`30_encoding.md`
R58); a message is the byte sequence in the frame buffer, read at the slot where the running command's
sequencer stands (R60 to R70, R78). Both are total; what fits no row is rejected (R79). -/

namespace Sys2Proof

/-! ### Commands -/

/-- The command of an operation code (R58, R80): every value of the 3-bit word is a row. -/
def decodeOp (w : BitVec 3) : Instr :=
  if w = 0#3 then .init
  else if w = 1#3 then .autocenter
  else if w = 2#3 then .effect
  else if w = 3#3 then .play
  else if w = 4#3 then .stop
  else if w = 5#3 then .modify
  else if w = 6#3 then .reserved6
  else .reserved7

/-- The command a byte stands for whose low three bits are the `op` word and whose others are 0. -/
def decodeCommand (b : Byte) : Option Instr :=
  if b.toNat < 8 then some (decodeOp (b.setWidth 3)) else none

/-! ### Slots -/

/-- The slot of message `mi` of a command (R78). AUTOCENTER's sequence depends on `enabled` (R101, R102);
the reserved codes have no message (R80). -/
def slotAt (op : BitVec 3) (enabled : Bool) (mi : BitVec 3) : Option Slot :=
  match op.toNat, enabled, mi.toNat with
  | 0, _, 0 => some .initM1
  | 0, _, 1 => some .initM2
  | 0, _, 2 => some .initM3
  | 1, true, 0 => some .onM1
  | 1, false, 0 => some .offM1
  | 1, false, 1 => some .offM2
  | 1, false, 2 => some .offM3
  | 1, false, 3 => some .offM4
  | 2, _, 0 => some .effectM1
  | 3, _, 0 => some .playM1
  | 4, _, 0 => some .stopM1
  | 5, _, 0 => some .modifyM1
  | _, _, _ => none

/-- The operation code of the command a slot belongs to. -/
def Slot.op : Slot → BitVec 3
  | .initM1 => 0#3
  | .initM2 => 0#3
  | .initM3 => 0#3
  | .onM1 => 1#3
  | .offM1 => 1#3
  | .offM2 => 1#3
  | .offM3 => 1#3
  | .offM4 => 1#3
  | .effectM1 => 2#3
  | .playM1 => 3#3
  | .stopM1 => 4#3
  | .modifyM1 => 5#3

/-- The value of `enabled` under which a slot of AUTOCENTER is reached (R101, R102). -/
def Slot.enabled : Slot → Bool
  | .onM1 => true
  | _ => false

/-- The message number of a slot, `mi` (R19). -/
def Slot.mi : Slot → BitVec 3
  | .initM2 => 1#3
  | .initM3 => 2#3
  | .offM2 => 1#3
  | .offM3 => 2#3
  | .offM4 => 3#3
  | _ => 0#3

/-! ### Messages -/

/-- The frame's fields, if it fits `SXE-P` (R68). -/
def decodePeriodic (bs : List Byte) : Option PeriodicMsg :=
  (Machine.fits Machine.patPeriodic bs).bind Machine.periodicOf

/-- The frame's fields, if it fits `SXE-C` (R69). -/
def decodeCondition (bs : List Byte) : Option ConditionMsg :=
  (Machine.fits Machine.patCondition bs).bind Machine.conditionOf

/-- The frame's fields, if it fits `SXE-F` (R70). -/
def decodeFriction (bs : List Byte) : Option FrictionMsg :=
  (Machine.fits Machine.patFriction bs).bind Machine.frictionOf

/-- An effect frame: the byte at index 6 is the `TYPE_CODE` of a kind, and that kind selects the row
(R106, R116 to R126). A frame whose type byte is outside the known set is rejected (R79). -/
def decodeEffect (c : CfgConst) (bs : List Byte) : Option Instr :=
  match (bs[6]?).bind (Machine.kindOf c) with
  | none => none
  | some .constant => (decodePeriodic bs).map .effectConstant
  | some .sine => (decodePeriodic bs).map .effectSine
  | some .square => (decodePeriodic bs).map .effectSquare
  | some .ramp => (decodePeriodic bs).map .effectRamp
  | some .triangle => (decodePeriodic bs).map .effectTriangle
  | some .sawtoothDown => (decodePeriodic bs).map .effectSawtoothDown
  | some .sawtoothUp => (decodePeriodic bs).map .effectSawtoothUp
  | some .spring => (decodeCondition bs).map .effectSpring
  | some .damper => (decodeCondition bs).map .effectDamper
  | some .inertia => (decodeCondition bs).map .effectInertia
  | some .friction => (decodeFriction bs).map .effectFriction

/-- `PC2` (R61): its one field. -/
def decodePc2 (bs : List Byte) : Option Septet :=
  match Machine.fits Machine.patPc2 bs with
  | some [v] => some v
  | _ => none

/-- The message that a byte sequence is at a slot (R61 to R70), if it fits the row. -/
def decodeAt (c : CfgConst) (sl : Slot) (bs : List Byte) : Option Instr :=
  match sl with
  | .initM1 => if bs = Machine.initMsg1 then some .initM1 else none
  | .initM2 => if bs = Machine.initMsg2 then some .initM2 else none
  | .initM3 => if bs.length = Config.fbufLen then some (.initM3 bs) else none
  | .onM1 => (decodePc2 bs).map .autocenterOnM1
  | .offM1 => (decodePc2 bs).map .autocenterOffM1
  | .offM2 =>
    match Machine.fits Machine.patAcReg bs with
    | some [r] => some (.autocenterOffM2 r)
    | _ => none
  | .offM3 =>
    match Machine.fits Machine.patRw3 bs with
    | some [b, d] => some (.autocenterOffM3 b d)
    | _ => none
  | .offM4 => (decodePc2 bs).map .autocenterOffM4
  | .effectM1 => decodeEffect c bs
  | .playM1 =>
    match Machine.fits Machine.patPlay bs with
    | some [i] => some (.playM1 i)
    | _ => none
  | .stopM1 =>
    match Machine.fits Machine.patStop bs with
    | some [i] => some (.stopM1 i)
    | _ => none
  | .modifyM1 =>
    match Machine.fits Machine.patMod6 bs with
    | some [p, i, l, h] => some (.modifyM1 p i (Machine.join14 l h))
    | _ => none

/-! ### Encoding -/

/-- The slot of a message; a command stands on the command port and has none. -/
def slotOf : Instr → Option Slot
  | .init => none
  | .autocenter => none
  | .effect => none
  | .play => none
  | .stop => none
  | .modify => none
  | .reserved6 => none
  | .reserved7 => none
  | .initM1 => some .initM1
  | .initM2 => some .initM2
  | .initM3 _ => some .initM3
  | .autocenterOnM1 _ => some .onM1
  | .autocenterOffM1 _ => some .offM1
  | .autocenterOffM2 _ => some .offM2
  | .autocenterOffM3 _ _ => some .offM3
  | .autocenterOffM4 _ => some .offM4
  | .effectConstant _ => some .effectM1
  | .effectSine _ => some .effectM1
  | .effectSquare _ => some .effectM1
  | .effectRamp _ => some .effectM1
  | .effectTriangle _ => some .effectM1
  | .effectSawtoothDown _ => some .effectM1
  | .effectSawtoothUp _ => some .effectM1
  | .effectSpring _ => some .effectM1
  | .effectDamper _ => some .effectM1
  | .effectInertia _ => some .effectM1
  | .effectFriction _ => some .effectM1
  | .playM1 _ => some .playM1
  | .stopM1 _ => some .stopM1
  | .modifyM1 _ _ _ => some .modifyM1

/-- The bytes of an instruction: for a command the `op` word in one byte (R58), for a message the bytes
it puts on the wire, byte 0 first (R61 to R70). -/
def encode : Instr → List Byte
  | .init => [0#8]
  | .autocenter => [1#8]
  | .effect => [2#8]
  | .play => [3#8]
  | .stop => [4#8]
  | .modify => [5#8]
  | .reserved6 => [6#8]
  | .reserved7 => [7#8]
  | .initM1 => Machine.initMsg1
  | .initM2 => Machine.initMsg2
  | .initM3 z => z
  | .autocenterOnM1 n => Machine.fill Machine.patPc2 [n]
  | .autocenterOffM1 n => Machine.fill Machine.patPc2 [n]
  | .autocenterOffM2 r => Machine.fill Machine.patAcReg [r]
  | .autocenterOffM3 b d => Machine.fill Machine.patRw3 [b, d]
  | .autocenterOffM4 f => Machine.fill Machine.patPc2 [f]
  | .effectConstant m => Machine.periodicBytes m
  | .effectSine m => Machine.periodicBytes m
  | .effectSquare m => Machine.periodicBytes m
  | .effectRamp m => Machine.periodicBytes m
  | .effectTriangle m => Machine.periodicBytes m
  | .effectSawtoothDown m => Machine.periodicBytes m
  | .effectSawtoothUp m => Machine.periodicBytes m
  | .effectSpring m => Machine.conditionBytes m
  | .effectDamper m => Machine.conditionBytes m
  | .effectInertia m => Machine.conditionBytes m
  | .effectFriction m => Machine.frictionBytes m
  | .playM1 i => Machine.fill Machine.patPlay [i]
  | .stopM1 i => Machine.fill Machine.patStop [i]
  | .modifyM1 p i v => Machine.fill Machine.patMod6 [p, i, Machine.lo7 v, Machine.hi7 v]

/-- Decoding at a place: the command port (`none`) or a slot of the running command. -/
def decode (c : CfgConst) (place : Option Slot) (bs : List Byte) : Option Instr :=
  match place with
  | none =>
    match bs with
    | [b] => decodeCommand b
    | _ => none
  | some sl => decodeAt c sl bs

/-! ### Words of the opcode table -/

/-- The bytes of a table word of `nbits` bits, in wire order. `30_encoding.md`: the table's numbers have
byte 0 as their most significant byte, so byte 0 is the top byte of `w`. -/
def tableBytes (nbits w : Nat) : List Byte :=
  let n := (nbits + 7) / 8
  (List.range n).map (fun i => BitVec.ofNat 8 (w >>> (8 * (n - 1 - i))))

/-- The order in which a table word is tried against the slots, which the bytes alone do not name: of the
rows of one length those with more fixed bits first, else the table's order (log 3). -/
def tableSlots : List Slot :=
  [.initM1, .initM2, .initM3, .playM1, .stopM1, .modifyM1, .onM1, .offM1, .offM2, .offM3, .offM4,
   .effectM1]

/-- The slot a table word of a message is read at: the first one it fits. -/
def tableSlot (c : CfgConst) (nbits w : Nat) : Option Slot :=
  tableSlots.find? (fun sl => (decodeAt c sl (tableBytes nbits w)).isSome)

/-- The instruction a table word is under the instance `c`: one byte is an `op` word, more bytes are a
message. -/
def decodeTable (c : CfgConst) (nbits w : Nat) : Option Instr :=
  if nbits ≤ 8 then decode c none (tableBytes 8 w)
  else
    match tableSlot c nbits w with
    | some sl => decode c (some sl) (tableBytes nbits w)
    | none => none

/-- The instruction the decoder reads from a word of `opcode_table.json`. -/
def decodeTableWord (nbits w : Nat) : Option Instr := decodeTable Config.cfg nbits w

end Sys2Proof
end

