-- ==== Sys2Proof/Machine/State.lean ====
section
/-! DEFINITION. The state of PWENC (`10_state.md` R14 to R23), its ports (R26 to R33), and, as the model's own
fields, the two agents at those ports: the host with its actions and what it has been told, and the
Transport Sink with its answers and what it has received. -/

namespace Sys2Proof.Machine

/-- `phase` (R17): `IDLE` = 0, `RUN` = 1. -/
inductive Phase where
  | idle
  | run
  deriving DecidableEq, Repr

/-- The operand registers `OPR` (R15), and, since each operand input has its register's name and width
(R26), also the operand inputs of a command on the command port. -/
structure Opr where
  op          : BitVec 3
  enabled     : Bool
  effectId    : Byte
  param       : Byte
  value       : Half
  etype       : Byte
  duration    : Half
  buttonMask  : Half
  direction   : Half
  strength    : Byte
  sampleRate  : Half
  attackLevel : Byte
  attackTime  : Half
  fadeTime    : Half
  fadeLevel   : Byte
  frequency   : Half
  amplitude   : Half
  strengthX   : Byte
  strengthY   : Byte
  offsetX     : Half
  offsetY     : Half
  deriving DecidableEq, Repr

/-- A command record with every operand 0 (R82: omitted fields are 0). DESIGN CHOICE (log 5): the contents
of `OPR` after reset, which R34 leaves unspecified. -/
def Opr.zero : Opr where
  op := 0#3
  enabled := false
  effectId := 0#8
  param := 0#8
  value := 0#16
  etype := 0#8
  duration := 0#16
  buttonMask := 0#16
  direction := 0#16
  strength := 0#8
  sampleRate := 0#16
  attackLevel := 0#8
  attackTime := 0#16
  fadeTime := 0#16
  fadeLevel := 0#8
  frequency := 0#16
  amplitude := 0#16
  strengthX := 0#8
  strengthY := 0#8
  offsetX := 0#16
  offsetY := 0#16

/-- The transmit port while `tx_valid` is 1 (R27): `tx_data`, `tx_first`, `tx_last`. -/
structure TxBeat where
  data  : Byte
  first : Bool
  last  : Bool
  deriving DecidableEq, Repr

/-- The sink's answer to one byte on the transmit port or to one delay request: `tx_ready` or `dly_done`
(accept), neither (hold), `tx_fail` or `dly_fail` (fail) (R27, R30, R31). -/
inductive SinkAnswer where
  | accept
  | hold
  | fail
  deriving DecidableEq, Repr

/-- An event at the sink (R12): a whole message written, or a delay done. -/
inductive Event where
  | wr (bytes : List Byte)
  | dly (ms : Millis)
  deriving DecidableEq, Repr

/-- What the host can read on the configuration and status port (R33). -/
inductive HostReg where
  | strict
  | err
  | busy
  deriving DecidableEq, Repr

/-- What the host does at one instant: keep a command on the command port (`cmd_valid` = 1 with these operand
inputs, R26), write `CFG.strict`, read a register (R33), leave the ports alone, or assert `rst` (R153). -/
inductive HostAction where
  | command (o : Opr)
  | writeStrict (b : Bool)
  | read (r : HostReg)
  | pass
  | reset
  deriving DecidableEq, Repr

/-- The frame buffer `fbuf` as a list of cells (index, byte), indices strictly rising, no cell holding what an
unlisted index reads as (`Memory.wf`, `Machine/Ops.lean`). Its indices are 0 to 77 (R37). -/
abbrev Memory := List Host.Cell

/-- The machine: PWENC's registers and output ports, then the host's and the sink's side of the ports. -/
structure State where
  /-- `OPR`, the operand registers (R15). -/
  opr     : Opr
  /-- `phase` (R17); `busy` and `cmd_ready` are read from it. -/
  phase   : Phase
  /-- `CFG.strict` (R18). -/
  strict  : Bool
  /-- `mi`, the messages of the running command already completed (R19). -/
  mi      : BitVec 3
  /-- `bi`, the bytes of the current message already handed to the sink (R19). -/
  bi      : BitVec 7
  /-- `STATUS.err`, the code of the last completed command (R20). -/
  err     : Code
  /-- `fbuf` (R21, R37). -/
  fbuf    : Memory
  /-- `flen`, the number of valid bytes in `fbuf` (R21). -/
  flen    : BitVec 7
  /-- `acc`, the checksum accumulator (R22). -/
  acc     : Septet
  /-- `dpend`, a delay is pending (R23). -/
  dpend   : Bool
  /-- The transmit port (R27): present when `tx_valid` is 1; the other lines have no value else (R34). -/
  tx      : Option TxBeat
  /-- The delay port (R29): `dly_ms` when `dly_req` is 1. -/
  dly     : Option Millis
  /-- The completion port (R32): `err` when `done` pulses. -/
  done    : Option Code
  /-- The host's coming actions, the next one first. The MODEL's own (log 2). -/
  actions : List HostAction
  /-- The completion codes the host has been given, oldest first (R168). The MODEL's own (log 2). -/
  codes   : List Code
  /-- The values the host has read on the status port, oldest first (R33). The MODEL's own (log 2). -/
  reads   : List (HostReg × Code)
  /-- The sink's coming answers, the next one first; after the last the sink accepts (R31). The MODEL's
  own (log 2). -/
  answers : List SinkAnswer
  /-- Every byte the sink has accepted, oldest first (R12, R28). The MODEL's own (log 2). -/
  wire    : List Byte
  /-- Every event completed at the sink, oldest first (R12). The MODEL's own (log 2). -/
  trace   : List Event
  deriving DecidableEq, Repr

/-- Why a step can stop the machine. No run from reset meets either. -/
inductive Fault where
  /-- Raised by a load or an append that reaches past index 77 of the frame buffer, which does not exist
  (R37); R40 says none can occur. Safe: the machine stops. -/
  | fbufRange
  /-- Raised by the sequencer in a state whose position is none R19 allows: no byte left to send
  (`bi >= flen`), more than 78 valid bytes, or a delay pending where the message has none. Safe. -/
  | badPosition
  deriving DecidableEq, Repr

/-- Why a step has no meaning. -/
inductive Refusal where
  /-- An instruction without a meaning in `exec`; no arm raises it. Safe. -/
  | notModelled (mnemonic : String)
  /-- Raised by the fetch in a state that is `RUN` and whose frame buffer holds no message of the running
  command, which R45 rules out; no run from reset meets it. Safe. -/
  | noMessage
  deriving DecidableEq, Repr

/-- The machine right after reset (R34, R153): idle, `CFG.strict` = `STRICT_RESET`, `STATUS.err` = `OK`,
positions, length, accumulator and flags 0, no output active. `OPR` and `fbuf` are unspecified there;
DESIGN CHOICE (log 5): every operand 0, no cell listed. The host has no action to come and the
sink's answers are not listed (log 2). -/
def State.reset : State where
  opr := Opr.zero
  phase := .idle
  strict := Config.strictReset
  mi := 0#3
  bi := 0#7
  err := 0#3
  fbuf := []
  flen := 0#7
  acc := 0#7
  dpend := false
  tx := none
  dly := none
  done := none
  actions := []
  codes := []
  reads := []
  answers := []
  wire := []
  trace := []

end Sys2Proof.Machine
end

