-- ==== Sys2Proof/Machine/Flags.lean ====
section
/-! DEFINITION. PWENC has no condition codes; its one status field is the completion code
(`60_exceptions.md` R132), and its one condition is strict mode's range check `OutOfRange` (R135). -/

namespace Sys2Proof.Machine

/-- `OK` (R132). -/
abbrev codeOk : Code := 0#3
/-- `InvalidEffectType` (R132, R133). -/
abbrev codeInvalidEffectType : Code := 1#3
/-- `ValueOutOfRange` (R132, R135). -/
abbrev codeValueOutOfRange : Code := 2#3
/-- `TransportFailure` (R132, R136). -/
abbrev codeTransportFailure : Code := 3#3
/-- `InvalidCommand` (R132, R137). -/
abbrev codeInvalidCommand : Code := 4#3

/-- `over8(f)` (R135): a single-byte operand above `0x7F`. -/
def over8 (f : Byte) : Bool := decide (0x7F < f.toNat)

/-- `over14(f)` (R135): a 14-bit operand above `0x3FFF`. -/
def over14 (f : Half) : Bool := decide (0x3FFF < f.toNat)

/-- `OutOfRange` for PLAY and STOP (R135). -/
def outOfRangeId (o : Opr) : Bool := over8 o.effectId

/-- `OutOfRange` for MODIFY (R135). -/
def outOfRangeModify (o : Opr) : Bool := over8 o.effectId || over8 o.param || over14 o.value

/-- `OutOfRange(c)` for EFFECT of category `c` (R135): only the operands the category reads (R16). -/
def outOfRangeEffect (c : Category) (o : Opr) : Bool :=
  match c with
  | .periodic =>
    over14 o.duration || over14 o.buttonMask || over14 o.direction || over8 o.strength ||
    over14 o.sampleRate || over8 o.attackLevel || over14 o.attackTime || over14 o.fadeTime ||
    over8 o.fadeLevel || over14 o.frequency || over14 o.amplitude
  | .condition =>
    over14 o.duration || over14 o.buttonMask || over8 o.strengthX || over8 o.strengthY ||
    over14 o.offsetX || over14 o.offsetY
  | .friction =>
    over14 o.duration || over14 o.buttonMask || over8 o.strengthX || over8 o.strengthY

end Sys2Proof.Machine
end

