-- ==== Sys2Proof/Machine/Ops.lean ====
section
/-! DEFINITION. The operations the meanings share: the frame buffer (`20_memory.md` R37 to R40), the
checksum accumulator (R94), completion with and without an error (`60_exceptions.md` R141, R142), the sink
transactions `WR` and `DLY` (R27 to R31, R43, R44), and the sequence of a command's messages. -/

namespace Sys2Proof.Machine

/-! ### The frame buffer -/

/-- What an index that is not listed reads as. DESIGN CHOICE (log 4): R34 leaves the contents of `fbuf`
unspecified and never read. -/
abbrev Memory.unwritten : Byte := 0x00#8

/-- The byte at an index. -/
def Memory.read : Memory → Nat → Byte
  | [], _ => Memory.unwritten
  | (k, b) :: m, a => if k = a then b else Memory.read m a

/-- Put a cell in front, unless it holds what an unlisted index reads as. -/
def Memory.put (a : Nat) (b : Byte) (m : Memory) : Memory :=
  if b = Memory.unwritten then m else (a, b) :: m

/-- Write one byte, keeping the canonical form. -/
def Memory.write : Memory → Nat → Byte → Memory
  | [], a, b => Memory.put a b []
  | (k, d) :: m, a, b =>
    if a < k then Memory.put a b ((k, d) :: m)
    else if a = k then Memory.put a b m
    else (k, d) :: Memory.write m a b

/-- Write bytes at consecutive indices from `a` up. -/
def Memory.writeAll : Memory → Nat → List Byte → Memory
  | m, _, [] => m
  | m, a, b :: bs => Memory.writeAll (Memory.write m a b) (a + 1) bs

/-- The indices from `lo` up are strictly rising, below 78, and no cell holds the unlisted value. -/
def Memory.wfFrom : Nat → Memory → Bool
  | _, [] => true
  | lo, (k, b) :: m =>
    decide (lo ≤ k) && decide (k < Config.fbufLen) && decide (b ≠ Memory.unwritten) && Memory.wfFrom (k + 1) m

/-- The canonical form of the frame buffer. -/
def Memory.wf (m : Memory) : Bool := Memory.wfFrom 0 m

/-- `fbuf[0 .. flen)`: the message in the buffer (R21). -/
def State.frame (s : State) : List Byte := (List.range s.flen.toNat).map s.fbuf.read

/-- `fbuf <- s` (R38); the bytes at indices from the new `flen` up keep their contents (log 4). -/
def State.load (bs : List Byte) (s : State) : Except Fault State :=
  if bs.length ≤ Config.fbufLen then
    .ok { s with fbuf := s.fbuf.writeAll 0 bs, flen := BitVec.ofNat 7 bs.length }
  else .error .fbufRange

/-- `append(b)` (R39). -/
def State.append (b : Byte) (s : State) : Except Fault State :=
  if s.flen.toNat < Config.fbufLen then
    .ok { s with fbuf := s.fbuf.write s.flen.toNat b, flen := s.flen + 1#7 }
  else .error .fbufRange

/-- Append bytes in order, as `append2` of R109 does for two. -/
def State.appendAll : List Byte → State → Except Fault State
  | [], s => .ok s
  | b :: bs, s =>
    match s.append b with
    | .ok t => State.appendAll bs t
    | .error e => .error e

/-- `clear`, then `add(b)` for each byte of `fbuf[start .. flen)` (R94). -/
def State.sumFrom (start : Nat) (s : State) : State :=
  { s with acc := (s.frame.drop start).foldl accAdd 0#7 }

/-! ### Completion -/

/-- Completion of the running command with a code (R141 for 1 to 4, `raise`; R142 for 0, `done(OK)`):
`STATUS.err` and the completion port carry the code, the position and both requests are cleared, and
PWENC is idle. Nothing is saved and control goes nowhere; `CFG.strict` keeps its value. -/
def State.complete (code : Code) (s : State) : State :=
  { s with
    err := code, done := some code, codes := s.codes ++ [code],
    mi := 0#3, bi := 0#7, dpend := false, tx := none, dly := none, phase := .idle }

/-! ### The Transport Sink -/

/-- How far a transaction got in this step: to its end, or the step ends here, because the sink has not
answered yet (R167) or because it failed and the command is complete (R140). -/
inductive Progress where
  | more (s : State)
  | stop (s : State)
  deriving DecidableEq, Repr

/-- A byte accepted by the sink (R19, R27): it is on the wire and `bi` moves on. -/
def State.byteAccepted (b : Byte) (s : State) : State :=
  { s with tx := none, wire := s.wire ++ [b], bi := s.bi + 1#7 }

/-- One byte on the transmit port and the sink's answer (R27, R31, R140). -/
def sendByte (b : Byte) (last : Bool) (s : State) : Progress :=
  match s.answers with
  | [] => .more (s.byteAccepted b)
  | .accept :: as => .more (State.byteAccepted b { s with answers := as })
  | .hold :: as =>
    .stop { s with answers := as, tx := some { data := b, first := decide (s.bi = 0#7), last := last } }
  | .fail :: as => .stop (State.complete codeTransportFailure { s with answers := as })

/-- The bytes of a message in index order (R28); `last` is the message's last byte. -/
def sendBytes : List Byte → State → Progress
  | [], s => .more s
  | b :: bs, s =>
    match sendByte b bs.isEmpty s with
    | .more t => sendBytes bs t
    | .stop t => .stop t

/-- The message's last byte is accepted (R19, R43): the event is complete. -/
def State.messageSent (s : State) : State :=
  { s with trace := s.trace ++ [.wr s.frame], mi := s.mi + 1#3, bi := 0#7 }

/-- `WR(fbuf[0 .. flen))` from byte `bi` on (R28, R43). -/
def writeMessage (s : State) : Except Fault Progress :=
  if s.bi.toNat < s.flen.toNat ∧ s.flen.toNat ≤ Config.fbufLen then
    match sendBytes (s.frame.drop s.bi.toNat) s with
    | .more t => .ok (.more t.messageSent)
    | .stop t => .ok (.stop t)
  else .error .badPosition

/-- `DLY(n)` (R30, R44): the request, and the sink's answer to it. -/
def delay (n : Millis) (s : State) : Progress :=
  match s.answers with
  | [] => .more { s with dly := none, dpend := false, trace := s.trace ++ [.dly n] }
  | .accept :: as =>
    .more { s with answers := as, dly := none, dpend := false, trace := s.trace ++ [.dly n] }
  | .hold :: as => .stop { s with answers := as, dly := some n, dpend := true }
  | .fail :: as => .stop (State.complete codeTransportFailure { s with answers := as })

/-- The delay that follows a message, if one does (R51). -/
def delayAfter (d : Option Millis) (s : State) : Progress :=
  match d with
  | none => .more s
  | some n => delay n s

/-- The events of the message in the buffer: its `WR` and the delay after it. While `dpend` is 1 the `WR` is
over and only the delay is left (R23). -/
def transact (d : Option Millis) (s : State) : Except Fault Progress :=
  if s.dpend then
    match d with
    | none => .error .badPosition
    | some n => .ok (delay n s)
  else
    match writeMessage s with
    | .error e => .error e
    | .ok (.stop t) => .ok (.stop t)
    | .ok (.more t) => .ok (delayAfter d t)

/-! ### Sequences of messages -/

/-- A message of a command and the delay after it. -/
structure Item where
  bytes : List Byte
  delay : Option Millis
  deriving DecidableEq, Repr

/-- The messages of a command in order, each complete in the buffer before its `WR` (R45, R50), then
`done(OK)`. DESIGN CHOICE (log 14): the completion is one with the last answer of the sink, so neither `rst`
nor the host falls between them; R142 and R155 leave that window open. -/
def runItems : List Item → State → Except Fault State
  | [], s => .ok (s.complete codeOk)
  | it :: its, s =>
    match s.load it.bytes with
    | .error e => .error e
    | .ok s₁ =>
      match transact it.delay s₁ with
      | .error e => .error e
      | .ok (.stop t) => .ok t
      | .ok (.more t) => runItems its t

/-- What follows a message: the next message of the command is loaded, or the command is done (R142), at once
with the last answer of the sink (DESIGN CHOICE, log 14). -/
def advance (next : Option (List Byte)) (s : State) : Except Fault State :=
  match next with
  | none => .ok (s.complete codeOk)
  | some bs => s.load bs

/-- One message of a command, from the position where the sequencer stands, and what follows it. -/
def emitMessage (it : Item) (next : Option (List Byte)) (s : State) : Except Fault State :=
  match s.load it.bytes with
  | .error e => .error e
  | .ok s₁ =>
    match transact it.delay s₁ with
    | .error e => .error e
    | .ok (.stop t) => .ok t
    | .ok (.more t) => advance next t

/-- The messages of INIT (R98). -/
def initItems (c : CfgConst) : List Item :=
  [⟨initMsg1, some Config.dlyInit1⟩, ⟨initMsg2, some Config.dlyInit2⟩, ⟨initMsg3 c, none⟩]

/-- AUTOCENTER message 1, `C5 AC_ON_MODE` (R101, R102). -/
def acOnBytes (c : CfgConst) : List Byte := [Config.stPc, c.acOnMode]

/-- AUTOCENTER message 2, `B5 AC_REG 7F` (R102). -/
def acRegBytes (c : CfgConst) : List Byte := [Config.stCc, c.acReg, Config.must7F]

/-- AUTOCENTER message 3, `A5 AC_RW_B1 AC_RW_B2` (R102, R103). -/
def acRwBytes (c : CfgConst) : List Byte := [Config.stRw, c.acRwB1, c.acRwB2]

/-- AUTOCENTER message 4, `C5 AC_OFF_MODE` (R102). -/
def acOffBytes (c : CfgConst) : List Byte := [Config.stPc, c.acOffMode]

/-- The messages of AUTOCENTER with `enabled` = 1 (R101). -/
def acOnItems (c : CfgConst) : List Item := [⟨acOnBytes c, none⟩]

/-- The messages of AUTOCENTER with `enabled` = 0 (R102). -/
def acOffItems (c : CfgConst) : List Item :=
  [⟨acOnBytes c, some Config.dlyAc⟩, ⟨acRegBytes c, none⟩, ⟨acRwBytes c, none⟩, ⟨acOffBytes c, none⟩]

/-- The answer of a meaning as a step's outcome. -/
def outcome (r : Except Fault State) : Host.Outcome State Fault Refusal :=
  match r with
  | .ok s => .next s
  | .error e => .fault e

/-! ### The command port and the configuration port -/

/-- Acceptance (R26): every operand input is copied into `OPR` and PWENC runs. -/
def State.accept (o : Opr) (s : State) : State := { s with opr := o, phase := .run }

/-- `busy` (R17). -/
def State.busy (s : State) : Bool := decide (s.phase = .run)

/-- `cmd_ready` (R26). -/
def State.cmdReady (s : State) : Bool := decide (s.phase = .idle)

/-- A read on the configuration and status port (R33). -/
def State.readReg (r : HostReg) (s : State) : Code :=
  match r with
  | .strict => if s.strict then 1#3 else 0#3
  | .err => s.err
  | .busy => if s.busy then 1#3 else 0#3

/-- `rst` (R153, R155): PWENC takes its reset values, a running command is abandoned without `done`, and
what the sink has accepted stays sent. Where it can fall is log 12 and log 14. DESIGN CHOICE (log 5): `OPR` and `fbuf`, unspecified after
reset, take the values they have in `State.reset`. -/
def State.resetInput (s : State) : State :=
  { State.reset with
    actions := s.actions, codes := s.codes, reads := s.reads,
    answers := s.answers, wire := s.wire, trace := s.trace }

end Sys2Proof.Machine
end

