-- ==== Sys2Proof/Machine/Control.lean ====
section
/-! DEFINITION. The control commands PLAY, STOP and MODIFY, their messages (`44_framer_control.md`), and
the reserved operation codes (`30_encoding.md` R80). -/

namespace Sys2Proof.Machine

/-- PLAY's and STOP's message: `B5 cc id`, with `id = MASK7(effect_id)` (R127, R128, R131). -/
def idBytes (cc : Byte) (o : Opr) : List Byte := [Config.stCc, cc, mask7 o.effectId.toNat]

/-- MODIFY's message `B5 p id A5 lo hi` (R129). -/
def modifyBytes (o : Opr) : List Byte :=
  [Config.stCc, mask7 o.param.toNat, mask7 o.effectId.toNat, Config.stRw] ++ lohi o.value.toNat

/-- A control command: the range check of strict mode, then its one message (R127 to R130, R135). -/
def controlWith (wide : Bool) (bs : List Byte) (s : State) : Except Fault State :=
  if s.strict && wide then .ok (s.complete codeValueOutOfRange)
  else runItems [⟨bs, none⟩] s

/-- `PLAY` (R127). -/
def execPlay (s : State) : Host.Outcome State Fault Refusal :=
  outcome (controlWith (outOfRangeId s.opr) (idBytes Config.ccPlay s.opr) s)

/-- `STOP` (R128). -/
def execStop (s : State) : Host.Outcome State Fault Refusal :=
  outcome (controlWith (outOfRangeId s.opr) (idBytes Config.ccStop s.opr) s)

/-- `MODIFY` (R129). -/
def execModify (s : State) : Host.Outcome State Fault Refusal :=
  outcome (controlWith (outOfRangeModify s.opr) (modifyBytes s.opr) s)

/-- `RESERVED6`: `InvalidCommand`, no event (R80, R137, R139). -/
def execReserved6 (s : State) : Host.Outcome State Fault Refusal :=
  .next (s.complete codeInvalidCommand)

/-- `RESERVED7`: `InvalidCommand`, no event (R80, R137, R139). -/
def execReserved7 (s : State) : Host.Outcome State Fault Refusal :=
  .next (s.complete codeInvalidCommand)

/-- `PLAY.M1`: the only message of PLAY (R127). -/
def execPlayM1 (i : Septet) (s : State) : Host.Outcome State Fault Refusal :=
  outcome (emitMessage ⟨encode (.playM1 i), none⟩ none s)

/-- `STOP.M1`: the only message of STOP (R128). -/
def execStopM1 (i : Septet) (s : State) : Host.Outcome State Fault Refusal :=
  outcome (emitMessage ⟨encode (.stopM1 i), none⟩ none s)

/-- `MODIFY.M1`: the only message of MODIFY (R129). -/
def execModifyM1 (p i : Septet) (v : Val14) (s : State) : Host.Outcome State Fault Refusal :=
  outcome (emitMessage ⟨encode (.modifyM1 p i v), none⟩ none s)

end Sys2Proof.Machine
end

