-- ==== Sys2Proof/Machine/Effect.lean ====
section
/-! DEFINITION. The command EFFECT and the frames of its 11 kinds (`43_framer_effect.md`). -/

namespace Sys2Proof.Machine

/-- `head()` (R108): the 12 common bytes. -/
def effectHead (c : CfgConst) (s : State) : Except Fault State :=
  match s.load sysexHeader with
  | .error e => .error e
  | .ok t =>
    t.appendAll
      ([Config.subcmdEffect, s.opr.etype, c.unused7] ++ lohi s.opr.duration.toNat ++
       lohi s.opr.buttonMask.toNat)

/-- `tail_periodic()` (R109): 20 bytes. -/
def tailPeriodic (c : CfgConst) (s : State) : Except Fault State :=
  s.appendAll
    (lohi s.opr.direction.toNat ++ [mask7 s.opr.strength.toNat] ++ lohi s.opr.sampleRate.toNat ++
     [c.perConstA, c.perConstB] ++ [mask7 s.opr.attackLevel.toNat] ++ lohi s.opr.attackTime.toNat ++
     [Config.must7F] ++ lohi s.opr.fadeTime.toNat ++ [mask7 s.opr.fadeLevel.toNat] ++
     lohi s.opr.frequency.toNat ++ lohi s.opr.amplitude.toNat ++ [Config.perTrail, Config.perTrail])

/-- `tail_condition()` (R110): 8 bytes. -/
def tailCondition (s : State) : Except Fault State :=
  s.appendAll
    ([mask7 s.opr.strengthX.toNat, Config.pad, mask7 s.opr.strengthY.toNat, Config.pad] ++
     lohi s.opr.offsetX.toNat ++ lohi s.opr.offsetY.toNat)

/-- `tail_friction()` (R111): 4 bytes. -/
def tailFriction (s : State) : Except Fault State :=
  s.appendAll [mask7 s.opr.strengthX.toNat, Config.pad, mask7 s.opr.strengthY.toNat, Config.pad]

/-- The tail of a category (R107). -/
def effectTail (c : CfgConst) (cat : Category) (s : State) : Except Fault State :=
  match cat with
  | .periodic => tailPeriodic c s
  | .condition => tailCondition s
  | .friction => tailFriction s

/-- `close()` (R112): the checksum of `fbuf[5 .. flen)` and the terminator. -/
def effectClose (s : State) : Except Fault State :=
  let t := s.sumFrom Config.csumStart
  t.appendAll [accFinal t.acc, Config.sysexEnd]

/-- The frame of the latched operands in the buffer: `head()`, the tail, `close()` (R107). -/
def buildEffect (c : CfgConst) (cat : Category) (s : State) : Except Fault State :=
  match effectHead c s with
  | .error e => .error e
  | .ok s₁ =>
    match effectTail c cat s₁ with
    | .error e => .error e
    | .ok s₂ => effectClose s₂

/-- The one message of EFFECT and its completion (R113), at once with the sink's last answer (DESIGN CHOICE,
log 14). -/
def sendEffect (s : State) : Except Fault State :=
  match transact none s with
  | .error e => .error e
  | .ok (.stop t) => .ok t
  | .ok (.more t) => .ok (t.complete codeOk)

/-- EFFECT under the instance `c` (R107): the type is judged first, then the range (R115, R138), both
before anything is written. -/
def effectWith (c : CfgConst) (s : State) : Except Fault State :=
  match categoryOf c s.opr.etype with
  | none => .ok (s.complete codeInvalidEffectType)
  | some cat =>
    if s.strict && outOfRangeEffect cat s.opr then .ok (s.complete codeValueOutOfRange)
    else
      match buildEffect c cat s with
      | .error e => .error e
      | .ok t => sendEffect t

/-- `EFFECT` (R107 to R115). -/
def execEffect (s : State) : Host.Outcome State Fault Refusal := outcome (effectWith Config.cfg s)

/-- `EFFECT.CONSTANT`: its frame as the only message (R113, R116). -/
def execEffectConstant (m : PeriodicMsg) (s : State) : Host.Outcome State Fault Refusal :=
  outcome (emitMessage ⟨encode (.effectConstant m), none⟩ none s)

/-- `EFFECT.SINE` (R117). -/
def execEffectSine (m : PeriodicMsg) (s : State) : Host.Outcome State Fault Refusal :=
  outcome (emitMessage ⟨encode (.effectSine m), none⟩ none s)

/-- `EFFECT.SQUARE` (R118). -/
def execEffectSquare (m : PeriodicMsg) (s : State) : Host.Outcome State Fault Refusal :=
  outcome (emitMessage ⟨encode (.effectSquare m), none⟩ none s)

/-- `EFFECT.RAMP` (R119). -/
def execEffectRamp (m : PeriodicMsg) (s : State) : Host.Outcome State Fault Refusal :=
  outcome (emitMessage ⟨encode (.effectRamp m), none⟩ none s)

/-- `EFFECT.TRIANGLE` (R120). -/
def execEffectTriangle (m : PeriodicMsg) (s : State) : Host.Outcome State Fault Refusal :=
  outcome (emitMessage ⟨encode (.effectTriangle m), none⟩ none s)

/-- `EFFECT.SAWTOOTH_DOWN` (R121). -/
def execEffectSawtoothDown (m : PeriodicMsg) (s : State) : Host.Outcome State Fault Refusal :=
  outcome (emitMessage ⟨encode (.effectSawtoothDown m), none⟩ none s)

/-- `EFFECT.SAWTOOTH_UP` (R122). -/
def execEffectSawtoothUp (m : PeriodicMsg) (s : State) : Host.Outcome State Fault Refusal :=
  outcome (emitMessage ⟨encode (.effectSawtoothUp m), none⟩ none s)

/-- `EFFECT.SPRING` (R123). -/
def execEffectSpring (m : ConditionMsg) (s : State) : Host.Outcome State Fault Refusal :=
  outcome (emitMessage ⟨encode (.effectSpring m), none⟩ none s)

/-- `EFFECT.DAMPER` (R124). -/
def execEffectDamper (m : ConditionMsg) (s : State) : Host.Outcome State Fault Refusal :=
  outcome (emitMessage ⟨encode (.effectDamper m), none⟩ none s)

/-- `EFFECT.INERTIA` (R125). -/
def execEffectInertia (m : ConditionMsg) (s : State) : Host.Outcome State Fault Refusal :=
  outcome (emitMessage ⟨encode (.effectInertia m), none⟩ none s)

/-- `EFFECT.FRICTION` (R126). -/
def execEffectFriction (m : FrictionMsg) (s : State) : Host.Outcome State Fault Refusal :=
  outcome (emitMessage ⟨encode (.effectFriction m), none⟩ none s)

end Sys2Proof.Machine
end

