-- ==== Sys2Proof/Machine/Handshake.lean ====
section
/-! DEFINITION. The handshake commands INIT and AUTOCENTER and their messages (`42_framer_handshake.md`). -/

namespace Sys2Proof.Machine

/-- INIT under the instance `c` (R98). -/
def initWith (c : CfgConst) (s : State) : Except Fault State := runItems (initItems c) s

/-- `INIT` (R98 to R100). -/
def execInit (s : State) : Host.Outcome State Fault Refusal := outcome (initWith Config.cfg s)

/-- AUTOCENTER under the instance `c`: one message when enabled, four when not (R101, R102, R104). -/
def autocenterWith (c : CfgConst) (s : State) : Except Fault State :=
  if s.opr.enabled then runItems (acOnItems c) s else runItems (acOffItems c) s

/-- `AUTOCENTER` (R101 to R104). -/
def execAutocenter (s : State) : Host.Outcome State Fault Refusal :=
  outcome (autocenterWith Config.cfg s)

/-- `INIT.M1`: message 1, then 20 ms, then message 2 is in the buffer (R98, R99). -/
def execInitM1 (s : State) : Host.Outcome State Fault Refusal :=
  outcome (emitMessage ⟨encode .initM1, some Config.dlyInit1⟩ (some initMsg2) s)

/-- `INIT.M2`: message 2, then 57 ms, then message 3 is in the buffer (R98, R99). -/
def execInitM2 (s : State) : Host.Outcome State Fault Refusal :=
  outcome (emitMessage ⟨encode .initM2, some Config.dlyInit2⟩ (some (initMsg3 Config.cfg)) s)

/-- `INIT.M3`: the last message of INIT, no delay after it (R98, R99). -/
def execInitM3 (z : List Byte) (s : State) : Host.Outcome State Fault Refusal :=
  outcome (emitMessage ⟨encode (.initM3 z), none⟩ none s)

/-- `AUTOCENTER.ON.M1`: the only message of AUTOCENTER enabled (R101). -/
def execAutocenterOnM1 (n : Septet) (s : State) : Host.Outcome State Fault Refusal :=
  outcome (emitMessage ⟨encode (.autocenterOnM1 n), none⟩ none s)

/-- `AUTOCENTER.OFF.M1`: message 1, then 70 ms, then message 2 is in the buffer (R102). -/
def execAutocenterOffM1 (n : Septet) (s : State) : Host.Outcome State Fault Refusal :=
  outcome (emitMessage ⟨encode (.autocenterOffM1 n), some Config.dlyAc⟩ (some (acRegBytes Config.cfg)) s)

/-- `AUTOCENTER.OFF.M2`: message 2, no delay, then message 3 is in the buffer (R102). -/
def execAutocenterOffM2 (r : Septet) (s : State) : Host.Outcome State Fault Refusal :=
  outcome (emitMessage ⟨encode (.autocenterOffM2 r), none⟩ (some (acRwBytes Config.cfg)) s)

/-- `AUTOCENTER.OFF.M3`: message 3, no delay, then message 4 is in the buffer (R102). -/
def execAutocenterOffM3 (b d : Septet) (s : State) : Host.Outcome State Fault Refusal :=
  outcome (emitMessage ⟨encode (.autocenterOffM3 b d), none⟩ (some (acOffBytes Config.cfg)) s)

/-- `AUTOCENTER.OFF.M4`: the last message of AUTOCENTER disabled (R102). -/
def execAutocenterOffM4 (f : Septet) (s : State) : Host.Outcome State Fault Refusal :=
  outcome (emitMessage ⟨encode (.autocenterOffM4 f), none⟩ none s)

end Sys2Proof.Machine
end

