-- ==== Sys2Proof/Machine/Dispatch.lean ====
section
/-! DEFINITION. exec: one arm per instruction, each one call of the instruction's meaning. -/

namespace Sys2Proof.Machine

def exec (i : Instr) (s : State) : Host.Outcome State Fault Refusal :=
  match i with
  | .init => Sys2Proof.Machine.execInit s
  | .autocenter => Sys2Proof.Machine.execAutocenter s
  | .effect => Sys2Proof.Machine.execEffect s
  | .play => Sys2Proof.Machine.execPlay s
  | .stop => Sys2Proof.Machine.execStop s
  | .modify => Sys2Proof.Machine.execModify s
  | .reserved6 => Sys2Proof.Machine.execReserved6 s
  | .reserved7 => Sys2Proof.Machine.execReserved7 s
  | .initM1 => Sys2Proof.Machine.execInitM1 s
  | .initM2 => Sys2Proof.Machine.execInitM2 s
  | .initM3 z => Sys2Proof.Machine.execInitM3 z s
  | .autocenterOnM1 n => Sys2Proof.Machine.execAutocenterOnM1 n s
  | .autocenterOffM1 n => Sys2Proof.Machine.execAutocenterOffM1 n s
  | .autocenterOffM2 r => Sys2Proof.Machine.execAutocenterOffM2 r s
  | .autocenterOffM3 b d => Sys2Proof.Machine.execAutocenterOffM3 b d s
  | .autocenterOffM4 f => Sys2Proof.Machine.execAutocenterOffM4 f s
  | .effectConstant m => Sys2Proof.Machine.execEffectConstant m s
  | .effectSine m => Sys2Proof.Machine.execEffectSine m s
  | .effectSquare m => Sys2Proof.Machine.execEffectSquare m s
  | .effectRamp m => Sys2Proof.Machine.execEffectRamp m s
  | .effectTriangle m => Sys2Proof.Machine.execEffectTriangle m s
  | .effectSawtoothDown m => Sys2Proof.Machine.execEffectSawtoothDown m s
  | .effectSawtoothUp m => Sys2Proof.Machine.execEffectSawtoothUp m s
  | .effectSpring m => Sys2Proof.Machine.execEffectSpring m s
  | .effectDamper m => Sys2Proof.Machine.execEffectDamper m s
  | .effectInertia m => Sys2Proof.Machine.execEffectInertia m s
  | .effectFriction m => Sys2Proof.Machine.execEffectFriction m s
  | .playM1 i' => Sys2Proof.Machine.execPlayM1 i' s
  | .stopM1 i' => Sys2Proof.Machine.execStopM1 i' s
  | .modifyM1 p i' v => Sys2Proof.Machine.execModifyM1 p i' v s

end Sys2Proof.Machine
end

