-- ==== Sys2Proof/Machine/Fetch.lean ====
section
/-! DEFINITION. What a step does before an instruction runs: the host's action at this instant, acceptance of a
command (R26), or the next message of the running command (R19). -/

namespace Sys2Proof.Machine

/-- What a step finds to do. -/
inductive Fetched where
  /-- No instruction runs: the host acted on another port, or PWENC waits (R152). -/
  | noInstr (s : State)
  /-- Instruction `i` runs on `s`. -/
  | run (i : Instr) (s : State)
  /-- Nothing the spec describes. -/
  | refuse (r : Refusal)
  deriving DecidableEq, Repr

/-- The slot of the message the sequencer is at (R19). While a delay is pending the message before it is
over and counted, and the sequencer is still at the delay after it. -/
def State.slot (s : State) : Option Slot :=
  slotAt s.opr.op s.opr.enabled (if s.dpend then s.mi - 1#3 else s.mi)

/-- The message of the running command: what the frame buffer holds at the sequencer's slot. -/
def State.message (c : CfgConst) (s : State) : Option Instr :=
  match s.slot with
  | none => none
  | some sl => decode c (some sl) s.frame

/-- The running command goes on with the message it is at. -/
def resume (c : CfgConst) (s : State) : Fetched :=
  match s.message c with
  | none => .refuse .noMessage
  | some i => .run i s

/-- One instant. `done` is a pulse (R32). Reset, a write of `CFG.strict` and a read reach PWENC in either
phase (R18, R33, R153); a command is accepted only in `IDLE` and else stays on the port (R26, R162).
DESIGN CHOICE (log 14): `rst` falls between two steps, so between the acceptance of a command that ends with an
early error and its `done`, or between a command's last accepted byte and its `done`, it cannot fall. -/
def fetchWith (c : CfgConst) (s₀ : State) : Fetched :=
  let s : State := { s₀ with done := none }
  match s.actions, s.phase with
  | .reset :: rest, _ => .noInstr (State.resetInput { s with actions := rest })
  | .writeStrict b :: rest, _ => .noInstr { s with actions := rest, strict := b }
  | .read r :: rest, _ => .noInstr { s with actions := rest, reads := s.reads ++ [(r, s.readReg r)] }
  | .command o :: rest, .idle => .run (decodeOp o.op) (State.accept o { s with actions := rest })
  | .command _ :: _, .run => resume c s
  | .pass :: rest, .idle => .noInstr { s with actions := rest }
  | .pass :: rest, .run => resume c { s with actions := rest }
  | [], .idle => .noInstr s
  | [], .run => resume c s

/-- `s` with the command word `w` on the command port, every operand input 0, PWENC idle. -/
def State.withCommandWord (s : State) (w : Nat) : State :=
  { s with
    phase := .idle, mi := 0#3, bi := 0#7, dpend := false, tx := none, dly := none,
    actions := .command { Opr.zero with op := BitVec.ofNat 3 w } :: s.actions }

/-- `s` with the message `bs` in the frame buffer and the sequencer at its slot, and the host leaving the
ports alone at the next instant. -/
def State.withMessage (s : State) (sl : Slot) (bs : List Byte) : State :=
  { s with
    phase := .run, mi := sl.mi, bi := 0#7, dpend := false, tx := none, dly := none,
    opr := { s.opr with op := sl.op, enabled := sl.enabled },
    fbuf := s.fbuf.writeAll 0 bs, flen := BitVec.ofNat 7 bs.length,
    actions := .pass :: s.actions }

end Sys2Proof.Machine
end

