-- ==== Sys2Proof/Machine/Step.lean ====
section
/-! DEFINITION. One step of the machine: one instant at the ports, and the instruction it makes run. -/

namespace Sys2Proof.Machine

/-- One step: the next state, a fault, or a refusal. -/
def step (s : State) : Host.Outcome State Fault Refusal :=
  match fetchWith Config.cfg s with
  | .noInstr t => .next t
  | .run i t => exec i t
  | .refuse r => .refused r

/-- `s` with the table word `w` where the next step fetches: one byte on the `op` port as a command the host
offers, more bytes in the frame buffer as the running command's message (log 3). A word that is
no message changes nothing. -/
def State.withFetchWord (s : State) (nbits w : Nat) : State :=
  if nbits ≤ 8 then s.withCommandWord w
  else
    match tableSlot Config.cfg nbits w with
    | some sl => s.withMessage sl (tableBytes nbits w)
    | none => s

end Sys2Proof.Machine
end

