-- ==== Sys2Proof/Safety.lean ====
section
/-! DEFINITION. The terms claims use: what a run of events leaves at the sink, the event-level function of
`10_state.md` R36 and `30_encoding.md` R78, what it is for a command to complete or a message to be over,
and the invariant of the machine's states. -/

namespace Sys2Proof.Machine

/-! ### Events at the sink -/

/-- The bytes an event puts on the wire (R12). -/
def Event.bytes : Event → List Byte
  | .wr bs => bs
  | .dly _ => []

/-- The wire stream of a trace (R12, R55): the payloads in order, no byte between them. -/
def wireOf (evs : List Event) : List Byte := evs.flatMap Event.bytes

/-- How many answers of the sink an event takes: one for each byte (R27), one for a delay (R30). -/
def Event.answers : Event → Nat
  | .wr bs => bs.length
  | .dly _ => 1

/-- How many answers a trace takes. -/
def answersOf (evs : List Event) : Nat := (evs.map Event.answers).sum

/-- The events of a trace that are complete after `k` accepting answers (R56, R140). -/
def completedWithin : Nat → List Event → List Event
  | _, [] => []
  | k, e :: es => if e.answers ≤ k then e :: completedWithin (k - e.answers) es else []

/-- The bytes of a trace that the sink has accepted after `k` accepting answers (R140). -/
def bytesWithin : Nat → List Event → List Byte
  | _, [] => []
  | k, e :: es =>
    if e.answers ≤ k then e.bytes ++ bytesWithin (k - e.answers) es else e.bytes.take k

/-! ### The event-level function -/

/-- The low and the high half of an operand on the wire, in this order (R72). -/
abbrev lo (v : Half) : Byte := (split14 v.toNat).1
abbrev hi (v : Half) : Byte := (split14 v.toNat).2

/-- Indices 12 up to the checksum of an effect frame (R68, R69, R70). -/
def effectTailBytes (c : CfgConst) (cat : Category) (o : Opr) : List Byte :=
  match cat with
  | .periodic =>
    [lo o.direction, hi o.direction, mask7 o.strength.toNat, lo o.sampleRate, hi o.sampleRate,
     c.perConstA, c.perConstB, mask7 o.attackLevel.toNat, lo o.attackTime, hi o.attackTime,
     0x7F#8, lo o.fadeTime, hi o.fadeTime, mask7 o.fadeLevel.toNat, lo o.frequency, hi o.frequency,
     lo o.amplitude, hi o.amplitude, 0x01#8, 0x01#8]
  | .condition =>
    [mask7 o.strengthX.toNat, 0x00#8, mask7 o.strengthY.toNat, 0x00#8,
     lo o.offsetX, hi o.offsetX, lo o.offsetY, hi o.offsetY]
  | .friction =>
    [mask7 o.strengthX.toNat, 0x00#8, mask7 o.strengthY.toNat, 0x00#8]

/-- The payload of an effect frame: everything before the checksum (R67). -/
def effectPayload (c : CfgConst) (cat : Category) (o : Opr) : List Byte :=
  [0xF0#8, 0x00#8, 0x01#8, 0x0A#8, 0x01#8, 0x23#8, o.etype, c.unused7,
   lo o.duration, hi o.duration, lo o.buttonMask, hi o.buttonMask] ++ effectTailBytes c cat o

/-- An effect frame (R67, R74): the payload, CSUM7 of the payload from index 5 on, the terminator. -/
def effectFrame (c : CfgConst) (cat : Category) (o : Opr) : List Byte :=
  effectPayload c cat o ++ [csum7 ((effectPayload c cat o).drop 5), 0xF7#8]

/-- The event trace and the completion code of a command with operands `o`, when the sink does not fail:
a function of the constants, `CFG.strict` and the operands (R13, R36), by the table of R78 and the errors
of R132 in R138's order. -/
def eventModel (c : CfgConst) (strict : Bool) (o : Opr) : List Event × Code :=
  match decodeOp o.op with
  | .init =>
    ([.wr [0xC5#8, 0x01#8], .dly 20#7,
      .wr [0xF0#8, 0x00#8, 0x01#8, 0x0A#8, 0x01#8, 0x10#8, 0x05#8, 0x6B#8, 0xF7#8], .dly 57#7,
      .wr (initMsg3 c)], codeOk)
  | .autocenter =>
    if o.enabled then ([.wr [0xC5#8, c.acOnMode]], codeOk)
    else
      ([.wr [0xC5#8, c.acOnMode], .dly 70#7, .wr [0xB5#8, c.acReg, 0x7F#8],
        .wr [0xA5#8, c.acRwB1, c.acRwB2], .wr [0xC5#8, c.acOffMode]], codeOk)
  | .effect =>
    match categoryOf c o.etype with
    | none => ([], codeInvalidEffectType)
    | some cat =>
      if strict && outOfRangeEffect cat o then ([], codeValueOutOfRange)
      else ([.wr (effectFrame c cat o)], codeOk)
  | .play =>
    if strict && over8 o.effectId then ([], codeValueOutOfRange)
    else ([.wr [0xB5#8, 0x20#8, mask7 o.effectId.toNat]], codeOk)
  | .stop =>
    if strict && over8 o.effectId then ([], codeValueOutOfRange)
    else ([.wr [0xB5#8, 0x30#8, mask7 o.effectId.toNat]], codeOk)
  | .modify =>
    if strict && (over8 o.effectId || over8 o.param || over14 o.value) then ([], codeValueOutOfRange)
    else
      ([.wr [0xB5#8, mask7 o.param.toNat, mask7 o.effectId.toNat, 0xA5#8, lo o.value, hi o.value]],
       codeOk)
  | _ => ([], codeInvalidCommand)

/-! ### Commands and messages that come to their end -/

/-- The sink's next `n` answers accept: as far as they are listed, none of them fails or keeps PWENC
waiting (the premises `SinkNeverFails` and `SinkAnswers`, for `n` answers). -/
def State.SinkAccepts (s : State) (n : Nat) : Prop := ∀ a ∈ s.answers.take n, a = .accept

/-- The sequencer is at the start of a message: no byte of it sent, no delay pending (R19, R23). -/
def State.AtStart (s : State) : Prop := s.bi = 0#7 ∧ s.dpend = false

/-- From `s` a command comes to its end at `t` with code `code` (R141, R142): the sink has the events `evs`
and the bytes `bytes` more and `rest` of its answers left, the host has the code, `STATUS.err` and the
completion port carry it, the position and the requests are cleared and PWENC is idle; the operands,
`CFG.strict` and the host's side are as they were. -/
structure Ends (s : State) (evs : List Event) (bytes : List Byte) (rest : List SinkAnswer) (code : Code)
    (t : State) : Prop where
  trace   : t.trace = s.trace ++ evs
  wire    : t.wire = s.wire ++ bytes
  answers : t.answers = rest
  codes   : t.codes = s.codes ++ [code]
  err     : t.err = code
  done    : t.done = some code
  phase   : t.phase = .idle
  mi      : t.mi = 0#3
  bi      : t.bi = 0#7
  dpend   : t.dpend = false
  tx      : t.tx = none
  dly     : t.dly = none
  opr     : t.opr = s.opr
  strict  : t.strict = s.strict
  actions : t.actions = s.actions
  reads   : t.reads = s.reads

/-- A command ends after all of its events `evs`: their bytes are on the wire, and one answer was taken
for each byte and each delay. -/
abbrev Completes (s : State) (evs : List Event) (code : Code) (t : State) : Prop :=
  Ends s evs (wireOf evs) (s.answers.drop (answersOf evs)) code t

/-- A command ends because the sink failed after `k` accepting answers (R140): the events complete by then
stand, the bytes accepted by then were sent, the code is `TransportFailure`. -/
abbrev FailsAfter (s : State) (evs : List Event) (k : Nat) (rest : List SinkAnswer) (t : State) : Prop :=
  Ends s (completedWithin k evs) (bytesWithin k evs) rest codeTransportFailure t

/-- From `s` a message that is not its command's last is over at `t` after the events `evs`, and the sequencer is
at the start of the next one (R19): `mi` one on, nothing completed, and the rest as it was. -/
structure Advances (s : State) (evs : List Event) (t : State) : Prop where
  trace   : t.trace = s.trace ++ evs
  wire    : t.wire = s.wire ++ wireOf evs
  answers : t.answers = s.answers.drop (answersOf evs)
  mi      : t.mi = s.mi + 1#3
  bi      : t.bi = 0#7
  dpend   : t.dpend = false
  tx      : t.tx = none
  phase   : t.phase = s.phase
  codes   : t.codes = s.codes
  err     : t.err = s.err
  done    : t.done = s.done
  opr     : t.opr = s.opr
  strict  : t.strict = s.strict
  acc     : t.acc = s.acc
  actions : t.actions = s.actions
  reads   : t.reads = s.reads

/-- The frame buffer after `bs` was put in it from index 0: it holds `bs`, and every index from the length of
`bs` up reads as in `s`. -/
structure Holds (s : State) (bs : List Byte) (t : State) : Prop where
  frame : t.frame = bs
  above : ∀ a, bs.length ≤ a → t.fbuf.read a = s.fbuf.read a

/-! ### The states of the machine -/

/-- The delay after a message (R99, R102, R165). -/
def slotDelay : Slot → Option Millis
  | .initM1 => some 20#7
  | .initM2 => some 57#7
  | .offM1 => some 70#7
  | _ => none

/-- Nothing is left of a command while PWENC is idle (R35). -/
def State.AtRest (s : State) : Prop :=
  s.mi = 0#3 ∧ s.bi = 0#7 ∧ s.dpend = false ∧ s.tx = none ∧ s.dly = none

/-- While PWENC runs, the buffer holds a well-formed message of the running command (R45); either bytes of it
are left to send, or its delay is pending and requested (R19, R23, R30). -/
def State.AtMessage (c : CfgConst) (s : State) : Prop :=
  ∃ sl i, s.slot = some sl ∧ decode c (some sl) s.frame = some i ∧ i.wellFormed c = true ∧
    (s.dpend = false → s.bi.toNat < s.flen.toNat ∧ s.dly = none) ∧
    (s.dpend = true → s.bi = 0#7 ∧ s.tx = none ∧ s.dly = slotDelay sl ∧ slotDelay sl ≠ none)

/-- The invariant: the buffer in canonical form with at most 78 valid bytes (R21, R40), a code the spec
names (R20), a message number of R19, and the position as the phase wants it. -/
def State.Inv (c : CfgConst) (s : State) : Prop :=
  s.fbuf.wf = true ∧ s.flen.toNat ≤ 78 ∧ s.err.toNat ≤ 4 ∧ s.mi.toNat ≤ 4 ∧
    (s.phase = .idle → s.AtRest) ∧ (s.phase = .run → s.AtMessage c)

/-- A message PWENC can emit (R60): at some slot it decodes to a well-formed instruction. -/
def IsMessage (c : CfgConst) (bs : List Byte) : Prop :=
  ∃ sl i, decode c (some sl) bs = some i ∧ i.wellFormed c = true

/-- An event PWENC can cause: a whole well-formed message (R45), or one of the three delays (R44). -/
def IsEvent (c : CfgConst) : Event → Prop
  | .wr bs => IsMessage c bs
  | .dly n => n = 20#7 ∨ n = 57#7 ∨ n = 70#7

/-- A run is safe as long as no step stops the machine. -/
def State.Proceeds (s : State) : Prop := ∃ t, step s = .next t

end Sys2Proof.Machine
end

