-- ==== Sys2Proof/Certificates/Slice0/Obligations.lean ====
section
/-! DEFINITION. The statements for the provers. Each says what an instruction or the machine does, for the
instance `Config.cfg` of the OPEN parameters unless it quantifies over the instance. -/

open Sys2Proof Sys2Proof.Machine

/-! ### The 7-bit-safe encoder and the checksum -/

/-- SPLIT14 and LOHI (R84 to R87): for every natural number the two halves, their range, truncation at 14
bits, the low half first, and the worked examples. -/
def Obligations.Split14TakesTheTwoHalves : Prop :=
  (∀ v : Nat, split14 v = (BitVec.ofNat 8 (v &&& 0x7F), BitVec.ofNat 8 ((v >>> 7) &&& 0x7F)) ∧
    (split14 v).1.toNat = v % 128 ∧ (split14 v).2.toNat = v / 128 % 128 ∧
    (split14 v).1.toNat ≤ 0x7F ∧ (split14 v).2.toNat ≤ 0x7F ∧
    split14 v = split14 (v % 16384) ∧ lohi v = [(split14 v).1, (split14 v).2]) ∧
  split14 300 = (0x2C#8, 0x02#8) ∧ split14 16384 = (0x00#8, 0x00#8) ∧
  split14 0xFFFF = (0x7F#8, 0x7F#8) ∧ split14 16684 = (0x2C#8, 0x02#8) ∧ lohi 300 = [0x2C#8, 0x02#8]

/-- MASK7 (R88): the value modulo 128, itself below 128, and the `lo` output of SPLIT14. -/
def Obligations.Mask7KeepsTheLowSevenBits : Prop :=
  (∀ v : Nat, mask7 v = BitVec.ofNat 8 (v &&& 0x7F) ∧ (mask7 v).toNat = v % 128 ∧
    mask7 v = (split14 v).1 ∧ (v ≤ 0x7F → (mask7 v).toNat = v)) ∧
  mask7 0x7F = 0x7F#8 ∧ mask7 0x80 = 0x00#8 ∧ mask7 0xFF = 0x7F#8

/-- RECON14 and the round trip (R89, R90): the value and range of `(hi << 7) | lo`, and the three laws. -/
def Obligations.Recon14InvertsSplit14 : Prop :=
  (∀ l h : Byte, l.toNat ≤ 0x7F → h.toNat ≤ 0x7F →
    recon14 l h = (h.toNat <<< 7) ||| l.toNat ∧ recon14 l h = h.toNat * 128 + l.toNat ∧
    recon14 l h ≤ 16383 ∧ split14 (recon14 l h) = (l, h)) ∧
  (∀ v : Nat, recon14 (split14 v).1 (split14 v).2 = v % 16384) ∧
  (∀ v : Nat, v ≤ 16383 → recon14 (split14 v).1 (split14 v).2 = v) ∧
  recon14 0x2C#8 0x02#8 = 300

/-- CSUM7 (R91): `0x80` minus the sum modulo 128, its low seven bits, in range, and the worked example. -/
def Obligations.ChecksumIsTheMaskedDifference : Prop :=
  (∀ s : List Byte, (csum7 s).toNat = (0x80 - (s.map BitVec.toNat).sum % 128) &&& 0x7F ∧
    csum7 s = BitVec.ofNat 8 ((0x80 - (s.map BitVec.toNat).sum % 128) &&& 0x7F) ∧
    (csum7 s).toNat ≤ 0x7F) ∧
  csum7 [0x23#8, 0x02#8, 0x7F#8] = 0x5C#8

/-- The corner cases of CSUM7, the spec's own inferences (R93 and R96, each '[derived: from rule R91]'): a sum
of zero gives `0x00`, a sum from 1 to 127 is subtracted from `0x80` as it is, a byte with bit 7 set counts
as its low seven bits. -/
def Obligations.ChecksumCornerCases : Prop :=
  (∀ s : List Byte, ((s.map BitVec.toNat).sum % 128 = 0 → csum7 s = 0x00#8) ∧
    (1 ≤ (s.map BitVec.toNat).sum % 128 → (csum7 s).toNat = 0x80 - (s.map BitVec.toNat).sum % 128) ∧
    csum7 (s.map (fun b => b &&& 0x7F#8)) = csum7 s) ∧
  csum7 [] = 0x00#8 ∧ csum7 [0x40#8, 0x40#8] = 0x00#8 ∧ csum7 [0x01#8] = 0x7F#8 ∧ csum7 [0x7F#8] = 0x01#8

/-- The accumulator form (R94, which the spec derives from R91): clearing, adding the bytes in any order and
taking `final` gives CSUM7. -/
def Obligations.AccumulatorGivesTheChecksumInAnyOrder : Prop :=
  (∀ s s' : List Byte, s.Perm s' → accFinal (s'.foldl accAdd 0#7) = csum7 s) ∧
  (∀ (acc : Septet) (b : Byte), (accAdd acc b).toNat = (acc.toNat + b.toNat) % 128 ∧
    accAdd acc b = acc + b.setWidth 7) ∧
  (∀ acc : Septet, accFinal acc = BitVec.ofNat 8 ((0x80 - acc.toNat) &&& 0x7F) ∧
    accFinal acc = (~~~acc + 1#7).setWidth 8)

/-- The zero-sum property (R92): any bytes and their checksum sum to 0 modulo 128, the checksum is the 7-bit
negation of the sum, and so for the bytes from index 5 through the checksum of every generated effect
frame, whatever the instance and the operands. -/
def Obligations.EffectFramesSumToZero : Prop :=
  (∀ s : List Byte, ((s.map BitVec.toNat).sum + (csum7 s).toNat) % 128 = 0 ∧
    (csum7 s).toNat = (128 - (s.map BitVec.toNat).sum % 128) % 128 ∧
    ((csum7 s).toNat : Int) = (-((s.map BitVec.toNat).sum : Int)) % 128) ∧
  ∀ (c : CfgConst) (cat : Category) (o : Opr),
    ((((effectFrame c cat o).drop 5).dropLast).map BitVec.toNat).sum % 128 = 0

/-! ### The multiplexer -/

/-- KIND_OF and CATEGORY_OF (R106), for every well-formed instance: the kind's own code selects it, nothing
else does, and the category is the one of R105's table. What a well-formed `TYPE_CODE` is, is the spec's
own decision D4. -/
def Obligations.TypeCodeSelectsItsKind : Prop :=
  ∀ c : CfgConst, c.wellFormed = true →
    (∀ (b : Byte) (k : Kind), kindOf c b = some k ↔ c.typeCode k = b) ∧
    (∀ b : Byte, kindOf c b = none ↔ ∀ k, c.typeCode k ≠ b) ∧
    (∀ k ∈ [Kind.constant, .sine, .square, .ramp, .triangle, .sawtoothDown, .sawtoothUp],
      categoryOf c (c.typeCode k) = some .periodic) ∧
    (∀ k ∈ [Kind.spring, .damper, .inertia], categoryOf c (c.typeCode k) = some .condition) ∧
    categoryOf c (c.typeCode .friction) = some .friction ∧
    (∀ b : Byte, categoryOf c b = none ↔ kindOf c b = none)

/-- The illegal type bytes (R79): in every well-formed instance 245 of the 256 values are outside the known
set, and EFFECT with one of them ends with `InvalidEffectType` and no event. -/
def Obligations.UnknownEffectTypesAreRejected : Prop :=
  (∀ c : CfgConst, c.wellFormed = true →
    ((List.range 256).filter (fun n => (kindOf c (BitVec.ofNat 8 n)).isNone)).length = 245) ∧
  (∀ s : State, categoryOf Config.cfg s.opr.etype = none →
    ∃ t, exec .effect s = .next t ∧ Ends s [] [] s.answers codeInvalidEffectType t ∧
      t.fbuf = s.fbuf ∧ t.flen = s.flen ∧ t.acc = s.acc)

/-! ### Encodings -/

/-- A few words of the opcode table decode to the instruction they stand for. The place each word is read
at is the model's choice (log 3). -/
def Obligations.TableWordsDecode : Prop :=
  decodeTableWord 8 0x0 = some .init ∧ decodeTableWord 8 0x2 = some .effect ∧
  decodeTableWord 8 0x7 = some .reserved7 ∧ decodeTableWord 16 0xC501 = some .initM1 ∧
  decodeTableWord 72 0xF000010A0110056BF7 = some .initM2 ∧
  decodeTableWord 24 0xB52005 = some (.playM1 5#7) ∧ decodeTableWord 24 0xB53005 = some (.stopM1 5#7) ∧
  decodeTableWord 48 0xB56405A52C02 = some (.modifyM1 0x64#7 5#7 300#14)

/-- Decoding what a well-formed instruction encodes to, at its place, gives the instruction back: for every
instance, every row and every value of every field. What a well-formed instance is, is R7's own choice (D4
to D8); places are the model's (log 6). -/
def Obligations.DecodeInvertsEncode : Prop :=
  ∀ (c : CfgConst) (i : Instr), c.wellFormed = true → i.wellFormed c = true →
    decode c (slotOf i) (encode i) = some i

/-- Bytes that decode to an instruction are its encoding, and the instruction stands at that place: each
byte sequence has one meaning at a place, and no bit of it is dropped. Places are the model's choice (log
6). -/
def Obligations.EncodeInvertsDecode : Prop :=
  ∀ (c : CfgConst) (place : Option Slot) (bs : List Byte) (i : Instr),
    decode c place bs = some i → encode i = bs ∧ slotOf i = place

/-- The message lengths of R60: 2, 3, 6, 9, 78, 34, 22 and 18 bytes, and the first byte of each format. -/
def Obligations.MessageFormatsOfR60 : Prop :=
  ∀ (c : CfgConst) (i : Instr) (sl : Slot), i.wellFormed c = true → slotOf i = some sl →
    ∃ n b, (encode i).length = n ∧ (encode i).head? = some b ∧
      match i with
      | .initM1 | .autocenterOnM1 _ | .autocenterOffM1 _ | .autocenterOffM4 _ => n = 2 ∧ b = 0xC5#8
      | .playM1 _ | .stopM1 _ | .autocenterOffM2 _ => n = 3 ∧ b = 0xB5#8
      | .autocenterOffM3 _ _ => n = 3 ∧ b = 0xA5#8
      | .modifyM1 _ _ _ => n = 6 ∧ b = 0xB5#8
      | .initM2 => n = 9 ∧ b = 0xF0#8
      | .initM3 _ => n = 78 ∧ b = c.initMsg3 0
      | .effectSpring _ | .effectDamper _ | .effectInertia _ => n = 22 ∧ b = 0xF0#8
      | .effectFriction _ => n = 18 ∧ b = 0xF0#8
      | _ => n = 34 ∧ b = 0xF0#8

/-- 7-bit safety (R75): in every message but INIT message 3, exactly the bytes R75 lists have bit 7 set.
The spec marks R75 as its own inference ('[derived: from rules R61 to R74]'). -/
def Obligations.MessagesAreSevenBitSafe : Prop :=
  ∀ (i : Instr) (sl : Slot), slotOf i = some sl → sl ≠ .initM3 →
    ∀ (k : Nat) (hk : k < (encode i).length),
      (128 ≤ ((encode i)[k]).toNat ↔
        k = 0 ∨ (sl = .modifyM1 ∧ k = 3) ∨
        ((sl = .initM2 ∨ sl = .effectM1) ∧ k + 1 = (encode i).length))

/-! ### Reset, the command port and the host's other ports -/

/-- What reset leaves (R34), for every entry of the table that has a value. -/
def Obligations.ResetLeavesTheTableOfR34 : Prop :=
  State.reset.phase = .idle ∧ State.reset.busy = false ∧ State.reset.cmdReady = true ∧
  State.reset.strict = false ∧ State.reset.err = codeOk ∧ State.reset.mi = 0#3 ∧ State.reset.bi = 0#7 ∧
  State.reset.flen = 0#7 ∧ State.reset.acc = 0#7 ∧ State.reset.dpend = false ∧
  State.reset.tx = none ∧ State.reset.dly = none ∧ State.reset.done = none

/-- Reset in any state, a running command included (R155): the request is dropped, no `done`, `STATUS.err`
is 0, PWENC idle with R34's values; what the sink and the host were given stays. Reset is the spec's own
decision D16; the host's and the sink's side as fields is the model's choice (log 2), one host action a
step too. -/
def Obligations.ResetAbandonsTheCommand : Prop :=
  ∀ (s : State) (rest : List HostAction), s.actions = .reset :: rest →
    ∃ t, step s = .next t ∧ t.tx = none ∧ t.dly = none ∧ t.done = none ∧ t.err = 0#3 ∧
      t.phase = .idle ∧ t.strict = false ∧ t.mi = 0#3 ∧ t.bi = 0#7 ∧ t.flen = 0#7 ∧ t.acc = 0#7 ∧
      t.dpend = false ∧ t.wire = s.wire ∧ t.trace = s.trace ∧ t.codes = s.codes ∧ t.reads = s.reads ∧
      t.answers = s.answers ∧ t.actions = rest

/-- With no command offered PWENC does nothing in `IDLE` (R152, R154): only the `done` pulse ends, whether the
host has no action to come or lets an instant pass. Reset and idling are the spec's own decision D16; host
actions are the model's choice (log 2). -/
def Obligations.IdleWaitsForACommand : Prop :=
  (∀ s : State, s.phase = .idle → s.actions = [] → step s = .next { s with done := none }) ∧
  ∀ (s : State) (rest : List HostAction), s.phase = .idle → s.actions = .pass :: rest →
    step s = .next { s with done := none, actions := rest }

/-- A step runs the decoded instruction. In `IDLE` with a command on the port: the instruction of its `op`
word, on the state with the operands latched, `phase` = `RUN` and the command taken off the port. In `RUN`:
the message the buffer holds at the sequencer's place, whether the host offers a command, offers nothing,
or lets an instant pass; the `done` pulse ends first. What one step is, is the model's choice (logs 2 and
6). -/
def Obligations.StepRunsTheDecodedInstruction : Prop :=
  (∀ (s : State) (o : Opr) (rest : List HostAction), s.phase = .idle → s.actions = .command o :: rest →
    step s = exec (decodeOp o.op) { s with done := none, actions := rest, opr := o, phase := .run }) ∧
  (∀ (s : State) (i : Instr) (sl : Slot), s.phase = .run →
    (s.actions = [] ∨ ∃ o rest, s.actions = .command o :: rest) →
    s.slot = some sl → decode Config.cfg (some sl) s.frame = some i →
    step s = exec i { s with done := none }) ∧
  (∀ (s : State) (i : Instr) (sl : Slot) (rest : List HostAction), s.phase = .run →
    s.actions = .pass :: rest → s.slot = some sl → decode Config.cfg (some sl) s.frame = some i →
    step s = exec i { s with done := none, actions := rest })

/-- A command offered while PWENC runs is not accepted (R26, R53, R162): it stays on the port, and the
operand registers and `CFG.strict` keep their values. The command port is the spec's own decision D19, D20;
one host action a step is the model's choice (log 2). -/
def Obligations.BusyLeavesTheCommandOnThePort : Prop :=
  ∀ (s t : State) (o : Opr) (rest : List HostAction), s.phase = .run → s.actions = .command o :: rest →
    step s = .next t → t.actions = s.actions ∧ t.opr = s.opr ∧ t.strict = s.strict

/-- The host's ports (R18, R20, R33), in either phase: a write of `CFG.strict` changes that register alone,
a read changes nothing and returns the register's value. The port is the spec's own decision D11, D15;
actions and reads as lists are the model's choice (log 2). -/
def Obligations.HostPortsReadAndWrite : Prop :=
  (∀ (s : State) (b : Bool) (rest : List HostAction), s.actions = .writeStrict b :: rest →
    step s = .next { s with done := none, actions := rest, strict := b }) ∧
  (∀ (s : State) (r : HostReg) (rest : List HostAction), s.actions = .read r :: rest →
    ∃ v : Code, step s = .next { s with done := none, actions := rest, reads := s.reads ++ [(r, v)] } ∧
      (r = .strict → v = if s.strict then 1#3 else 0#3) ∧ (r = .err → v = s.err) ∧
      (r = .busy → v = if s.phase = .run then 1#3 else 0#3))

/-- The configuration hazard (R163): a message of a running command does the same whatever `CFG.strict` has
become since the command was accepted. The rule is the spec's own decision D11. -/
def Obligations.RunningCommandIgnoresStrict : Prop :=
  ∀ (i : Instr) (sl : Slot) (s t : State) (b : Bool), slotOf i = some sl → exec i s = .next t →
    exec i { s with strict := b } = .next { t with strict := b }

/-! ### INIT and AUTOCENTER -/

/-- INIT (R98 to R100): the three messages with 20 ms and 57 ms between them, then `OK`; only the buffer
and what a completion sets change. -/
def Obligations.InitSendsTheHandshake : Prop :=
  ∀ s : State, s.fbuf.wf = true → s.AtStart → s.SinkAccepts 91 →
    ∃ t, exec .init s = .next t ∧
      Completes s
        [.wr [0xC5#8, 0x01#8], .dly 20#7,
         .wr [0xF0#8, 0x00#8, 0x01#8, 0x0A#8, 0x01#8, 0x10#8, 0x05#8, 0x6B#8, 0xF7#8], .dly 57#7,
         .wr (initMsg3 Config.cfg)] codeOk t ∧
      (initMsg3 Config.cfg).length = 78 ∧ t.acc = s.acc ∧ Holds s (initMsg3 Config.cfg) t

/-- AUTOCENTER with `enabled` = 1 (R101): its one message, then `OK`. That the buffer above the message
keeps its bytes is the model's choice (log 4; R38 leaves them unspecified). -/
def Obligations.AutocenterOnSendsOneMessage : Prop :=
  ∀ s : State, s.fbuf.wf = true → s.AtStart → s.opr.enabled = true → s.SinkAccepts 2 →
    ∃ t, exec .autocenter s = .next t ∧ Completes s [.wr [0xC5#8, Config.cfg.acOnMode]] codeOk t ∧
      t.acc = s.acc ∧ Holds s [0xC5#8, Config.cfg.acOnMode] t

/-- AUTOCENTER with `enabled` = 0 (R102, R104): four messages, 70 ms between the first and the second, no
other delay, then `OK`; the last mode byte differs from the first. That the buffer's indices from 3 up keep
their bytes is the model's choice (log 4; R38 leaves those at and above `flen` unspecified). -/
def Obligations.AutocenterOffSendsFourMessages : Prop :=
  Config.cfg.acOffMode ≠ Config.cfg.acOnMode ∧
  ∀ s : State, s.fbuf.wf = true → s.AtStart → s.opr.enabled = false → s.SinkAccepts 11 →
    ∃ t, exec .autocenter s = .next t ∧
      Completes s
        [.wr [0xC5#8, Config.cfg.acOnMode], .dly 70#7, .wr [0xB5#8, Config.cfg.acReg, 0x7F#8],
         .wr [0xA5#8, Config.cfg.acRwB1, Config.cfg.acRwB2], .wr [0xC5#8, Config.cfg.acOffMode]] codeOk t ∧
      t.acc = s.acc ∧ t.frame = [0xC5#8, Config.cfg.acOffMode] ∧
      ∀ a, 3 ≤ a → t.fbuf.read a = s.fbuf.read a

/-- The messages of INIT, one by one (R98, R99): message 1 and 20 ms, then message 2 is in the buffer;
message 2 and 57 ms, then message 3 is; message 3, then `OK`. Message rows as instructions of their own are
the model's choice (log 6). That the buffer above the messages keeps its bytes is the model's choice (log
4; R38 leaves them unspecified). -/
def Obligations.InitMessagesAdvance : Prop :=
  ∀ s : State, s.fbuf.wf = true → s.AtStart →
    (s.SinkAccepts 3 → ∃ t, exec .initM1 s = .next t ∧
      Advances s [.wr [0xC5#8, 0x01#8], .dly 20#7] t ∧
      t.frame = [0xF0#8, 0x00#8, 0x01#8, 0x0A#8, 0x01#8, 0x10#8, 0x05#8, 0x6B#8, 0xF7#8] ∧
      ∀ a, 9 ≤ a → t.fbuf.read a = s.fbuf.read a) ∧
    (s.SinkAccepts 10 → ∃ t, exec .initM2 s = .next t ∧
      Advances s [.wr [0xF0#8, 0x00#8, 0x01#8, 0x0A#8, 0x01#8, 0x10#8, 0x05#8, 0x6B#8, 0xF7#8], .dly 57#7] t ∧
      Holds s (initMsg3 Config.cfg) t) ∧
    (∀ z : List Byte, z.length = 78 → s.SinkAccepts 78 → ∃ t, exec (.initM3 z) s = .next t ∧
      Completes s [.wr z] codeOk t ∧ t.acc = s.acc ∧ Holds s z t)

/-- The messages of AUTOCENTER, one by one (R101, R102), with every value of their fields. Message rows as
instructions of their own are the model's choice (log 6). That the buffer above the messages keeps its
bytes is the model's choice (log 4; R38 leaves them unspecified). -/
def Obligations.AutocenterMessagesAdvance : Prop :=
  ∀ s : State, s.fbuf.wf = true → s.AtStart → ∀ x y : Septet,
    (s.SinkAccepts 2 → ∃ t, exec (.autocenterOnM1 x) s = .next t ∧
      Completes s [.wr [0xC5#8, x.setWidth 8]] codeOk t ∧ t.acc = s.acc ∧ Holds s [0xC5#8, x.setWidth 8] t) ∧
    (s.SinkAccepts 3 → ∃ t, exec (.autocenterOffM1 x) s = .next t ∧
      Advances s [.wr [0xC5#8, x.setWidth 8], .dly 70#7] t ∧ Holds s [0xB5#8, Config.cfg.acReg, 0x7F#8] t) ∧
    (s.SinkAccepts 3 → ∃ t, exec (.autocenterOffM2 x) s = .next t ∧
      Advances s [.wr [0xB5#8, x.setWidth 8, 0x7F#8]] t ∧
      Holds s [0xA5#8, Config.cfg.acRwB1, Config.cfg.acRwB2] t) ∧
    (s.SinkAccepts 3 → ∃ t, exec (.autocenterOffM3 x y) s = .next t ∧
      Advances s [.wr [0xA5#8, x.setWidth 8, y.setWidth 8]] t ∧
      t.frame = [0xC5#8, Config.cfg.acOffMode] ∧ ∀ a, 3 ≤ a → t.fbuf.read a = s.fbuf.read a) ∧
    (s.SinkAccepts 2 → ∃ t, exec (.autocenterOffM4 x) s = .next t ∧
      Completes s [.wr [0xC5#8, x.setWidth 8]] codeOk t ∧ t.acc = s.acc ∧ Holds s [0xC5#8, x.setWidth 8] t)

/-! ### EFFECT -/

/-- EFFECT of a known type, in range or with `CFG.strict` = 0 (R107 to R114): one message, the frame of its
category byte for byte, then `OK`; `acc` holds the sum of the checked bytes. Low half first in effect
frames is the spec's own inference (D9). That the buffer above the frame keeps its bytes is the model's
choice (log 4; R38 leaves them unspecified), and so is that `acc` and the frame are kept in `IDLE` (log 11;
R35 calls them dead). -/
def Obligations.EffectSendsItsFrame : Prop :=
  ∀ (s : State) (cat : Category), s.fbuf.wf = true → s.AtStart →
    categoryOf Config.cfg s.opr.etype = some cat →
    (s.strict = false ∨ outOfRangeEffect cat s.opr = false) →
    s.SinkAccepts (effectFrame Config.cfg cat s.opr).length →
    ∃ t, exec .effect s = .next t ∧ Completes s [.wr (effectFrame Config.cfg cat s.opr)] codeOk t ∧
      t.acc.toNat = (((effectPayload Config.cfg cat s.opr).drop 5).map BitVec.toNat).sum % 128 ∧
      Holds s (effectFrame Config.cfg cat s.opr) t ∧
      (effectFrame Config.cfg cat s.opr).length =
        match cat with | .periodic => 34 | .condition => 22 | .friction => 18

/-- The frames of the 11 kinds as messages (R113, R116 to R126), with every value of their fields: each is
the one message, then `OK`. Message rows as instructions of their own are the model's choice (log 6). That
the buffer above the message keeps its bytes is the model's choice (log 4; R38 leaves them unspecified). -/
def Obligations.EffectMessagesComplete : Prop :=
  ∀ s : State, s.fbuf.wf = true → s.AtStart →
    (∀ m : PeriodicMsg, s.SinkAccepts 34 →
      ∀ i ∈ [Instr.effectConstant m, .effectSine m, .effectSquare m, .effectRamp m, .effectTriangle m,
        .effectSawtoothDown m, .effectSawtoothUp m],
      ∃ t, exec i s = .next t ∧ Completes s [.wr (periodicBytes m)] codeOk t ∧ t.acc = s.acc ∧
        Holds s (periodicBytes m) t) ∧
    (∀ m : ConditionMsg, s.SinkAccepts 22 →
      ∀ i ∈ [Instr.effectSpring m, .effectDamper m, .effectInertia m],
      ∃ t, exec i s = .next t ∧ Completes s [.wr (conditionBytes m)] codeOk t ∧ t.acc = s.acc ∧
        Holds s (conditionBytes m) t) ∧
    (∀ m : FrictionMsg, s.SinkAccepts 18 →
      ∃ t, exec (.effectFriction m) s = .next t ∧ Completes s [.wr (frictionBytes m)] codeOk t ∧
        t.acc = s.acc ∧ Holds s (frictionBytes m) t)

/-- The frame EFFECT builds from its operands is a well-formed message of its kind: it decodes, at EFFECT's
slot, to an instruction whose type byte is the kind's code and whose checksum is right. Low half first is
the spec's own inference (D9). -/
def Obligations.EffectFrameIsItsKindsMessage : Prop :=
  ∀ (c : CfgConst) (o : Opr) (cat : Category), c.wellFormed = true → categoryOf c o.etype = some cat →
    ∃ i, decode c (some .effectM1) (effectFrame c cat o) = some i ∧ i.wellFormed c = true

/-- Operands outside the category of `etype` are ignored (R16): with operands `p` that agree with the
latched ones on `etype` and on what its category reads, EFFECT does the same, in either mode and whatever
the sink answers; only the operand registers differ. R16's clause is the spec's own decision D24. -/
def Obligations.EffectIgnoresForeignOperands : Prop :=
  ∀ (s t : State) (p : Opr), s.opr.etype = p.etype →
    s.opr.duration = p.duration → s.opr.buttonMask = p.buttonMask →
    (categoryOf Config.cfg p.etype = some .periodic →
      s.opr.direction = p.direction ∧ s.opr.strength = p.strength ∧ s.opr.sampleRate = p.sampleRate ∧
      s.opr.attackLevel = p.attackLevel ∧ s.opr.attackTime = p.attackTime ∧
      s.opr.fadeTime = p.fadeTime ∧ s.opr.fadeLevel = p.fadeLevel ∧
      s.opr.frequency = p.frequency ∧ s.opr.amplitude = p.amplitude) →
    (categoryOf Config.cfg p.etype = some .condition →
      s.opr.strengthX = p.strengthX ∧ s.opr.strengthY = p.strengthY ∧
      s.opr.offsetX = p.offsetX ∧ s.opr.offsetY = p.offsetY) →
    (categoryOf Config.cfg p.etype = some .friction →
      s.opr.strengthX = p.strengthX ∧ s.opr.strengthY = p.strengthY) →
    exec .effect s = .next t → exec .effect { s with opr := p } = .next { t with opr := p }

/-! ### PLAY, STOP, MODIFY and the reserved codes -/

/-- PLAY, STOP and MODIFY in range or with `CFG.strict` = 0 (R127 to R131): the one message, then `OK`.
Masking `effect_id` and `param` is the spec's own decision D10. That the buffer above the message keeps its
bytes is the model's choice (log 4; R38 leaves them unspecified). -/
def Obligations.ControlCommandsSendTheirMessage : Prop :=
  ∀ s : State, s.fbuf.wf = true → s.AtStart →
    (s.SinkAccepts 3 → (s.strict = false ∨ s.opr.effectId.toNat ≤ 0x7F) →
      ∃ t, exec .play s = .next t ∧
        Completes s [.wr [0xB5#8, 0x20#8, s.opr.effectId &&& 0x7F#8]] codeOk t ∧ t.acc = s.acc ∧
        Holds s [0xB5#8, 0x20#8, s.opr.effectId &&& 0x7F#8] t) ∧
    (s.SinkAccepts 3 → (s.strict = false ∨ s.opr.effectId.toNat ≤ 0x7F) →
      ∃ t, exec .stop s = .next t ∧
        Completes s [.wr [0xB5#8, 0x30#8, s.opr.effectId &&& 0x7F#8]] codeOk t ∧ t.acc = s.acc ∧
        Holds s [0xB5#8, 0x30#8, s.opr.effectId &&& 0x7F#8] t) ∧
    (s.SinkAccepts 6 →
      (s.strict = false ∨
        s.opr.effectId.toNat ≤ 0x7F ∧ s.opr.param.toNat ≤ 0x7F ∧ s.opr.value.toNat ≤ 0x3FFF) →
      ∃ t, exec .modify s = .next t ∧
        Completes s [.wr [0xB5#8, s.opr.param &&& 0x7F#8, s.opr.effectId &&& 0x7F#8, 0xA5#8,
          (split14 s.opr.value.toNat).1, (split14 s.opr.value.toNat).2]] codeOk t ∧ t.acc = s.acc ∧
        Holds s [0xB5#8, s.opr.param &&& 0x7F#8, s.opr.effectId &&& 0x7F#8, 0xA5#8,
          (split14 s.opr.value.toNat).1, (split14 s.opr.value.toNat).2] t)

/-- The messages of PLAY, STOP and MODIFY (R127 to R129), with every value of their fields. Message rows as
instructions of their own are the model's choice (log 6). That the buffer above the message keeps its bytes
is the model's choice (log 4; R38 leaves them unspecified). -/
def Obligations.ControlMessagesComplete : Prop :=
  ∀ s : State, s.fbuf.wf = true → s.AtStart → ∀ (i p : Septet) (v : Val14),
    (s.SinkAccepts 3 → ∃ t, exec (.playM1 i) s = .next t ∧
      Completes s [.wr [0xB5#8, 0x20#8, i.setWidth 8]] codeOk t ∧ t.acc = s.acc ∧
      Holds s [0xB5#8, 0x20#8, i.setWidth 8] t) ∧
    (s.SinkAccepts 3 → ∃ t, exec (.stopM1 i) s = .next t ∧
      Completes s [.wr [0xB5#8, 0x30#8, i.setWidth 8]] codeOk t ∧ t.acc = s.acc ∧
      Holds s [0xB5#8, 0x30#8, i.setWidth 8] t) ∧
    (s.SinkAccepts 6 → ∃ t, exec (.modifyM1 p i v) s = .next t ∧
      Completes s [.wr ([0xB5#8, p.setWidth 8, i.setWidth 8, 0xA5#8] ++ lohi v.toNat)] codeOk t ∧
      t.acc = s.acc ∧ Holds s ([0xB5#8, p.setWidth 8, i.setWidth 8, 0xA5#8] ++ lohi v.toNat) t)

/-- The reserved operation codes (R80, R137, R139): `InvalidCommand`, no event, buffer and accumulator not
written, whatever the operands, the mode and the sink. The code is the spec's own decision D27. -/
def Obligations.ReservedCodesEndWithInvalidCommand : Prop :=
  ∀ (s : State), ∀ i ∈ [Instr.reserved6, .reserved7],
    ∃ t, exec i s = .next t ∧ Ends s [] [] s.answers 4#3 t ∧ t.fbuf = s.fbuf ∧ t.flen = s.flen ∧
      t.acc = s.acc

/-! ### Strict mode, errors and the sink -/

/-- Strict mode (R135): with `CFG.strict` = 1 a command that reads an operand above its width ends with
`ValueOutOfRange` and no event, buffer and accumulator not written; for EFFECT, each operand of each
category's table, one by one. The form of strict mode is the spec's own decision D11. -/
def Obligations.StrictModeRejectsWideOperands : Prop :=
  ∀ s : State, s.strict = true →
    (0x7F < s.opr.effectId.toNat → ∀ i ∈ [Instr.play, .stop, .modify],
      ∃ t, exec i s = .next t ∧ Ends s [] [] s.answers 2#3 t ∧ t.fbuf = s.fbuf ∧ t.flen = s.flen ∧
        t.acc = s.acc) ∧
    (0x7F < s.opr.param.toNat ∨ 0x3FFF < s.opr.value.toNat →
      ∃ t, exec .modify s = .next t ∧ Ends s [] [] s.answers 2#3 t ∧ t.fbuf = s.fbuf ∧ t.flen = s.flen ∧
        t.acc = s.acc) ∧
    (∀ cat, categoryOf Config.cfg s.opr.etype = some cat →
      (outOfRangeEffect cat s.opr = true ∨
        match cat with
        | .periodic =>
          0x3FFF < s.opr.duration.toNat ∨ 0x3FFF < s.opr.buttonMask.toNat ∨
          0x3FFF < s.opr.direction.toNat ∨ 0x7F < s.opr.strength.toNat ∨
          0x3FFF < s.opr.sampleRate.toNat ∨ 0x7F < s.opr.attackLevel.toNat ∨
          0x3FFF < s.opr.attackTime.toNat ∨ 0x3FFF < s.opr.fadeTime.toNat ∨
          0x7F < s.opr.fadeLevel.toNat ∨ 0x3FFF < s.opr.frequency.toNat ∨
          0x3FFF < s.opr.amplitude.toNat
        | .condition =>
          0x3FFF < s.opr.duration.toNat ∨ 0x3FFF < s.opr.buttonMask.toNat ∨
          0x7F < s.opr.strengthX.toNat ∨ 0x7F < s.opr.strengthY.toNat ∨
          0x3FFF < s.opr.offsetX.toNat ∨ 0x3FFF < s.opr.offsetY.toNat
        | .friction =>
          0x3FFF < s.opr.duration.toNat ∨ 0x3FFF < s.opr.buttonMask.toNat ∨
          0x7F < s.opr.strengthX.toNat ∨ 0x7F < s.opr.strengthY.toNat) →
      ∃ t, exec .effect s = .next t ∧ Ends s [] [] s.answers 2#3 t ∧ t.fbuf = s.fbuf ∧ t.flen = s.flen ∧
        t.acc = s.acc)

/-- The table of R135, operand by operand and in both directions: `OutOfRange` of PLAY and STOP, of MODIFY and of
each category of EFFECT holds exactly when an operand listed there is above its width. The table is the
spec's own decision D11, D30. -/
def Obligations.RangeCheckReadsEachOperand : Prop :=
  ∀ o : Opr,
    (outOfRangeId o = true ↔ 0x7F < o.effectId.toNat) ∧
    (outOfRangeModify o = true ↔
      0x7F < o.effectId.toNat ∨ 0x7F < o.param.toNat ∨ 0x3FFF < o.value.toNat) ∧
    (outOfRangeEffect .periodic o = true ↔
      0x3FFF < o.duration.toNat ∨ 0x3FFF < o.buttonMask.toNat ∨ 0x3FFF < o.direction.toNat ∨
      0x7F < o.strength.toNat ∨ 0x3FFF < o.sampleRate.toNat ∨ 0x7F < o.attackLevel.toNat ∨
      0x3FFF < o.attackTime.toNat ∨ 0x3FFF < o.fadeTime.toNat ∨ 0x7F < o.fadeLevel.toNat ∨
      0x3FFF < o.frequency.toNat ∨ 0x3FFF < o.amplitude.toNat) ∧
    (outOfRangeEffect .condition o = true ↔
      0x3FFF < o.duration.toNat ∨ 0x3FFF < o.buttonMask.toNat ∨ 0x7F < o.strengthX.toNat ∨
      0x7F < o.strengthY.toNat ∨ 0x3FFF < o.offsetX.toNat ∨ 0x3FFF < o.offsetY.toNat) ∧
    (outOfRangeEffect .friction o = true ↔
      0x3FFF < o.duration.toNat ∨ 0x3FFF < o.buttonMask.toNat ∨ 0x7F < o.strengthX.toNat ∨
      0x7F < o.strengthY.toNat)

/-- `over8` and `over14` (R135) at their bounds, and what passes the check: no masking and no truncation
changes a bit of it. The bounds are the spec's own decision D11. -/
def Obligations.InRangeOperandsKeepEveryBit : Prop :=
  (∀ b : Byte, (over8 b = true ↔ 0x7F < b.toNat) ∧ (over8 b = false → mask7 b.toNat = b)) ∧
  (∀ v : Half, (over14 v = true ↔ 0x3FFF < v.toNat) ∧
    (over14 v = false → recon14 (split14 v.toNat).1 (split14 v.toNat).2 = v.toNat))

/-- A failing sink (R140, R56), for every command: when the sink accepts `k` times and then fails, with `k`
below what the command's events take, the command ends with `TransportFailure`; the events complete by then
stand, the bytes accepted by then were sent, nothing is sent after, nothing is retried. What a failure does
is the spec's own decision D14. That of the message that failed the wire has exactly the bytes accepted
before is the model's choice (log 7; R140 and U7 leave to the sink how many reached it). -/
def Obligations.SinkFailureLeavesAProperPart : Prop :=
  ∀ (s : State) (k : Nat) (rest : List SinkAnswer), s.fbuf.wf = true → s.AtStart →
    s.answers = List.replicate k .accept ++ .fail :: rest →
    k < answersOf (eventModel Config.cfg s.strict s.opr).1 →
    ∃ t, exec (decodeOp s.opr.op) s = .next t ∧
      FailsAfter s (eventModel Config.cfg s.strict s.opr).1 k rest t ∧
      completedWithin k (eventModel Config.cfg s.strict s.opr).1 ≠ (eventModel Config.cfg s.strict s.opr).1

/-- A sink that has not answered a byte (R27, R28, R167): after `k` accepted bytes of a message it holds;
PWENC still runs, the next byte is on the transmit port with `tx_first` and `tx_last` where R28 says, and
nothing is complete. For every message row, from the start of the message. The port is the spec's own
decision D17; `hold` as an answer is the model's choice (log 2). -/
def Obligations.HeldByteStaysOnThePort : Prop :=
  ∀ (s : State) (i : Instr) (k : Nat) (rest : List SinkAnswer), s.fbuf.wf = true → s.AtStart →
    (slotOf i).isSome → (encode i).length ≤ 78 → s.answers = List.replicate k .accept ++ .hold :: rest →
    ∀ hk : k < (encode i).length,
    ∃ t, exec i s = .next t ∧ t.phase = s.phase ∧ t.bi.toNat = k ∧ t.mi = s.mi ∧ t.dpend = false ∧
      t.tx = some { data := (encode i)[k], first := decide (k = 0),
                    last := decide (k + 1 = (encode i).length) } ∧
      t.wire = s.wire ++ (encode i).take k ∧ t.trace = s.trace ∧ t.codes = s.codes ∧ t.err = s.err ∧
      t.frame = encode i ∧ t.answers = rest ∧ t.opr = s.opr ∧ t.strict = s.strict

/-- A message that goes on after its first `bi` bytes were accepted (R19, R28): when the sink accepts,
exactly the bytes from index `bi` on are sent, each once, and the whole message is the event, with the
delay after it. For every message row. Going on step by step is the model's choice (log 6). -/
def Obligations.ResumedMessageSendsOnlyTheRest : Prop :=
  ∀ (s : State) (i : Instr) (sl : Slot), s.fbuf.wf = true → slotOf i = some sl → (encode i).length ≤ 78 →
    s.dpend = false → s.bi.toNat < (encode i).length →
    s.SinkAccepts ((encode i).length - s.bi.toNat + 1) →
    ∃ t, exec i s = .next t ∧ t.wire = s.wire ++ (encode i).drop s.bi.toNat ∧
      t.trace = s.trace ++ .wr (encode i) :: (slotDelay sl).toList.map Event.dly ∧
      t.bi = 0#7 ∧ t.dpend = false ∧ t.opr = s.opr ∧ t.strict = s.strict

/-- A pending delay (R23, R30, R51): when the sink reports it done, the message before it is not sent again
and the next message of the command stands in the buffer, none of it sent; when it does not, the request
stands, the message before it is still in the buffer and nothing is sent; when it fails, the command ends.
For the three delays of R165. The delay port is the spec's own decision D18, the failure D14; `hold` as an
answer is the model's choice (log 2). -/
def Obligations.PendingDelayHoldsTheNextMessage : Prop :=
  ∀ (s : State) (i : Instr) (n : Millis) (nextMessage : List Byte), s.fbuf.wf = true → s.dpend = true →
    ((i = .initM1 ∧ n = 20#7 ∧
        nextMessage = [0xF0#8, 0x00#8, 0x01#8, 0x0A#8, 0x01#8, 0x10#8, 0x05#8, 0x6B#8, 0xF7#8]) ∨
      (i = .initM2 ∧ n = 57#7 ∧ nextMessage = initMsg3 Config.cfg) ∨
      (∃ x, i = .autocenterOffM1 x ∧ n = 70#7 ∧ nextMessage = [0xB5#8, Config.cfg.acReg, 0x7F#8])) →
    (s.SinkAccepts 1 → ∃ t, exec i s = .next t ∧ t.trace = s.trace ++ [.dly n] ∧ t.wire = s.wire ∧
      t.dpend = false ∧ t.dly = none ∧ t.frame = nextMessage ∧ t.bi = s.bi ∧ t.mi = s.mi ∧
      t.phase = s.phase ∧ t.codes = s.codes ∧ t.answers = s.answers.drop 1) ∧
    (∀ rest, s.answers = .hold :: rest → ∃ t, exec i s = .next t ∧ t.trace = s.trace ∧ t.wire = s.wire ∧
      t.dpend = true ∧ t.dly = some n ∧ t.frame = encode i ∧ t.bi = s.bi ∧ t.mi = s.mi ∧
      t.phase = s.phase ∧ t.codes = s.codes ∧ t.answers = rest) ∧
    (∀ rest, s.answers = .fail :: rest → ∃ t, exec i s = .next t ∧
      Ends s [] [] rest codeTransportFailure t)

/-! ### The machine as a whole -/

/-- The event-level function of R36: from the start of a command, when the sink accepts, the machine causes
exactly the events of `eventModel` and ends with its code, for every command and every operand. That the
sink accepts after its listed answers is the model's choice (log 2). -/
def Obligations.CommandsRefineTheEventFunction : Prop :=
  ∀ s : State, s.fbuf.wf = true → s.AtStart →
    s.SinkAccepts (answersOf (eventModel Config.cfg s.strict s.opr).1) →
    ∃ t, exec (decodeOp s.opr.op) s = .next t ∧
      Completes s (eventModel Config.cfg s.strict s.opr).1 (eventModel Config.cfg s.strict s.opr).2 t

/-- Statelessness (R13): two idle machines whose pasts differ in any way (buffer, accumulator, operand registers,
`STATUS.err`, events) and that meet the same host, the same `CFG.strict` and the same sink add the same
events, the same bytes and the same completion codes, after every number of steps. -/
def Obligations.CommandsKeepNoHistory : Prop :=
  ∀ (n : Nat) (s s' t t' : State), s.Inv Config.cfg → s'.Inv Config.cfg →
    s.phase = .idle → s'.phase = .idle →
    s.strict = s'.strict → s.actions = s'.actions → s.answers = s'.answers →
    Sys2Proof.core.run n s = .next t → Sys2Proof.core.run n s' = .next t' →
    ∃ evs bytes codes, t.trace = s.trace ++ evs ∧ t'.trace = s'.trace ++ evs ∧
      t.wire = s.wire ++ bytes ∧ t'.wire = s'.wire ++ bytes ∧
      t.codes = s.codes ++ codes ∧ t'.codes = s'.codes ++ codes ∧
      t.answers = t'.answers ∧ t.phase = t'.phase

/-- Whatever instants the sink lets pass before it answers, as long as it does not fail: a command offered
in `IDLE` runs to its end over several steps with exactly the events, the bytes and the code of the
event-level function (R36, R53, R167). Answers as a list, `hold` among them, are the model's choice (logs 2
and 6). -/
def Obligations.WaitingSinksChangeNoEvent : Prop :=
  ∀ (s : State) (o : Opr), s.Inv Config.cfg → s.phase = .idle → s.actions = [.command o] →
    (∀ a ∈ s.answers, a ≠ .fail) →
    ∃ n t, n ≤ s.answers.length + 5 ∧ Sys2Proof.core.run n s = .next t ∧ t.phase = .idle ∧
      t.trace = s.trace ++ (eventModel Config.cfg s.strict o).1 ∧
      t.wire = s.wire ++ wireOf (eventModel Config.cfg s.strict o).1 ∧
      t.codes = s.codes ++ [(eventModel Config.cfg s.strict o).2] ∧ t.opr = o ∧ t.strict = s.strict

/-- A multi-message command is its messages in order: INIT does what INIT.M1, INIT.M2 and INIT.M3 do one
after the other from message 1 in the buffer, when the sink accepts. Message rows as instructions of their
own are the model's choice (log 6). -/
def Obligations.InitIsItsThreeMessages : Prop :=
  ∀ s : State, s.fbuf.wf = true → s.AtStart → s.SinkAccepts 91 →
    ∃ t₁ t₂ t₃, exec .initM1 s = .next t₁ ∧ exec .initM2 t₁ = .next t₂ ∧
      exec (.initM3 (initMsg3 Config.cfg)) t₂ = .next t₃ ∧ exec .init s = .next t₃

/-- What the model does where the spec has no such state (log 8): a position R19 does not allow and a message
longer than the buffer end in a fault, a running command with no message in the buffer is refused.
`NoStepStopsTheMachine` says that no state of a run is one of these. -/
def Obligations.PositionsOutsideTheSequenceStop : Prop :=
  (∀ (s : State) (i : Instr) (sl : Slot), slotOf i = some sl → (encode i).length ≤ 78 →
    (s.dpend = true ∧ slotDelay sl = none ∨ s.dpend = false ∧ (encode i).length ≤ s.bi.toNat) →
    exec i s = .fault .badPosition) ∧
  (∀ (s : State) (z : List Byte), 78 < z.length → exec (.initM3 z) s = .fault .fbufRange) ∧
  (∀ s : State, s.phase = .run → s.actions = [] →
    (∀ sl, s.slot = some sl → decode Config.cfg (some sl) s.frame = none) →
    step s = .refused .noMessage)

/-- The invariant holds right after reset. The values R34 leaves unspecified are the model's choice (log
5). -/
def Obligations.ResetMeetsTheInvariant : Prop := State.reset.Inv Config.cfg

/-- Every step keeps the invariant: the canonical form of the buffer, the codes and positions the spec allows,
nothing left of a command in `IDLE` (R35), a whole message of the running command in `RUN` (R45). -/
def Obligations.EveryStepKeepsTheInvariant : Prop :=
  ∀ s t : State, s.Inv Config.cfg → step s = .next t → t.Inv Config.cfg

/-- From a state that meets the invariant no step faults and none is refused (R40, R81). -/
def Obligations.NoStepStopsTheMachine : Prop :=
  ∀ s : State, s.Inv Config.cfg → ∃ t, step s = .next t

/-- Whatever the host does and the sink answers, no run from reset stops. Actions and answers as lists are
the model's choice (log 2). -/
def Obligations.NoRunFromResetStops : Prop :=
  ∀ (actions : List HostAction) (answers : List SinkAnswer) (n : Nat),
    ∃ t, Sys2Proof.core.run n { State.reset with actions := actions, answers := answers } = .next t

/-- Every event recorded at the sink is a whole well-formed message or one of the three delays (R44, R45),
kept by every step. This is about the recorded events (`trace`): after a reset or a failing sink in the
middle of a message part of it is on the `wire` and no event is recorded for it (R140, R155). -/
def Obligations.RecordedEventsAreWholeMessages : Prop :=
  ∀ s t : State, s.Inv Config.cfg → (∀ e ∈ s.trace, IsEvent Config.cfg e) → step s = .next t →
    ∀ e ∈ t.trace, IsEvent Config.cfg e

/-- Termination (R167): with the host leaving the ports alone, a running command is complete after at most
as many steps as the sink has answers listed, and four more. That the sink accepts after its listed answers
is the model's choice (log 2), the fairness R167 asks a model to name. -/
def Obligations.RunningCommandsComplete : Prop :=
  ∀ s : State, s.Inv Config.cfg → s.phase = .run → s.actions = [] →
    ∃ n t, n ≤ s.answers.length + 4 ∧ Sys2Proof.core.run n s = .next t ∧ t.phase = .idle ∧
      ∃ code, t.codes = s.codes ++ [code]
end

