-- ==== Sys2Proof/Laws/Encoding.lean ====
section
/-! SUPPORT. The instance of `CFG_CONST` is well formed; the halves of a 14-bit field, the patterns and the
select function each undo what they should. -/

namespace Sys2Proof.Machine

/-! ### The instance of `CFG_CONST` -/

theorem refCfg_wellFormed : Config.refCfg.wellFormed = true := by decide

theorem cfg_wellFormed : Config.cfg.wellFormed = true := by
  unfold Config.cfg
  split
  · assumption
  · exact refCfg_wellFormed

theorem Kind.mem_all (k : Kind) : k ∈ Kind.all := by cases k <;> decide

/-- What R7 asks of an instance, condition by condition. -/
theorem wellFormed_spec (c : CfgConst) (h : c.wellFormed = true) :
    (∀ k, (c.typeCode k).toNat < 128) ∧ (∀ k j, c.typeCode k = c.typeCode j → k = j) ∧
    c.unused7.toNat < 128 ∧ c.perConstA.toNat < 128 ∧ c.perConstB.toNat < 128 ∧
    c.acOnMode.toNat < 128 ∧ c.acOffMode.toNat < 128 ∧ c.acOffMode ≠ c.acOnMode ∧
    c.acReg.toNat < 128 ∧ c.acRwB1.toNat < 128 ∧ c.acRwB2.toNat < 128 ∧
    (c.acRwB1 = 0x7F#8 ∨ c.acRwB2 = 0x7F#8) := by
  simp only [CfgConst.wellFormed, Bool.and_eq_true, decide_eq_true_eq, List.all_eq_true] at h
  obtain ⟨⟨⟨⟨⟨⟨⟨⟨⟨⟨⟨h1, h2⟩, h3⟩, h4⟩, h5⟩, h6⟩, h7⟩, h8⟩, h9⟩, h10⟩, h11⟩, h12⟩ := h
  exact ⟨fun k => h1 k (Kind.mem_all k), fun k j => h2 k (Kind.mem_all k) j (Kind.mem_all j),
    h3, h4, h5, h6, h7, h8, h9, h10, h11, h12⟩

/-! ### The select function (R106) -/

theorem kindOf_some {c : CfgConst} {b : Byte} {k : Kind} (h : kindOf c b = some k) : c.typeCode k = b := by
  simpa using List.find?_some h

theorem kindOf_none {c : CfgConst} {b : Byte} : kindOf c b = none ↔ ∀ k, c.typeCode k ≠ b := by
  simp only [kindOf, List.find?_eq_none, decide_eq_true_eq]
  exact ⟨fun h k => h k (Kind.mem_all k), fun h k _ => h k⟩

/-- `KIND_OF(TYPE_CODE(k)) = k`, by distinctness (R106). -/
theorem kindOf_typeCode (c : CfgConst) (h : c.wellFormed = true) (k : Kind) :
    kindOf c (c.typeCode k) = some k := by
  cases e : kindOf c (c.typeCode k) with
  | none => exact absurd rfl (kindOf_none.mp e k)
  | some j => rw [(wellFormed_spec c h).2.1 j k (kindOf_some e)]

/-! ### Bytes and fields -/

theorem toNat_byteOf (x : Septet) : (byteOf x).toNat = x.toNat := by
  have := x.isLt
  simp only [byteOf, BitVec.toNat_setWidth]; omega

@[simp] theorem byteOf_lt (x : Septet) : (byteOf x).toNat < 128 := by
  rw [toNat_byteOf]; exact x.isLt

@[simp] theorem setWidth_byteOf (x : Septet) : (byteOf x).setWidth 7 = x := by
  apply BitVec.eq_of_toNat_eq
  have := x.isLt
  rw [BitVec.toNat_setWidth, toNat_byteOf]; omega

theorem byteOf_setWidth (b : Byte) (h : b.toNat < 128) : byteOf (b.setWidth 7) = b := by
  apply BitVec.eq_of_toNat_eq
  rw [toNat_byteOf, BitVec.toNat_setWidth]; omega

@[simp] theorem join14_lo7_hi7 (v : Val14) : join14 (lo7 v) (hi7 v) = v := by
  apply BitVec.eq_of_getLsbD_eq
  intro i hi
  simp only [join14, lo7, hi7, BitVec.getLsbD_append, BitVec.getLsbD_extractLsb']
  by_cases h : i < 7
  · simp [h]
  · have h2 : i - 7 < 7 := by omega
    have h3 : 7 + (i - 7) = i := by omega
    simp [h, h2, h3]

@[simp] theorem lo7_join14 (l h : Septet) : lo7 (join14 l h) = l := by
  apply BitVec.eq_of_getLsbD_eq
  intro i hi
  simp only [join14, lo7, BitVec.getLsbD_append, BitVec.getLsbD_extractLsb']
  simp [hi]

@[simp] theorem hi7_join14 (l h : Septet) : hi7 (join14 l h) = h := by
  apply BitVec.eq_of_getLsbD_eq
  intro i hi
  simp only [join14, hi7, BitVec.getLsbD_append, BitVec.getLsbD_extractLsb']
  simp [hi]

/-! ### SPLIT14 and MASK7 as arithmetic -/

theorem toNat_mask7 (b : Nat) : (mask7 b).toNat = b % 128 := by
  have h : b &&& 0x7F = b % 128 := Nat.and_two_pow_sub_one_eq_mod b 7
  simp only [mask7, BitVec.toNat_ofNat, h]; omega

theorem toNat_split14_lo (v : Nat) : (split14 v).1.toNat = v % 128 := toNat_mask7 v

theorem toNat_split14_hi (v : Nat) : (split14 v).2.toNat = v / 128 % 128 := by
  have h : (v >>> 7) &&& 0x7F = v / 128 % 128 := by
    rw [Nat.shiftRight_eq_div_pow]; exact Nat.and_two_pow_sub_one_eq_mod _ 7
  simp only [split14, BitVec.toNat_ofNat, h]; omega

/-! ### Patterns -/

/-- The number of fields of a pattern. -/
def fieldCount : List PatByte → Nat
  | [] => 0
  | .lit _ :: ps => fieldCount ps
  | .field :: ps => fieldCount ps + 1

theorem length_fill : ∀ (ps : List PatByte) (xs : List Septet), (fill ps xs).length = ps.length
  | [], _ => rfl
  | .lit _ :: ps, xs => by simp [fill, length_fill ps xs]
  | .field :: ps, [] => by simp [fill, length_fill ps []]
  | .field :: ps, x :: xs => by simp [fill, length_fill ps xs]

/-- A pattern filled with as many fields as it has fits, with those fields. -/
theorem fits_fill : ∀ (ps : List PatByte) (xs : List Septet), xs.length = fieldCount ps →
    fits ps (fill ps xs) = some xs
  | [], [], _ => rfl
  | [], _ :: _, h => by simp [fieldCount] at h
  | .lit b :: ps, xs, h => by
    simp only [fill, fits, if_true]
    exact fits_fill ps xs h
  | .field :: ps, [], h => by simp [fieldCount] at h
  | .field :: ps, x :: xs, h => by
    simp [fill, fits, fits_fill ps xs (by simpa [fieldCount] using h)]

/-- Bytes that fit a pattern are the pattern filled with their fields. -/
theorem fill_fits : ∀ (ps : List PatByte) (bs : List Byte) (xs : List Septet), fits ps bs = some xs →
    fill ps xs = bs
  | [], [], xs, _ => rfl
  | [], _ :: _, _, h => by simp [fits] at h
  | .lit c :: ps, [], _, h => by simp [fits] at h
  | .field :: ps, [], _, h => by simp [fits] at h
  | .lit c :: ps, b :: bs, xs, h => by
    simp only [fits] at h
    split at h
    · rename_i e
      rw [fill, fill_fits ps bs xs h, e]
    · exact absurd h (by simp)
  | .field :: ps, b :: bs, xs, h => by
    simp only [fits] at h
    split at h
    · rename_i e
      rw [Option.map_eq_some_iff] at h
      obtain ⟨ys, hy, rfl⟩ := h
      rw [fill, fill_fits ps bs ys hy, byteOf_setWidth b e]
    · exact absurd h (by simp)

theorem periodicOf_fields (m : PeriodicMsg) : periodicOf (periodicFields m) = some m := by
  simp [periodicOf, periodicFields]

theorem conditionOf_fields (m : ConditionMsg) : conditionOf (conditionFields m) = some m := by
  simp [conditionOf, conditionFields]

theorem frictionOf_fields (m : FrictionMsg) : frictionOf (frictionFields m) = some m := by
  simp [frictionOf, frictionFields]

theorem periodicFields_of {xs : List Septet} {m : PeriodicMsg} (h : periodicOf xs = some m) :
    periodicFields m = xs := by
  unfold periodicOf at h
  split at h
  · cases h; simp [periodicFields]
  · exact absurd h (by simp)

theorem conditionFields_of {xs : List Septet} {m : ConditionMsg} (h : conditionOf xs = some m) :
    conditionFields m = xs := by
  unfold conditionOf at h
  split at h
  · cases h; simp [conditionFields]
  · exact absurd h (by simp)

theorem frictionFields_of {xs : List Septet} {m : FrictionMsg} (h : frictionOf xs = some m) :
    frictionFields m = xs := by
  unfold frictionOf at h
  split at h
  · cases h; simp [frictionFields]
  · exact absurd h (by simp)

/-- An `SXE-P` frame decodes to the fields it was made of, and nothing else does. -/
theorem decodePeriodic_iff (bs : List Byte) (m : PeriodicMsg) :
    decodePeriodic bs = some m ↔ bs = periodicBytes m := by
  constructor
  · intro h
    obtain ⟨xs, hx, hm⟩ := Option.bind_eq_some_iff.mp h
    rw [periodicBytes, periodicFields_of hm, fill_fits _ _ _ hx]
  · rintro rfl
    rw [decodePeriodic, periodicBytes, fits_fill _ _ rfl]
    exact periodicOf_fields m

theorem decodeCondition_iff (bs : List Byte) (m : ConditionMsg) :
    decodeCondition bs = some m ↔ bs = conditionBytes m := by
  constructor
  · intro h
    obtain ⟨xs, hx, hm⟩ := Option.bind_eq_some_iff.mp h
    rw [conditionBytes, conditionFields_of hm, fill_fits _ _ _ hx]
  · rintro rfl
    rw [decodeCondition, conditionBytes, fits_fill _ _ rfl]
    exact conditionOf_fields m

theorem decodeFriction_iff (bs : List Byte) (m : FrictionMsg) :
    decodeFriction bs = some m ↔ bs = frictionBytes m := by
  constructor
  · intro h
    obtain ⟨xs, hx, hm⟩ := Option.bind_eq_some_iff.mp h
    rw [frictionBytes, frictionFields_of hm, fill_fits _ _ _ hx]
  · rintro rfl
    rw [decodeFriction, frictionBytes, fits_fill _ _ rfl]
    exact frictionOf_fields m

/-! ### The checksum -/

theorem toNat_csum7 (s : List Byte) :
    (csum7 s).toNat = (128 - (s.map BitVec.toNat).sum % 128) % 128 := by
  have h : (0x80 - (s.map BitVec.toNat).sum % 128) &&& 0x7F = (128 - (s.map BitVec.toNat).sum % 128) % 128 :=
    Nat.and_two_pow_sub_one_eq_mod _ 7
  simp only [csum7, BitVec.toNat_ofNat, h]; omega

/-- The accumulator holds the sum modulo 128 of the bytes added to it (R94). -/
theorem toNat_foldl_accAdd : ∀ (s : List Byte) (a : Septet),
    (s.foldl accAdd a).toNat = (a.toNat + (s.map BitVec.toNat).sum) % 128
  | [], a => by have := a.isLt; simp; omega
  | b :: s, a => by
    rw [List.foldl_cons, toNat_foldl_accAdd s (accAdd a b)]
    simp only [accAdd, BitVec.toNat_ofNat, List.map_cons, List.sum_cons]
    omega

end Sys2Proof.Machine
end

