-- ==== Sys2Proof/Laws/Memory.lean ====
section
/-! SUPPORT. The frame buffer: what a read finds after a write, the canonical form that every operation
keeps, and what the loaded or appended frame is. -/

namespace Sys2Proof.Machine

/-! ### One byte -/

theorem Memory.read_put (a : Nat) (b : Byte) (m : Memory) (x : Nat) (h : m.read a = Memory.unwritten) :
    Memory.read (Memory.put a b m) x = if x = a then b else m.read x := by
  unfold Memory.put
  split
  · rename_i hb
    split
    · rename_i hx; rw [hx, h, hb]
    · rfl
  · simp only [Memory.read]
    by_cases hx : x = a
    · simp [hx]
    · have : ¬ a = x := fun h => hx h.symm
      simp [hx, this]

/-- Below the first index of a canonical list nothing is listed. -/
theorem Memory.read_of_lt : ∀ (m : Memory) (n a : Nat), Memory.wfFrom n m = true → a < n →
    m.read a = Memory.unwritten
  | [], _, _, _, _ => rfl
  | (k, b) :: m, n, a, h, ha => by
    simp only [Memory.wfFrom, Bool.and_eq_true, decide_eq_true_eq] at h
    have hk : ¬ k = a := by omega
    simp only [Memory.read, hk, if_false]
    exact Memory.read_of_lt m (k + 1) a h.2 (by omega)

/-- A read after a write, in a canonical buffer: the written byte at its index, the old byte elsewhere. -/
theorem Memory.read_write : ∀ (m : Memory) (n a : Nat) (b : Byte) (x : Nat), Memory.wfFrom n m = true →
    (m.write a b).read x = if x = a then b else m.read x
  | [], _, a, b, x, _ => by
    rw [Memory.write, Memory.read_put a b [] x rfl]
  | (k, d) :: m, n, a, b, x, h => by
    have h' := h
    simp only [Memory.wfFrom, Bool.and_eq_true, decide_eq_true_eq] at h'
    unfold Memory.write
    split
    · rename_i hlt
      refine Memory.read_put a b _ x ?_
      have hk : ¬ k = a := by omega
      simp only [Memory.read, hk, if_false]
      exact Memory.read_of_lt m (k + 1) a h'.2 (by omega)
    · split
      · rename_i _ hak
        rw [Memory.read_put a b m x (Memory.read_of_lt m (k + 1) a h'.2 (by omega))]
        by_cases hx : x = a
        · simp [hx]
        · have : ¬ k = x := by omega
          simp [hx, Memory.read, this]
      · rename_i hlt hne
        simp only [Memory.read]
        by_cases hx : k = x
        · have : ¬ x = a := by omega
          simp [hx, this]
        · simp only [hx, if_false]
          exact Memory.read_write m (k + 1) a b x h'.2

theorem Memory.wfFrom_mono : ∀ (m : Memory) (n n' : Nat), n' ≤ n → Memory.wfFrom n m = true →
    Memory.wfFrom n' m = true
  | [], _, _, _, _ => rfl
  | (k, b) :: m, n, n', hn, h => by
    simp only [Memory.wfFrom, Bool.and_eq_true, decide_eq_true_eq] at h ⊢
    exact ⟨⟨⟨by omega, h.1.1.2⟩, h.1.2⟩, h.2⟩

theorem Memory.wfFrom_put (m : Memory) (n a : Nat) (b : Byte) (hn : n ≤ a) (ha : a < 78)
    (h : Memory.wfFrom (a + 1) m = true) : Memory.wfFrom n (Memory.put a b m) = true := by
  unfold Memory.put
  split
  · exact Memory.wfFrom_mono m (a + 1) n (by omega) h
  · rename_i hb
    simp only [Memory.wfFrom, Bool.and_eq_true, decide_eq_true_eq]
    exact ⟨⟨⟨hn, ha⟩, hb⟩, h⟩

/-- A write inside the buffer keeps the canonical form. -/
theorem Memory.wfFrom_write : ∀ (m : Memory) (n a : Nat) (b : Byte), n ≤ a → a < 78 →
    Memory.wfFrom n m = true → Memory.wfFrom n (m.write a b) = true
  | [], n, a, b, hn, ha, _ => by
    rw [Memory.write]; exact Memory.wfFrom_put [] n a b hn ha rfl
  | (k, d) :: m, n, a, b, hn, ha, h => by
    have h' := h
    simp only [Memory.wfFrom, Bool.and_eq_true, decide_eq_true_eq] at h'
    unfold Memory.write
    split
    · rename_i hlt
      refine Memory.wfFrom_put _ n a b hn ha ?_
      simp only [Memory.wfFrom, Bool.and_eq_true, decide_eq_true_eq]
      exact ⟨⟨⟨by omega, h'.1.1.2⟩, h'.1.2⟩, h'.2⟩
    · split
      · rename_i _ hak
        exact Memory.wfFrom_put m n a b hn ha (by rw [hak]; exact h'.2)
      · simp only [Memory.wfFrom, Bool.and_eq_true, decide_eq_true_eq]
        exact ⟨⟨⟨h'.1.1.1, h'.1.1.2⟩, h'.1.2⟩,
          Memory.wfFrom_write m (k + 1) a b (by omega) ha h'.2⟩

theorem Memory.wf_write (m : Memory) (a : Nat) (b : Byte) (ha : a < 78) (h : m.wf = true) :
    (m.write a b).wf = true :=
  Memory.wfFrom_write m 0 a b (Nat.zero_le a) ha h

/-- Canonical buffers that read the same at every index are equal. -/
theorem Memory.ext : ∀ (m m' : Memory) (n : Nat), Memory.wfFrom n m = true → Memory.wfFrom n m' = true →
    (∀ a, n ≤ a → m.read a = m'.read a) → m = m'
  | [], [], _, _, _, _ => rfl
  | [], (k, b) :: m', n, _, h', h => by
    simp only [Memory.wfFrom, Bool.and_eq_true, decide_eq_true_eq] at h'
    exact absurd (h k h'.1.1.1).symm (by simp [Memory.read]; exact h'.1.2)
  | (k, b) :: m, [], n, h', _, h => by
    simp only [Memory.wfFrom, Bool.and_eq_true, decide_eq_true_eq] at h'
    exact absurd (h k h'.1.1.1) (by simp [Memory.read]; exact h'.1.2)
  | (k, b) :: m, (j, d) :: m', n, hm, hm', h => by
    have w := hm; have w' := hm'
    simp only [Memory.wfFrom, Bool.and_eq_true, decide_eq_true_eq] at w w'
    have hkj : k = j := by
      rcases Nat.lt_trichotomy k j with hlt | he | hlt
      · have := h k w.1.1.1
        rw [Memory.read_of_lt ((j, d) :: m') j k (by simp only [Memory.wfFrom, Bool.and_eq_true, decide_eq_true_eq]; exact ⟨⟨⟨le_refl _, w'.1.1.2⟩, w'.1.2⟩, w'.2⟩) hlt] at this
        simp [Memory.read] at this; exact absurd this w.1.2
      · exact he
      · have := h j w'.1.1.1
        rw [Memory.read_of_lt ((k, b) :: m) k j (by simp only [Memory.wfFrom, Bool.and_eq_true, decide_eq_true_eq]; exact ⟨⟨⟨le_refl _, w.1.1.2⟩, w.1.2⟩, w.2⟩) hlt] at this
        simp [Memory.read] at this; exact absurd this.symm w'.1.2
    subst hkj
    have hb : b = d := by have := h k w.1.1.1; simpa [Memory.read] using this
    subst hb
    congr 1
    apply Memory.ext m m' (k + 1) w.2 w'.2
    intro a ha
    have := h a (by omega)
    have hne : ¬ k = a := by omega
    simpa [Memory.read, hne] using this

/-! ### Consecutive bytes -/

/-- Writing bytes inside the buffer keeps the canonical form. -/
theorem Memory.wf_writeAll : ∀ (bs : List Byte) (m : Memory) (a : Nat), a + bs.length ≤ 78 →
    m.wf = true → (m.writeAll a bs).wf = true
  | [], _, _, _, h => h
  | b :: bs, m, a, hl, h => by
    rw [List.length_cons] at hl
    exact Memory.wf_writeAll bs (m.write a b) (a + 1) (by omega) (Memory.wf_write m a b (by omega) h)

/-- What a read finds after bytes are written from index `a` up. -/
theorem Memory.read_writeAll : ∀ (bs : List Byte) (m : Memory) (a x : Nat), a + bs.length ≤ 78 →
    m.wf = true →
    (m.writeAll a bs).read x = if h : a ≤ x ∧ x < a + bs.length then bs[x - a]'(by omega) else m.read x
  | [], m, a, x, _, _ => by
    simp [Memory.writeAll]
  | b :: bs, m, a, x, hl, h => by
    rw [List.length_cons] at hl
    have hw := Memory.wf_write m a b (by omega) h
    rw [Memory.writeAll, Memory.read_writeAll bs (m.write a b) (a + 1) x (by omega) hw,
      Memory.read_write m 0 a b x h]
    by_cases hx : x = a
    · subst hx
      simp
    · by_cases hin : a + 1 ≤ x ∧ x < a + 1 + bs.length
      · have h2 : a ≤ x ∧ x < a + (b :: bs).length := by rw [List.length_cons]; omega
        rw [dif_pos hin, dif_pos h2]
        have e : x - a = (x - (a + 1)) + 1 := by omega
        simp [e]
      · have h2 : ¬ (a ≤ x ∧ x < a + (b :: bs).length) := by rw [List.length_cons]; omega
        rw [dif_neg hin, dif_neg h2, if_neg hx]

/-- A list is what its indices read. -/
theorem map_range_getElem {α : Type} (bs : List α) (f : Nat → α)
    (h : ∀ i (hi : i < bs.length), f i = bs[i]) : (List.range bs.length).map f = bs := by
  apply List.ext_getElem
  · simp
  · intro i h1 h2
    simp [h i h2]

/-! ### The frame -/

theorem toNat_ofNat7 (n : Nat) (h : n ≤ 78) : (BitVec.ofNat 7 n).toNat = n := by
  simp only [BitVec.toNat_ofNat]; omega

theorem State.frame_length (s : State) : s.frame.length = s.flen.toNat := by
  simp [State.frame]

/-- `fbuf <- s` (R38) of at most 78 bytes. -/
theorem State.load_ok (bs : List Byte) (s : State) (hl : bs.length ≤ 78) :
    s.load bs = .ok { s with fbuf := s.fbuf.writeAll 0 bs, flen := BitVec.ofNat 7 bs.length } := by
  simp [State.load, Config.fbufLen, hl]

/-- The message in the buffer after bytes were written from index 0: those bytes. -/
theorem frame_writeAll (bs : List Byte) (s : State) (hl : bs.length ≤ 78) (h : s.fbuf.wf = true) :
    (List.range (BitVec.ofNat 7 bs.length).toNat).map (s.fbuf.writeAll 0 bs).read = bs := by
  rw [toNat_ofNat7 _ hl]
  apply map_range_getElem
  intro i hi
  rw [Memory.read_writeAll bs s.fbuf 0 i (by omega) h, dif_pos (by omega)]
  simp

/-- Everything a load does: only `fbuf` and `flen` change, the message is what was loaded, the indices
above it read as before, and the canonical form is kept. -/
theorem State.load_spec (bs : List Byte) (s t : State) (h : s.fbuf.wf = true) (ht : s.load bs = .ok t) :
    bs.length ≤ 78 ∧ t = { s with fbuf := t.fbuf, flen := t.flen } ∧ t.flen.toNat = bs.length ∧
    t.frame = bs ∧ t.fbuf.wf = true ∧ ∀ a, bs.length ≤ a → t.fbuf.read a = s.fbuf.read a := by
  by_cases hl : bs.length ≤ 78
  · rw [State.load_ok bs s hl] at ht
    cases ht
    refine ⟨hl, rfl, toNat_ofNat7 _ hl, frame_writeAll bs s hl h,
      Memory.wf_writeAll bs s.fbuf 0 (by omega) h, fun a ha => ?_⟩
    show (s.fbuf.writeAll 0 bs).read a = _
    rw [Memory.read_writeAll bs s.fbuf 0 a (by omega) h, dif_neg (by omega)]
  · simp [State.load, Config.fbufLen, hl] at ht

/-- Loading the message that is in the buffer changes nothing. -/
theorem State.load_same (bs : List Byte) (s : State) (hwf : s.fbuf.wf = true) (hl : bs.length ≤ 78) (hf : s.frame = bs) :
    s.load bs = .ok s := by
  have hload := State.load_ok bs s hl
  rw [hload]
  obtain ⟨-, -, hfl, hfr, hwf', hab⟩ := State.load_spec bs s _ hwf hload
  have hlen : s.flen.toNat = bs.length := by rw [← hf, State.frame_length]
  have h1 : BitVec.ofNat 7 bs.length = s.flen := by rw [← hlen]; simp
  have h2 : s.fbuf.writeAll 0 bs = s.fbuf := by
    apply Memory.ext _ _ 0 hwf' hwf
    intro a _
    by_cases h : bs.length ≤ a
    · exact hab a h
    · rw [Memory.read_writeAll bs s.fbuf 0 a (by omega) hwf, dif_pos (by omega)]
      subst hf
      simp [State.frame]
  rw [h1, h2]

/-- One append (R39) below the end of the buffer. -/
theorem State.append_ok (b : Byte) (s : State) (hl : s.flen.toNat < 78) :
    s.append b = .ok { s with fbuf := s.fbuf.write s.flen.toNat b, flen := s.flen + 1#7 } := by
  simp [State.append, Config.fbufLen, hl]

theorem toNat_succ7 (x : BitVec 7) (h : x.toNat < 78) : (x + 1#7).toNat = x.toNat + 1 := by
  rw [BitVec.toNat_add]; simp; omega

/-- Appending one byte adds it to the message. -/
theorem State.append_frame (b : Byte) (s : State) (hl : s.flen.toNat < 78) (h : s.fbuf.wf = true) :
    (List.range (s.flen + 1#7).toNat).map (s.fbuf.write s.flen.toNat b).read = s.frame ++ [b] := by
  rw [toNat_succ7 _ hl, List.range_succ, List.map_append]
  congr 1
  · unfold State.frame
    apply List.map_congr_left
    intro i hi
    rw [List.mem_range] at hi
    rw [Memory.read_write s.fbuf 0 _ b i h, if_neg (by omega)]
  · simp [Memory.read_write s.fbuf 0 _ b _ h]

/-- Everything a run of appends does, when the buffer has room: only `fbuf` and `flen` change, the message
is the old one and the bytes after it, the indices past its new end read as before, and the canonical
form is kept. -/
theorem State.appendAll_spec : ∀ (bs : List Byte) (s : State), s.flen.toNat + bs.length ≤ 78 →
    s.fbuf.wf = true →
    ∃ t, s.appendAll bs = .ok t ∧ t = { s with fbuf := t.fbuf, flen := t.flen } ∧
      t.flen.toNat = s.flen.toNat + bs.length ∧ t.frame = s.frame ++ bs ∧ t.fbuf.wf = true ∧
      ∀ a, s.flen.toNat + bs.length ≤ a → t.fbuf.read a = s.fbuf.read a
  | [], s, _, h => ⟨s, rfl, rfl, by simp, by simp, h, fun _ _ => rfl⟩
  | b :: bs, s, hl, h => by
    rw [List.length_cons] at hl
    have hlt : s.flen.toNat < 78 := by omega
    obtain ⟨t, ht, hts, hlen, hfr, hwf, hab⟩ := State.appendAll_spec bs
      { s with fbuf := s.fbuf.write s.flen.toNat b, flen := s.flen + 1#7 }
      (by simp only [toNat_succ7 _ hlt]; omega) (Memory.wf_write _ _ b hlt h)
    simp only [toNat_succ7 _ hlt] at hlen hab
    refine ⟨t, ?_, ?_, by rw [hlen, List.length_cons]; omega, ?_, hwf, fun a ha => ?_⟩
    · rw [State.appendAll, State.append_ok b s hlt]; exact ht
    · exact hts
    · rw [hfr]
      show (List.range (s.flen + 1#7).toNat).map (s.fbuf.write s.flen.toNat b).read ++ bs = _
      rw [State.append_frame b s hlt h]; simp
    · rw [List.length_cons] at ha
      rw [hab a (by omega), Memory.read_write s.fbuf 0 _ b a h, if_neg (by omega)]

end Sys2Proof.Machine
end

