-- ==== Sys2Proof/Laws/State.lean ====
section
/-! SUPPORT. What each update of the state does to each field, so that no later proof unfolds a record
update. -/

namespace Sys2Proof.Machine

/-! ### Completion (R141, R142). -/

@[simp] theorem State.complete_opr (code : Code) (s : State) :
    (s.complete code).opr = s.opr := rfl
@[simp] theorem State.complete_phase (code : Code) (s : State) :
    (s.complete code).phase = .idle := rfl
@[simp] theorem State.complete_strict (code : Code) (s : State) :
    (s.complete code).strict = s.strict := rfl
@[simp] theorem State.complete_mi (code : Code) (s : State) : (s.complete code).mi = 0#3 := rfl
@[simp] theorem State.complete_bi (code : Code) (s : State) : (s.complete code).bi = 0#7 := rfl
@[simp] theorem State.complete_err (code : Code) (s : State) : (s.complete code).err = code := rfl
@[simp] theorem State.complete_fbuf (code : Code) (s : State) :
    (s.complete code).fbuf = s.fbuf := rfl
@[simp] theorem State.complete_flen (code : Code) (s : State) :
    (s.complete code).flen = s.flen := rfl
@[simp] theorem State.complete_acc (code : Code) (s : State) :
    (s.complete code).acc = s.acc := rfl
@[simp] theorem State.complete_dpend (code : Code) (s : State) :
    (s.complete code).dpend = false := rfl
@[simp] theorem State.complete_tx (code : Code) (s : State) : (s.complete code).tx = none := rfl
@[simp] theorem State.complete_dly (code : Code) (s : State) : (s.complete code).dly = none := rfl
@[simp] theorem State.complete_done (code : Code) (s : State) :
    (s.complete code).done = some code := rfl
@[simp] theorem State.complete_actions (code : Code) (s : State) :
    (s.complete code).actions = s.actions := rfl
@[simp] theorem State.complete_codes (code : Code) (s : State) :
    (s.complete code).codes = s.codes ++ [code] := rfl
@[simp] theorem State.complete_reads (code : Code) (s : State) :
    (s.complete code).reads = s.reads := rfl
@[simp] theorem State.complete_answers (code : Code) (s : State) :
    (s.complete code).answers = s.answers := rfl
@[simp] theorem State.complete_wire (code : Code) (s : State) :
    (s.complete code).wire = s.wire := rfl
@[simp] theorem State.complete_trace (code : Code) (s : State) :
    (s.complete code).trace = s.trace := rfl

@[simp] theorem State.complete_frame (code : Code) (s : State) : (s.complete code).frame = s.frame := rfl

/-! ### Acceptance (R26). -/

@[simp] theorem State.accept_opr (o : Opr) (s : State) : (s.accept o).opr = o := rfl
@[simp] theorem State.accept_phase (o : Opr) (s : State) : (s.accept o).phase = .run := rfl
@[simp] theorem State.accept_strict (o : Opr) (s : State) : (s.accept o).strict = s.strict := rfl
@[simp] theorem State.accept_mi (o : Opr) (s : State) : (s.accept o).mi = s.mi := rfl
@[simp] theorem State.accept_bi (o : Opr) (s : State) : (s.accept o).bi = s.bi := rfl
@[simp] theorem State.accept_err (o : Opr) (s : State) : (s.accept o).err = s.err := rfl
@[simp] theorem State.accept_fbuf (o : Opr) (s : State) : (s.accept o).fbuf = s.fbuf := rfl
@[simp] theorem State.accept_flen (o : Opr) (s : State) : (s.accept o).flen = s.flen := rfl
@[simp] theorem State.accept_acc (o : Opr) (s : State) : (s.accept o).acc = s.acc := rfl
@[simp] theorem State.accept_dpend (o : Opr) (s : State) : (s.accept o).dpend = s.dpend := rfl
@[simp] theorem State.accept_tx (o : Opr) (s : State) : (s.accept o).tx = s.tx := rfl
@[simp] theorem State.accept_dly (o : Opr) (s : State) : (s.accept o).dly = s.dly := rfl
@[simp] theorem State.accept_done (o : Opr) (s : State) : (s.accept o).done = s.done := rfl
@[simp] theorem State.accept_actions (o : Opr) (s : State) :
    (s.accept o).actions = s.actions := rfl
@[simp] theorem State.accept_codes (o : Opr) (s : State) : (s.accept o).codes = s.codes := rfl
@[simp] theorem State.accept_reads (o : Opr) (s : State) : (s.accept o).reads = s.reads := rfl
@[simp] theorem State.accept_answers (o : Opr) (s : State) :
    (s.accept o).answers = s.answers := rfl
@[simp] theorem State.accept_wire (o : Opr) (s : State) : (s.accept o).wire = s.wire := rfl
@[simp] theorem State.accept_trace (o : Opr) (s : State) : (s.accept o).trace = s.trace := rfl

@[simp] theorem State.accept_frame (o : Opr) (s : State) : (s.accept o).frame = s.frame := rfl

/-! ### A byte accepted by the sink (R19, R27). -/

@[simp] theorem State.byteAccepted_opr (b : Byte) (s : State) :
    (s.byteAccepted b).opr = s.opr := rfl
@[simp] theorem State.byteAccepted_phase (b : Byte) (s : State) :
    (s.byteAccepted b).phase = s.phase := rfl
@[simp] theorem State.byteAccepted_strict (b : Byte) (s : State) :
    (s.byteAccepted b).strict = s.strict := rfl
@[simp] theorem State.byteAccepted_mi (b : Byte) (s : State) : (s.byteAccepted b).mi = s.mi := rfl
@[simp] theorem State.byteAccepted_bi (b : Byte) (s : State) :
    (s.byteAccepted b).bi = s.bi + 1#7 := rfl
@[simp] theorem State.byteAccepted_err (b : Byte) (s : State) :
    (s.byteAccepted b).err = s.err := rfl
@[simp] theorem State.byteAccepted_fbuf (b : Byte) (s : State) :
    (s.byteAccepted b).fbuf = s.fbuf := rfl
@[simp] theorem State.byteAccepted_flen (b : Byte) (s : State) :
    (s.byteAccepted b).flen = s.flen := rfl
@[simp] theorem State.byteAccepted_acc (b : Byte) (s : State) :
    (s.byteAccepted b).acc = s.acc := rfl
@[simp] theorem State.byteAccepted_dpend (b : Byte) (s : State) :
    (s.byteAccepted b).dpend = s.dpend := rfl
@[simp] theorem State.byteAccepted_tx (b : Byte) (s : State) : (s.byteAccepted b).tx = none := rfl
@[simp] theorem State.byteAccepted_dly (b : Byte) (s : State) :
    (s.byteAccepted b).dly = s.dly := rfl
@[simp] theorem State.byteAccepted_done (b : Byte) (s : State) :
    (s.byteAccepted b).done = s.done := rfl
@[simp] theorem State.byteAccepted_actions (b : Byte) (s : State) :
    (s.byteAccepted b).actions = s.actions := rfl
@[simp] theorem State.byteAccepted_codes (b : Byte) (s : State) :
    (s.byteAccepted b).codes = s.codes := rfl
@[simp] theorem State.byteAccepted_reads (b : Byte) (s : State) :
    (s.byteAccepted b).reads = s.reads := rfl
@[simp] theorem State.byteAccepted_answers (b : Byte) (s : State) :
    (s.byteAccepted b).answers = s.answers := rfl
@[simp] theorem State.byteAccepted_wire (b : Byte) (s : State) :
    (s.byteAccepted b).wire = s.wire ++ [b] := rfl
@[simp] theorem State.byteAccepted_trace (b : Byte) (s : State) :
    (s.byteAccepted b).trace = s.trace := rfl

@[simp] theorem State.byteAccepted_frame (b : Byte) (s : State) : (s.byteAccepted b).frame = s.frame := rfl

/-! ### The end of a message (R19, R43). -/

@[simp] theorem State.messageSent_opr (s : State) : s.messageSent.opr = s.opr := rfl
@[simp] theorem State.messageSent_phase (s : State) : s.messageSent.phase = s.phase := rfl
@[simp] theorem State.messageSent_strict (s : State) : s.messageSent.strict = s.strict := rfl
@[simp] theorem State.messageSent_mi (s : State) : s.messageSent.mi = s.mi + 1#3 := rfl
@[simp] theorem State.messageSent_bi (s : State) : s.messageSent.bi = 0#7 := rfl
@[simp] theorem State.messageSent_err (s : State) : s.messageSent.err = s.err := rfl
@[simp] theorem State.messageSent_fbuf (s : State) : s.messageSent.fbuf = s.fbuf := rfl
@[simp] theorem State.messageSent_flen (s : State) : s.messageSent.flen = s.flen := rfl
@[simp] theorem State.messageSent_acc (s : State) : s.messageSent.acc = s.acc := rfl
@[simp] theorem State.messageSent_dpend (s : State) : s.messageSent.dpend = s.dpend := rfl
@[simp] theorem State.messageSent_tx (s : State) : s.messageSent.tx = s.tx := rfl
@[simp] theorem State.messageSent_dly (s : State) : s.messageSent.dly = s.dly := rfl
@[simp] theorem State.messageSent_done (s : State) : s.messageSent.done = s.done := rfl
@[simp] theorem State.messageSent_actions (s : State) : s.messageSent.actions = s.actions := rfl
@[simp] theorem State.messageSent_codes (s : State) : s.messageSent.codes = s.codes := rfl
@[simp] theorem State.messageSent_reads (s : State) : s.messageSent.reads = s.reads := rfl
@[simp] theorem State.messageSent_answers (s : State) : s.messageSent.answers = s.answers := rfl
@[simp] theorem State.messageSent_wire (s : State) : s.messageSent.wire = s.wire := rfl
@[simp] theorem State.messageSent_trace (s : State) :
    s.messageSent.trace = s.trace ++ [.wr s.frame] := rfl

@[simp] theorem State.messageSent_frame (s : State) : s.messageSent.frame = s.frame := rfl

/-! ### The checksum sum (R94). -/

@[simp] theorem State.sumFrom_opr (n : Nat) (s : State) : (s.sumFrom n).opr = s.opr := rfl
@[simp] theorem State.sumFrom_phase (n : Nat) (s : State) : (s.sumFrom n).phase = s.phase := rfl
@[simp] theorem State.sumFrom_strict (n : Nat) (s : State) :
    (s.sumFrom n).strict = s.strict := rfl
@[simp] theorem State.sumFrom_mi (n : Nat) (s : State) : (s.sumFrom n).mi = s.mi := rfl
@[simp] theorem State.sumFrom_bi (n : Nat) (s : State) : (s.sumFrom n).bi = s.bi := rfl
@[simp] theorem State.sumFrom_err (n : Nat) (s : State) : (s.sumFrom n).err = s.err := rfl
@[simp] theorem State.sumFrom_fbuf (n : Nat) (s : State) : (s.sumFrom n).fbuf = s.fbuf := rfl
@[simp] theorem State.sumFrom_flen (n : Nat) (s : State) : (s.sumFrom n).flen = s.flen := rfl
@[simp] theorem State.sumFrom_acc (n : Nat) (s : State) :
    (s.sumFrom n).acc = (s.frame.drop n).foldl accAdd 0#7 := rfl
@[simp] theorem State.sumFrom_dpend (n : Nat) (s : State) : (s.sumFrom n).dpend = s.dpend := rfl
@[simp] theorem State.sumFrom_tx (n : Nat) (s : State) : (s.sumFrom n).tx = s.tx := rfl
@[simp] theorem State.sumFrom_dly (n : Nat) (s : State) : (s.sumFrom n).dly = s.dly := rfl
@[simp] theorem State.sumFrom_done (n : Nat) (s : State) : (s.sumFrom n).done = s.done := rfl
@[simp] theorem State.sumFrom_actions (n : Nat) (s : State) :
    (s.sumFrom n).actions = s.actions := rfl
@[simp] theorem State.sumFrom_codes (n : Nat) (s : State) : (s.sumFrom n).codes = s.codes := rfl
@[simp] theorem State.sumFrom_reads (n : Nat) (s : State) : (s.sumFrom n).reads = s.reads := rfl
@[simp] theorem State.sumFrom_answers (n : Nat) (s : State) :
    (s.sumFrom n).answers = s.answers := rfl
@[simp] theorem State.sumFrom_wire (n : Nat) (s : State) : (s.sumFrom n).wire = s.wire := rfl
@[simp] theorem State.sumFrom_trace (n : Nat) (s : State) : (s.sumFrom n).trace = s.trace := rfl

@[simp] theorem State.sumFrom_frame (n : Nat) (s : State) : (s.sumFrom n).frame = s.frame := rfl

/-! ### The reset input (R153, R155). -/

@[simp] theorem State.resetInput_opr (s : State) : s.resetInput.opr = Opr.zero := rfl
@[simp] theorem State.resetInput_phase (s : State) : s.resetInput.phase = .idle := rfl
@[simp] theorem State.resetInput_strict (s : State) : s.resetInput.strict = false := rfl
@[simp] theorem State.resetInput_mi (s : State) : s.resetInput.mi = 0#3 := rfl
@[simp] theorem State.resetInput_bi (s : State) : s.resetInput.bi = 0#7 := rfl
@[simp] theorem State.resetInput_err (s : State) : s.resetInput.err = 0#3 := rfl
@[simp] theorem State.resetInput_fbuf (s : State) : s.resetInput.fbuf = [] := rfl
@[simp] theorem State.resetInput_flen (s : State) : s.resetInput.flen = 0#7 := rfl
@[simp] theorem State.resetInput_acc (s : State) : s.resetInput.acc = 0#7 := rfl
@[simp] theorem State.resetInput_dpend (s : State) : s.resetInput.dpend = false := rfl
@[simp] theorem State.resetInput_tx (s : State) : s.resetInput.tx = none := rfl
@[simp] theorem State.resetInput_dly (s : State) : s.resetInput.dly = none := rfl
@[simp] theorem State.resetInput_done (s : State) : s.resetInput.done = none := rfl
@[simp] theorem State.resetInput_actions (s : State) : s.resetInput.actions = s.actions := rfl
@[simp] theorem State.resetInput_codes (s : State) : s.resetInput.codes = s.codes := rfl
@[simp] theorem State.resetInput_reads (s : State) : s.resetInput.reads = s.reads := rfl
@[simp] theorem State.resetInput_answers (s : State) : s.resetInput.answers = s.answers := rfl
@[simp] theorem State.resetInput_wire (s : State) : s.resetInput.wire = s.wire := rfl
@[simp] theorem State.resetInput_trace (s : State) : s.resetInput.trace = s.trace := rfl

end Sys2Proof.Machine
end

