-- ==== Sys2Proof/Laws/Sink.lean ====
section
/-! SUPPORT. The transactions with the Transport Sink: for each, everything it can do, what it does when the
sink accepts, and what it does when the sink fails after `k` accepted answers. -/

namespace Sys2Proof.Machine

/-- `as` is what is left of the answers `l` after at least one was taken. -/
def Took (l as : List SinkAnswer) : Prop := as <:+ l ∧ as.length < l.length

/-- `as` is what is left of the answers `l` after a failing one was taken. -/
def TookFail (l as : List SinkAnswer) : Prop := Took l as ∧ .fail ∈ l

theorem Took.trans {l m as : List SinkAnswer} (h : Took m as) (h' : m <:+ l) : Took l as :=
  ⟨h.1.trans h', lt_of_lt_of_le h.2 h'.length_le⟩

theorem TookFail.trans {l m as : List SinkAnswer} (h : TookFail m as) (h' : m <:+ l) : TookFail l as :=
  ⟨h.1.trans h', h'.subset h.2⟩

theorem took_cons (a : SinkAnswer) (as : List SinkAnswer) : Took (a :: as) as :=
  ⟨List.suffix_cons a as, by simp⟩

/-! ### One byte -/

theorem sendByte_accept (b : Byte) (last : Bool) (s : State) (h : s.SinkAccepts 1) :
    sendByte b last s =
      .more { s with answers := s.answers.drop 1, tx := none, wire := s.wire ++ [b], bi := s.bi + 1#7 } := by
  unfold sendByte
  split
  · rename_i e; simp [State.byteAccepted, e]
  · rename_i e; simp [State.byteAccepted, e]
  · rename_i e; exact absurd (h .hold (by simp [e])) (by simp)
  · rename_i e; exact absurd (h .fail (by simp [e])) (by simp)

/-- The first answers of a list that accepts `m + n` times. -/
theorem accepts_left {l : List SinkAnswer} {m n : Nat} (h : ∀ a ∈ l.take (m + n), a = .accept) :
    ∀ a ∈ l.take m, a = .accept := fun a ha =>
  h a (List.take_subset_take_left l (Nat.le_add_right m n) ha)

/-- The answers after the first `m` of a list that accepts `m + n` times. -/
theorem accepts_right {l : List SinkAnswer} {m n : Nat} (h : ∀ a ∈ l.take (m + n), a = .accept) :
    ∀ a ∈ (l.drop m).take n, a = .accept := by
  intro a ha
  rw [List.take_drop] at ha
  exact h a (List.mem_of_mem_drop ha)

theorem ofNat7_succ (x : BitVec 7) (n : Nat) :
    x + 1#7 + BitVec.ofNat 7 n = x + BitVec.ofNat 7 (n + 1) := by
  rw [BitVec.add_assoc]; congr 1; rw [Nat.add_comm, BitVec.ofNat_add]

/-! ### The bytes of a message -/

/-- Everything handing bytes to the sink can do: all are accepted; or the sink holds after `k` of them,
the next byte on the port; or it fails after `k` of them and the command is complete. What stops it takes
an answer. -/
theorem sendBytes_cases : ∀ (bs : List Byte) (s : State),
    (∃ as, as <:+ s.answers ∧ sendBytes bs s =
        .more { s with answers := as, wire := s.wire ++ bs, tx := if bs.isEmpty then s.tx else none,
                       bi := s.bi + BitVec.ofNat 7 bs.length }) ∨
    (∃ k as beat, k < bs.length ∧ Took s.answers as ∧ sendBytes bs s =
        .stop { s with answers := as, wire := s.wire ++ bs.take k, tx := some beat,
                       bi := s.bi + BitVec.ofNat 7 k }) ∨
    (∃ k as, k < bs.length ∧ TookFail s.answers as ∧ sendBytes bs s =
        .stop (State.complete codeTransportFailure { s with answers := as, wire := s.wire ++ bs.take k }))
  | [], s => Or.inl ⟨s.answers, List.suffix_refl _, by simp [sendBytes]⟩
  | b :: bs, s => by
    have step : ∀ as, sendByte b bs.isEmpty s = .more (State.byteAccepted b { s with answers := as }) →
        sendBytes (b :: bs) s = sendBytes bs (State.byteAccepted b { s with answers := as }) := by
      intro as hb; rw [sendBytes, hb]
    have acc : ∀ as, as <:+ s.answers → sendByte b bs.isEmpty s = .more (State.byteAccepted b { s with answers := as }) →
        (∃ as, as <:+ s.answers ∧ sendBytes (b :: bs) s =
          .more { s with answers := as, wire := s.wire ++ b :: bs, tx := none,
                         bi := s.bi + BitVec.ofNat 7 (bs.length + 1) }) ∨
        (∃ k as beat, k < bs.length + 1 ∧ Took s.answers as ∧ sendBytes (b :: bs) s =
          .stop { s with answers := as, wire := s.wire ++ (b :: bs).take k, tx := some beat,
                         bi := s.bi + BitVec.ofNat 7 k }) ∨
        (∃ k as, k < bs.length + 1 ∧ TookFail s.answers as ∧ sendBytes (b :: bs) s =
          .stop (State.complete codeTransportFailure
            { s with answers := as, wire := s.wire ++ (b :: bs).take k })) := by
      intro as hl hb
      rw [step as hb]
      rcases sendBytes_cases bs (State.byteAccepted b { s with answers := as }) with
        ⟨as', hl', e⟩ | ⟨k, as', beat, hk, hl', e⟩ | ⟨k, as', hk, hl', e⟩
      · refine Or.inl ⟨as', hl'.trans hl, ?_⟩
        rw [e]; simp [State.byteAccepted, ofNat7_succ]
      · refine Or.inr (Or.inl ⟨k + 1, as', beat, by omega, hl'.trans hl, ?_⟩)
        rw [e]; simp [State.byteAccepted, ofNat7_succ]
      · refine Or.inr (Or.inr ⟨k + 1, as', by omega, hl'.trans hl, ?_⟩)
        rw [e]; simp [State.byteAccepted, State.complete]
    obtain ⟨l, e⟩ : ∃ l, s.answers = l := ⟨_, rfl⟩
    match l, e with
    | [], e =>
      refine acc s.answers (List.suffix_refl _) ?_
      unfold sendByte
      split
      · rfl
      all_goals simp_all
    | .accept :: as, e => exact acc as (by rw [e]; exact List.suffix_cons _ _) (by simp [sendByte, e])
    | .hold :: as, e =>
      refine Or.inr (Or.inl ⟨0, as, { data := b, first := decide (s.bi = 0#7), last := bs.isEmpty }, by simp,
        by rw [e]; exact took_cons _ _, ?_⟩)
      simp [sendBytes, sendByte, e]
    | .fail :: as, e =>
      refine Or.inr (Or.inr ⟨0, as, by simp, by rw [e]; exact ⟨took_cons _ _, by simp⟩, ?_⟩)
      simp [sendBytes, sendByte, e]

/-- When the sink accepts every byte, all of them are on the wire. -/
theorem sendBytes_accept : ∀ (bs : List Byte) (s : State), s.SinkAccepts bs.length →
    sendBytes bs s =
      .more { s with answers := s.answers.drop bs.length, wire := s.wire ++ bs,
                     tx := if bs.isEmpty then s.tx else none,
                     bi := s.bi + BitVec.ofNat 7 bs.length }
  | [], s, _ => by simp [sendBytes]
  | b :: bs, s, h => by
    rw [State.SinkAccepts, List.length_cons, Nat.add_comm] at h
    have h' : State.SinkAccepts
        { s with answers := s.answers.drop 1, tx := none, wire := s.wire ++ [b], bi := s.bi + 1#7 }
        bs.length := accepts_right h
    rw [sendBytes, sendByte_accept b _ s (accepts_left h)]
    simp only
    rw [sendBytes_accept bs _ h']
    simp [ofNat7_succ, Nat.add_comm]

/-- When the sink accepts `k` bytes and fails at the next, those `k` are on the wire and the command is
complete with `TransportFailure` (R140). -/
theorem sendBytes_fail : ∀ (bs : List Byte) (s : State) (k : Nat) (rest : List SinkAnswer),
    k < bs.length → s.answers = List.replicate k .accept ++ .fail :: rest →
    sendBytes bs s =
      .stop (State.complete codeTransportFailure { s with answers := rest, wire := s.wire ++ bs.take k })
  | [], _, _, _, hk, _ => absurd hk (by simp)
  | b :: bs, s, 0, rest, _, h => by
    simp [sendBytes, sendByte, h]
  | b :: bs, s, k + 1, rest, hk, h => by
    rw [List.replicate_succ, List.cons_append] at h
    rw [sendBytes, sendByte]
    simp only [h]
    rw [sendBytes_fail bs _ k rest (by simpa using hk) rfl]
    simp [State.byteAccepted, State.complete]

/-! ### `WR` -/

theorem writeMessage_eq (s : State) (h : s.bi.toNat < s.flen.toNat) (hl : s.flen.toNat ≤ 78) :
    writeMessage s =
      match sendBytes (s.frame.drop s.bi.toNat) s with
      | .more t => .ok (.more t.messageSent)
      | .stop t => .ok (.stop t) := by
  unfold writeMessage
  exact if_pos ⟨h, hl⟩

theorem drop_frame_ne (s : State) (h : s.bi.toNat < s.flen.toNat) :
    (s.frame.drop s.bi.toNat).isEmpty = false := by
  rw [List.isEmpty_eq_false_iff, ← List.length_pos_iff, List.length_drop, State.frame_length]; omega

/-- Everything a `WR` can do: the message is sent; or the sink holds after `k` more bytes of it; or it fails
after `k` more bytes and the command is complete. -/
theorem writeMessage_cases (s : State) (h : s.bi.toNat < s.flen.toNat) (hl : s.flen.toNat ≤ 78) :
    (∃ as, as <:+ s.answers ∧ writeMessage s =
        .ok (.more { s with answers := as, wire := s.wire ++ s.frame.drop s.bi.toNat, tx := none,
                            trace := s.trace ++ [.wr s.frame], mi := s.mi + 1#3, bi := 0#7 })) ∨
    (∃ k as beat, s.bi.toNat + k < s.flen.toNat ∧ Took s.answers as ∧ writeMessage s =
        .ok (.stop { s with answers := as, wire := s.wire ++ (s.frame.drop s.bi.toNat).take k,
                            tx := some beat, bi := s.bi + BitVec.ofNat 7 k })) ∨
    (∃ k as, s.bi.toNat + k < s.flen.toNat ∧ TookFail s.answers as ∧ writeMessage s =
        .ok (.stop (State.complete codeTransportFailure
          { s with answers := as, wire := s.wire ++ (s.frame.drop s.bi.toNat).take k }))) := by
  have hne := drop_frame_ne s h
  have hlen : (s.frame.drop s.bi.toNat).length = s.flen.toNat - s.bi.toNat := by
    rw [List.length_drop, State.frame_length]
  rw [writeMessage_eq s h hl]
  rcases sendBytes_cases (s.frame.drop s.bi.toNat) s with
    ⟨as, ha, e⟩ | ⟨k, as, beat, hk, ha, e⟩ | ⟨k, as, hk, ha, e⟩
  · refine Or.inl ⟨as, ha, ?_⟩
    rw [e]; simp [State.messageSent, hne]; rfl
  · refine Or.inr (Or.inl ⟨k, as, beat, by omega, ha, ?_⟩)
    rw [e]
  · refine Or.inr (Or.inr ⟨k, as, by omega, ha, ?_⟩)
    rw [e]

/-- A whole `WR` that the sink accepts. -/
theorem writeMessage_accept (s : State) (hb : s.bi = 0#7) (hp : 0 < s.flen.toNat) (hl : s.flen.toNat ≤ 78)
    (ha : s.SinkAccepts s.flen.toNat) :
    writeMessage s =
      .ok (.more { s with answers := s.answers.drop s.flen.toNat, wire := s.wire ++ s.frame, tx := none,
                          trace := s.trace ++ [.wr s.frame], mi := s.mi + 1#3, bi := 0#7 }) := by
  have hd : s.frame.drop s.bi.toNat = s.frame := by simp [hb]
  have hne := drop_frame_ne s (by simpa [hb] using hp)
  rw [hd] at hne
  rw [writeMessage_eq s (by simpa [hb] using hp) hl, hd,
    sendBytes_accept s.frame s (by rw [State.frame_length]; exact ha)]
  simp [State.messageSent, hne, State.frame_length]; rfl

/-- A whole `WR` that the sink cuts short after `k` bytes. -/
theorem writeMessage_fail (s : State) (hb : s.bi = 0#7) (k : Nat) (rest : List SinkAnswer)
    (hk : k < s.flen.toNat) (hl : s.flen.toNat ≤ 78)
    (ha : s.answers = List.replicate k .accept ++ .fail :: rest) :
    writeMessage s =
      .ok (.stop (State.complete codeTransportFailure
        { s with answers := rest, wire := s.wire ++ s.frame.take k })) := by
  have hd : s.frame.drop s.bi.toNat = s.frame := by simp [hb]
  rw [writeMessage_eq s (by simp [hb]; omega) hl, hd,
    sendBytes_fail s.frame s k rest (by rw [State.frame_length]; exact hk) ha]

/-! ### `DLY` -/

/-- Everything a `DLY` can do: it is done; or the sink has not answered and the request stands; or it fails
and the command is complete. -/
theorem delay_cases (n : Millis) (s : State) :
    (∃ as, as <:+ s.answers ∧ delay n s =
        .more { s with answers := as, dly := none, dpend := false, trace := s.trace ++ [.dly n] }) ∨
    (∃ as, Took s.answers as ∧ delay n s = .stop { s with answers := as, dly := some n, dpend := true }) ∨
    (∃ as, TookFail s.answers as ∧ delay n s =
        .stop (State.complete codeTransportFailure { s with answers := as })) := by
  unfold delay
  split
  · exact Or.inl ⟨s.answers, List.suffix_refl _, rfl⟩
  · rename_i e; exact Or.inl ⟨_, by rw [e]; exact List.suffix_cons _ _, rfl⟩
  · rename_i e; exact Or.inr (Or.inl ⟨_, by rw [e]; exact took_cons _ _, rfl⟩)
  · rename_i e; exact Or.inr (Or.inr ⟨_, by rw [e]; exact ⟨took_cons _ _, by simp⟩, rfl⟩)

theorem delay_accept (n : Millis) (s : State) (h : s.SinkAccepts 1) :
    delay n s = .more { s with answers := s.answers.drop 1, dly := none, dpend := false,
                               trace := s.trace ++ [.dly n] } := by
  unfold delay
  split
  · rename_i e; simp [e]
  · rename_i e; simp [e]
  · rename_i e; exact absurd (h .hold (by simp [e])) (by simp)
  · rename_i e; exact absurd (h .fail (by simp [e])) (by simp)

end Sys2Proof.Machine
end

