-- ==== Sys2Proof/Laws/Sequence.lean ====
section
/-! SUPPORT. A message with its delay, and a command's messages in order: everything they can do, what they
do when the sink accepts, and what they do when it fails. -/

namespace Sys2Proof.Machine

/-- The events of a message of a command (R78). -/
def Item.events (it : Item) : List Event :=
  .wr it.bytes :: (match it.delay with | none => [] | some n => [.dly n])

/-- The events of a command's messages in order (R50). -/
def itemsEvents (its : List Item) : List Event := its.flatMap Item.events

theorem wireOf_append (a b : List Event) : wireOf (a ++ b) = wireOf a ++ wireOf b := by
  simp [wireOf]

theorem answersOf_append (a b : List Event) : answersOf (a ++ b) = answersOf a + answersOf b := by
  simp [answersOf]

/-! ### Everything a message can do -/

theorem transact_sent {d : Option Millis} {s t : State} (hp : s.dpend = false)
    (e : writeMessage s = .ok (.more t)) : transact d s = .ok (delayAfter d t) := by
  simp only [transact, hp, e]; rfl

theorem transact_cut {d : Option Millis} {s t : State} (hp : s.dpend = false)
    (e : writeMessage s = .ok (.stop t)) : transact d s = .ok (.stop t) := by
  simp only [transact, hp, e]; rfl

theorem transact_pending {n : Millis} {s : State} (hp : s.dpend = true) :
    transact (some n) s = .ok (delay n s) := by
  simp only [transact, hp]; rfl

/-- The events of a message and its delay that are left from the position of `s`: all of them, or only the
delay while it is pending (R23). -/
def eventsLeft (d : Option Millis) (s : State) : List Event :=
  if s.dpend then d.toList.map Event.dly else Item.events ⟨s.frame, d⟩

/-- The bytes of the message that are left from the position of `s` (R19). -/
def bytesLeft (s : State) : List Byte := if s.dpend then [] else s.frame.drop s.bi.toNat

/-- Everything `transact` can do from a position R19 allows: what was left of the message is over; or the sink
holds inside it; or the delay after it is requested and not answered; or the sink fails and the
command is complete. -/
theorem transact_cases (d : Option Millis) (s : State)
    (h0 : s.dpend = false → s.bi.toNat < s.flen.toNat ∧ s.flen.toNat ≤ 78)
    (h1 : s.dpend = true → d ≠ none) :
    (∃ as, as <:+ s.answers ∧ transact d s =
        .ok (.more { s with answers := as, wire := s.wire ++ bytesLeft s,
                            trace := s.trace ++ eventsLeft d s, dpend := false,
                            tx := if s.dpend then s.tx else none,
                            mi := if s.dpend then s.mi else s.mi + 1#3,
                            bi := if s.dpend then s.bi else 0#7,
                            dly := if d = none then s.dly else none })) ∨
    (∃ k as beat, s.dpend = false ∧ s.bi.toNat + k < s.flen.toNat ∧ Took s.answers as ∧ transact d s =
        .ok (.stop { s with answers := as, wire := s.wire ++ (s.frame.drop s.bi.toNat).take k,
                            tx := some beat, bi := s.bi + BitVec.ofNat 7 k })) ∨
    (∃ as n, d = some n ∧ Took s.answers as ∧ transact d s =
        .ok (.stop { s with answers := as, wire := s.wire ++ bytesLeft s,
                            trace := s.trace ++ (if s.dpend then [] else [.wr s.frame]),
                            dpend := true, dly := some n,
                            tx := if s.dpend then s.tx else none,
                            mi := if s.dpend then s.mi else s.mi + 1#3,
                            bi := if s.dpend then s.bi else 0#7 })) ∨
    (∃ as w l, TookFail s.answers as ∧ transact d s =
        .ok (.stop (State.complete codeTransportFailure
          { s with answers := as, wire := w, trace := s.trace ++ l })) ∧
        l ⊆ Item.events ⟨s.frame, d⟩) := by
  cases hp : s.dpend
  · obtain ⟨hb, hl⟩ := h0 hp
    have hby : bytesLeft s = s.frame.drop s.bi.toNat := by simp [bytesLeft, hp]
    have hev : eventsLeft d s = Item.events ⟨s.frame, d⟩ := by simp [eventsLeft, hp]
    rw [hby, hev]
    rcases writeMessage_cases s hb hl with
      ⟨as, ha, e⟩ | ⟨k, as, beat, hk, ha, e⟩ | ⟨k, as, hk, ha, e⟩
    · cases d with
      | none =>
        refine Or.inl ⟨as, ha, ?_⟩
        rw [transact_sent hp e]; simp [delayAfter, hp, Item.events]
      | some n =>
        rcases delay_cases n { s with answers := as, wire := s.wire ++ s.frame.drop s.bi.toNat, tx := none,
                                      trace := s.trace ++ [.wr s.frame], mi := s.mi + 1#3, bi := 0#7 }
          with ⟨as', ha', e'⟩ | ⟨as', ha', e'⟩ | ⟨as', ha', e'⟩
        · refine Or.inl ⟨as', ha'.trans ha, ?_⟩
          rw [transact_sent hp e, delayAfter, e']; simp [Item.events]
        · refine Or.inr (Or.inr (Or.inl ⟨as', n, rfl, ha'.trans ha, ?_⟩))
          rw [transact_sent hp e, delayAfter, e']; simp
        · refine Or.inr (Or.inr (Or.inr ⟨as', s.wire ++ s.frame.drop s.bi.toNat, [.wr s.frame],
            ha'.trans ha, ?_, by simp [Item.events]⟩))
          rw [transact_sent hp e, delayAfter, e']; simp [State.complete]
    · refine Or.inr (Or.inl ⟨k, as, beat, rfl, hk, ha, ?_⟩)
      rw [transact_cut hp e]; simp [hp]
    · refine Or.inr (Or.inr (Or.inr ⟨as, s.wire ++ (s.frame.drop s.bi.toNat).take k, [], ha, ?_, by simp⟩))
      rw [transact_cut hp e]; simp [State.complete]
  · have hby : bytesLeft s = [] := by simp [bytesLeft, hp]
    rw [hby]
    cases d with
    | none => exact absurd rfl (h1 hp)
    | some n =>
      have hev : eventsLeft (some n) s = [.dly n] := by simp [eventsLeft, hp]
      rw [hev]
      rcases delay_cases n s with ⟨as', ha', e'⟩ | ⟨as', ha', e'⟩ | ⟨as', ha', e'⟩
      · refine Or.inl ⟨as', ha', ?_⟩
        rw [transact_pending hp, e']; simp
      · refine Or.inr (Or.inr (Or.inl ⟨as', n, rfl, ha', ?_⟩))
        rw [transact_pending hp, e']; simp
      · refine Or.inr (Or.inr (Or.inr ⟨as', s.wire, [], ha', ?_, by simp⟩))
        rw [transact_pending hp, e']; simp [State.complete]

/-! ### A sink that accepts -/

/-- A whole message and its delay, when the sink accepts them. -/
theorem transact_accept (d : Option Millis) (s : State) (hs : s.AtStart) (hp : 0 < s.flen.toNat)
    (hl : s.flen.toNat ≤ 78) (ha : s.SinkAccepts (answersOf (Item.events ⟨s.frame, d⟩))) :
    transact d s =
      .ok (.more { s with
        answers := s.answers.drop (answersOf (Item.events ⟨s.frame, d⟩)),
        wire := s.wire ++ wireOf (Item.events ⟨s.frame, d⟩),
        trace := s.trace ++ Item.events ⟨s.frame, d⟩,
        tx := none, mi := s.mi + 1#3, bi := 0#7, dpend := false,
        dly := if d = none then s.dly else none }) := by
  obtain ⟨hb, hd⟩ := hs
  cases d with
  | none =>
    have hw := writeMessage_accept s hb hp hl
      (by simpa [answersOf, Item.events, Event.answers, State.frame_length] using ha)
    rw [transact_sent hd hw]
    simp [delayAfter, hd, answersOf, wireOf, Item.events, Event.answers, Event.bytes,
      State.frame_length]
  | some n =>
    have ha' : s.SinkAccepts (s.flen.toNat + 1) := by
      simpa [answersOf, Item.events, Event.answers, State.frame_length] using ha
    have hw := writeMessage_accept s hb hp hl (accepts_left ha')
    have hdly := delay_accept n
      { s with answers := s.answers.drop s.flen.toNat, wire := s.wire ++ s.frame, tx := none,
               trace := s.trace ++ [.wr s.frame], mi := s.mi + 1#3, bi := 0#7 } (accepts_right ha')
    rw [transact_sent hd hw, delayAfter, hdly]
    simp [answersOf, wireOf, Item.events, Event.answers, Event.bytes, State.frame_length]

/-- A command's messages are nonempty and fit the buffer (R60). -/
def ItemsFit (its : List Item) : Prop := ∀ it ∈ its, 0 < it.bytes.length ∧ it.bytes.length ≤ 78

/-- A command whose messages the sink accepts: it completes after the events of all of them, with only
`fbuf` and `flen` changed beside what a completion changes. -/
theorem runItems_accept : ∀ (its : List Item) (s : State), ItemsFit its → s.fbuf.wf = true → s.AtStart →
    s.SinkAccepts (answersOf (itemsEvents its)) →
    ∃ t, runItems its s = .ok t ∧ Completes s (itemsEvents its) codeOk t ∧ t.acc = s.acc ∧
      t.fbuf.wf = true ∧ (∀ it, its.getLast? = some it → t.frame = it.bytes) ∧
      ∀ a, (∀ it ∈ its, it.bytes.length ≤ a) → t.fbuf.read a = s.fbuf.read a
  | [], s, _, hwf, hs, _ => by
    refine ⟨s.complete codeOk, rfl, ?_, rfl, hwf, by simp, fun _ _ => rfl⟩
    constructor <;> simp [itemsEvents, wireOf, answersOf]
  | it :: its, s, hf, hwf, hs, ha => by
    have hit := hf it (by simp)
    obtain ⟨hlen, hload⟩ : it.bytes.length ≤ 78 ∧ _ := ⟨hit.2, State.load_ok it.bytes s hit.2⟩
    obtain ⟨-, -, hfl, hfr, hwf', hab⟩ := State.load_spec it.bytes s _ hwf hload
    have hev : itemsEvents (it :: its) = it.events ++ itemsEvents its := by simp [itemsEvents]
    rw [hev, answersOf_append] at ha
    generalize hs₁ : ({ s with fbuf := s.fbuf.writeAll 0 it.bytes,
                               flen := BitVec.ofNat 7 it.bytes.length } : State) = s₁ at hload hfl hfr hwf' hab
    have hev₁ : Item.events ⟨s₁.frame, it.delay⟩ = it.events := by rw [hfr]
    have htr := transact_accept it.delay s₁ (by subst hs₁; exact hs) (by omega) (by omega)
      (by rw [hev₁]; subst hs₁; exact accepts_left ha)
    rw [hev₁] at htr
    obtain ⟨t, ht, hc, hacc, hwft, hlast, hab'⟩ := runItems_accept its
        { s₁ with
          answers := s₁.answers.drop (answersOf it.events), wire := s₁.wire ++ wireOf it.events,
          trace := s₁.trace ++ it.events, tx := none, mi := s₁.mi + 1#3, bi := 0#7, dpend := false,
          dly := if it.delay = none then s₁.dly else none }
      (fun x hx => hf x (by simp [hx])) hwf' ⟨rfl, rfl⟩
      (by subst hs₁; exact accepts_right ha)
    refine ⟨t, ?_, ?_, ?_, hwft, ?_, ?_⟩
    · simp only [runItems, hload, htr]; exact ht
    · rw [hev]
      subst hs₁
      constructor
      · rw [hc.trace]; simp
      · rw [hc.wire, wireOf_append]; simp
      · rw [hc.answers, answersOf_append, List.drop_drop]
      · exact hc.codes
      · exact hc.err
      · exact hc.done
      · exact hc.phase
      · exact hc.mi
      · exact hc.bi
      · exact hc.dpend
      · exact hc.tx
      · exact hc.dly
      · exact hc.opr
      · exact hc.strict
      · exact hc.actions
      · exact hc.reads
    · subst hs₁; exact hacc
    · intro x hx
      cases its with
      | nil =>
        simp at hx; subst hx
        simp [runItems] at ht; subst ht
        exact hfr
      | cons y ys => exact hlast x (by simpa using hx)
    · intro a hall
      rw [hab' a (fun x hx => hall x (by simp [hx]))]
      exact hab a (hall it (by simp))

/-- A message the sink accepts, followed by the next one in the buffer. -/
theorem emitMessage_next (it : Item) (nb : List Byte) (s : State) (hit : 0 < it.bytes.length)
    (hl : it.bytes.length ≤ 78) (hn : nb.length ≤ 78) (hwf : s.fbuf.wf = true) (hs : s.AtStart)
    (ha : s.SinkAccepts (answersOf it.events)) :
    ∃ t, emitMessage it (some nb) s = .ok t ∧ Advances s it.events t ∧ t.fbuf.wf = true ∧ t.frame = nb ∧
      ∀ a, it.bytes.length ≤ a → nb.length ≤ a → t.fbuf.read a = s.fbuf.read a := by
  have hload := State.load_ok it.bytes s hl
  obtain ⟨-, -, hfl, hfr, hwf', hab⟩ := State.load_spec it.bytes s _ hwf hload
  generalize hs₁ : ({ s with fbuf := s.fbuf.writeAll 0 it.bytes,
                             flen := BitVec.ofNat 7 it.bytes.length } : State) = s₁ at hload hfl hfr hwf' hab
  have hev₁ : Item.events ⟨s₁.frame, it.delay⟩ = it.events := by rw [hfr]
  have htr := transact_accept it.delay s₁ (by subst hs₁; exact hs) (by omega) (by omega)
    (by rw [hev₁]; subst hs₁; exact ha)
  rw [hev₁] at htr
  generalize hs₂ : ({ s₁ with
      answers := s₁.answers.drop (answersOf it.events), wire := s₁.wire ++ wireOf it.events,
      trace := s₁.trace ++ it.events, tx := none, mi := s₁.mi + 1#3, bi := 0#7, dpend := false,
      dly := if it.delay = none then s₁.dly else none } : State) = s₂ at htr
  have hload₂ := State.load_ok nb s₂ hn
  have hwf₂ : s₂.fbuf.wf = true := by subst hs₂; exact hwf'
  obtain ⟨-, -, -, hfr₂, hwf₃, hab₂⟩ := State.load_spec nb s₂ _ hwf₂ hload₂
  refine ⟨_, ?_, ?_, hwf₃, hfr₂, ?_⟩
  · simp only [emitMessage, hload, htr, advance]; exact hload₂
  · subst hs₂; subst hs₁
    constructor <;> rfl
  · intro a h1 h2
    rw [hab₂ a h2]; subst hs₂; exact hab a h1

/-- The last message of a command, when the sink accepts it: the command completes. -/
theorem emitMessage_last (it : Item) (s : State) (hit : 0 < it.bytes.length)
    (hl : it.bytes.length ≤ 78) (hwf : s.fbuf.wf = true) (hs : s.AtStart)
    (ha : s.SinkAccepts (answersOf it.events)) :
    ∃ t, emitMessage it none s = .ok t ∧ Completes s it.events codeOk t ∧ t.acc = s.acc ∧
      t.fbuf.wf = true ∧ t.frame = it.bytes ∧
      ∀ a, it.bytes.length ≤ a → t.fbuf.read a = s.fbuf.read a := by
  have hev : itemsEvents [it] = it.events := by simp [itemsEvents]
  obtain ⟨t, ht, hc, hacc, hwft, hlast, hab⟩ := runItems_accept [it] s
    (by intro x hx; simp at hx; subst hx; exact ⟨hit, hl⟩) hwf hs (by rw [hev]; exact ha)
  rw [hev] at hc
  refine ⟨t, ?_, hc, hacc, hwft, hlast it rfl, fun a h => hab a (by intro x hx; simp at hx; subst hx; exact h)⟩
  rw [← ht]
  simp [emitMessage, runItems, advance]

/-! ### A sink that fails -/

theorem drop_replicate_append {k m : Nat} {l : List SinkAnswer} (h : m ≤ k) :
    (List.replicate k SinkAnswer.accept ++ l).drop m = List.replicate (k - m) .accept ++ l := by
  rw [List.drop_append_of_le_length (by simpa using h), List.drop_replicate]

theorem accepts_replicate {k m : Nat} {l : List SinkAnswer} (h : m ≤ k) :
    ∀ a ∈ (List.replicate k SinkAnswer.accept ++ l).take m, a = .accept := by
  intro a ha
  rw [List.take_append_of_le_length (by simpa using h), List.take_replicate] at ha
  exact List.eq_of_mem_replicate ha

theorem completedWithin_append : ∀ (a b : List Event) (k : Nat), answersOf a ≤ k →
    completedWithin k (a ++ b) = a ++ completedWithin (k - answersOf a) b ∧
    bytesWithin k (a ++ b) = wireOf a ++ bytesWithin (k - answersOf a) b
  | [], b, k, _ => by simp [answersOf, wireOf]
  | e :: a, b, k, h => by
    have h' : e.answers + answersOf a ≤ k := by simpa [answersOf] using h
    have ih := completedWithin_append a b (k - e.answers) (by omega)
    have he : e.answers ≤ k := by omega
    have hs : answersOf (e :: a) = e.answers + answersOf a := by simp [answersOf]
    simp only [List.cons_append, completedWithin, bytesWithin, he, if_true, ih, hs, Nat.sub_sub]
    simp [wireOf]

/-- A command whose sink fails after `k` accepting answers, fewer than its events take: it ends with
`TransportFailure`, and what was complete by then stands (R140). -/
theorem runItems_fail : ∀ (its : List Item) (s : State) (k : Nat) (rest : List SinkAnswer), ItemsFit its →
    s.fbuf.wf = true → s.AtStart → s.answers = List.replicate k .accept ++ .fail :: rest →
    k < answersOf (itemsEvents its) →
    ∃ t, runItems its s = .ok t ∧ FailsAfter s (itemsEvents its) k rest t ∧ t.acc = s.acc ∧
      t.fbuf.wf = true
  | [], _, _, _, _, _, _, _, hk => absurd hk (by simp [itemsEvents, answersOf])
  | it :: its, s, k, rest, hf, hwf, hs, hans, hk => by
    have hit := hf it (by simp)
    have hload := State.load_ok it.bytes s hit.2
    obtain ⟨-, -, hfl, hfr, hwf', -⟩ := State.load_spec it.bytes s _ hwf hload
    have hev : itemsEvents (it :: its) = it.events ++ itemsEvents its := by simp [itemsEvents]
    rw [hev, answersOf_append] at hk
    generalize hs₁ : ({ s with fbuf := s.fbuf.writeAll 0 it.bytes,
                               flen := BitVec.ofNat 7 it.bytes.length } : State) = s₁ at hload hfl hfr hwf'
    have hs1 : s₁.AtStart := by subst hs₁; exact hs
    have hans1 : s₁.answers = List.replicate k .accept ++ .fail :: rest := by subst hs₁; exact hans
    have hev₁ : Item.events ⟨s₁.frame, it.delay⟩ = it.events := by rw [hfr]
    by_cases hgo : answersOf it.events ≤ k
    · have htr := transact_accept it.delay s₁ hs1 (by omega) (by omega)
        (by rw [hev₁, State.SinkAccepts, hans1]; exact accepts_replicate hgo)
      rw [hev₁] at htr
      obtain ⟨t, ht, hc, hacc, hwft⟩ := runItems_fail its
        { s₁ with
          answers := s₁.answers.drop (answersOf it.events), wire := s₁.wire ++ wireOf it.events,
          trace := s₁.trace ++ it.events, tx := none, mi := s₁.mi + 1#3, bi := 0#7, dpend := false,
          dly := if it.delay = none then s₁.dly else none }
        (k - answersOf it.events) rest (fun x hx => hf x (by simp [hx])) hwf' ⟨rfl, rfl⟩
        (by simp only [hans1]; exact drop_replicate_append hgo) (by omega)
      obtain ⟨hcw, hbw⟩ := completedWithin_append it.events (itemsEvents its) k hgo
      refine ⟨t, ?_, ?_, ?_, hwft⟩
      · simp only [runItems, hload, htr]; exact ht
      · rw [hev, FailsAfter, hcw, hbw]
        subst hs₁
        constructor
        · rw [hc.trace]; simp
        · rw [hc.wire]; simp
        · exact hc.answers
        · exact hc.codes
        · exact hc.err
        · exact hc.done
        · exact hc.phase
        · exact hc.mi
        · exact hc.bi
        · exact hc.dpend
        · exact hc.tx
        · exact hc.dly
        · exact hc.opr
        · exact hc.strict
        · exact hc.actions
        · exact hc.reads
      · subst hs₁; exact hacc
    · have hlen : s₁.frame.length = it.bytes.length := by rw [hfr]
      by_cases hm : k < it.bytes.length
      · have hw := writeMessage_fail s₁ hs1.1 k rest (by omega) (by omega) hans1
        refine ⟨_, by simp only [runItems, hload, transact_cut hs1.2 hw]; rfl, ?_, ?_, ?_⟩
        · subst hs₁
          rw [hev]
          have hno : ¬ it.bytes.length ≤ k := by omega
          constructor <;>
            simp [Item.events, completedWithin, bytesWithin, Event.answers, Event.bytes, hno, hfr]
        · subst hs₁; rfl
        · exact hwf'
      · obtain ⟨n, hd⟩ : ∃ n, it.delay = some n := by
          cases hd : it.delay with
          | none => exfalso; apply hgo; simp [answersOf, Item.events, hd, Event.answers]; omega
          | some n => exact ⟨n, rfl⟩
        have hk' : k = it.bytes.length := by
          have : ¬ it.bytes.length + 1 ≤ k := by
            simpa [answersOf, Item.events, hd, Event.answers] using hgo
          omega
        have hw := writeMessage_accept s₁ hs1.1 (by omega) (by omega)
          (by rw [State.SinkAccepts, hans1]; exact accepts_replicate (by omega))
        have hdrop : s₁.answers.drop s₁.flen.toNat = .fail :: rest := by
          rw [hans1, drop_replicate_append (by omega)]
          have : k - s₁.flen.toNat = 0 := by omega
          simp [this]
        rw [hdrop] at hw
        refine ⟨_, by simp only [runItems, hload, transact_sent hs1.2 hw, hd, delayAfter, delay]; rfl, ?_, ?_, ?_⟩
        · subst hs₁
          rw [hev]
          constructor <;>
            simp [Item.events, completedWithin, bytesWithin, Event.answers, Event.bytes, hd, hk', hfr]
        · subst hs₁; rfl
        · exact hwf'

end Sys2Proof.Machine
end

