-- ==== Sys2Proof/Laws/Frame.lean ====
section
/-! SUPPORT. The effect frame in the buffer: what `head()`, the tail and `close()` make of it, and what
sending it does. -/

namespace Sys2Proof.Machine

theorem accFinal_foldl (s : List Byte) : accFinal (s.foldl accAdd 0#7) = csum7 s := by
  have h := toNat_foldl_accAdd s 0#7
  simp only [accFinal, csum7, h]; simp

theorem length_effectPayload (c : CfgConst) (cat : Category) (o : Opr) :
    (effectPayload c cat o).length ≤ 32 ∧ 16 ≤ (effectPayload c cat o).length := by
  cases cat <;> simp [effectPayload, effectTailBytes]

theorem length_effectFrame (c : CfgConst) (cat : Category) (o : Opr) :
    (effectFrame c cat o).length = (effectPayload c cat o).length + 2 := by
  simp [effectFrame]

/-- `head()` (R108): the first 12 bytes of the payload are in the buffer. -/
theorem effectHead_spec (c : CfgConst) (s : State) (hwf : s.fbuf.wf = true) :
    ∃ t, effectHead c s = .ok t ∧ t = { s with fbuf := t.fbuf, flen := t.flen } ∧ t.flen.toNat = 12 ∧
      t.frame = [0xF0#8, 0x00#8, 0x01#8, 0x0A#8, 0x01#8, 0x23#8, s.opr.etype, c.unused7,
        lo s.opr.duration, hi s.opr.duration, lo s.opr.buttonMask, hi s.opr.buttonMask] ∧
      t.fbuf.wf = true ∧ ∀ a, 12 ≤ a → t.fbuf.read a = s.fbuf.read a := by
  have hload := State.load_ok sysexHeader s (by simp [sysexHeader])
  obtain ⟨-, -, hfl, hfr, hwf', hab⟩ := State.load_spec sysexHeader s _ hwf hload
  generalize hs₁ : ({ s with fbuf := s.fbuf.writeAll 0 sysexHeader,
                             flen := BitVec.ofNat 7 sysexHeader.length } : State) = s₁ at hload hfl hfr hwf' hab
  have h5 : s₁.flen.toNat = 5 := hfl
  obtain ⟨t, ht, hts, hlen, hf, hw, hab'⟩ := State.appendAll_spec
    ([Config.subcmdEffect, s.opr.etype, c.unused7] ++ lohi s.opr.duration.toNat ++
       lohi s.opr.buttonMask.toNat) s₁ (by simp [h5, lohi]) hwf'
  refine ⟨t, by simp only [effectHead, hload]; exact ht, ?_, ?_, ?_, hw, fun a ha => ?_⟩
  · rw [hts]; subst hs₁; rfl
  · simpa [h5, lohi] using hlen
  · rw [hf, hfr]; simp [sysexHeader, lohi]
  · rw [hab' a (by simp [h5, lohi]; omega), hab a (by simp [sysexHeader]; omega)]

/-- The tail (R109 to R111): the whole payload is in the buffer. -/
theorem effectTail_spec (c : CfgConst) (cat : Category) (s : State) (hwf : s.fbuf.wf = true)
    (hl : s.flen.toNat = 12) :
    ∃ t, effectTail c cat s = .ok t ∧ t = { s with fbuf := t.fbuf, flen := t.flen } ∧
      t.flen.toNat = 12 + (effectTailBytes c cat s.opr).length ∧
      t.frame = s.frame ++ effectTailBytes c cat s.opr ∧ t.fbuf.wf = true ∧
      ∀ a, 12 + (effectTailBytes c cat s.opr).length ≤ a → t.fbuf.read a = s.fbuf.read a := by
  have key : effectTail c cat s = s.appendAll (effectTailBytes c cat s.opr) := by
    cases cat <;> simp [effectTail, tailPeriodic, tailCondition, tailFriction, effectTailBytes, lohi]
  have hlen : (effectTailBytes c cat s.opr).length ≤ 20 := by cases cat <;> simp [effectTailBytes]
  obtain ⟨t, ht, hts, h1, h2, h3, h4⟩ :=
    State.appendAll_spec (effectTailBytes c cat s.opr) s (by omega) hwf
  rw [hl] at h1 h4
  exact ⟨t, by rw [key]; exact ht, hts, h1, h2, h3, h4⟩

/-- The whole frame (R107, R112): it is in the buffer, `acc` holds the sum of the bytes it checks, and
nothing else changes. -/
theorem buildEffect_spec (c : CfgConst) (cat : Category) (s : State) (hwf : s.fbuf.wf = true) :
    ∃ t, buildEffect c cat s = .ok t ∧ t = { s with fbuf := t.fbuf, flen := t.flen, acc := t.acc } ∧
      t.frame = effectFrame c cat s.opr ∧ t.flen.toNat = (effectFrame c cat s.opr).length ∧
      t.acc = ((effectPayload c cat s.opr).drop 5).foldl accAdd 0#7 ∧ t.fbuf.wf = true ∧
      ∀ a, (effectFrame c cat s.opr).length ≤ a → t.fbuf.read a = s.fbuf.read a := by
  obtain ⟨s₁, e₁, hs₁, hl₁, hf₁, hw₁, ha₁⟩ := effectHead_spec c s hwf
  have ho₁ : s₁.opr = s.opr := by rw [hs₁]
  obtain ⟨s₂, e₂, hs₂, hl₂, hf₂, hw₂, ha₂⟩ := effectTail_spec c cat s₁ hw₁ hl₁
  rw [ho₁] at hl₂ hf₂ ha₂
  have hpay : s₂.frame = effectPayload c cat s.opr := by rw [hf₂, hf₁]; simp [effectPayload]
  have hlp : (effectPayload c cat s.opr).length = 12 + (effectTailBytes c cat s.opr).length := by
    simp [effectPayload]; omega
  have hle := (length_effectPayload c cat s.opr).1
  obtain ⟨t, ht, hts, h1, h2, h3, h4⟩ := State.appendAll_spec
    [accFinal (s₂.sumFrom Config.csumStart).acc, Config.sysexEnd] (s₂.sumFrom Config.csumStart)
    (by simp; omega) hw₂
  have hacc : (s₂.sumFrom Config.csumStart).acc = ((effectPayload c cat s.opr).drop 5).foldl accAdd 0#7 := by
    simp [hpay]
  refine ⟨t, ?_, ?_, ?_, ?_, ?_, h3, fun a ha => ?_⟩
  · simp only [buildEffect, e₁, e₂, effectClose]; exact ht
  · rw [hts]; simp only [State.sumFrom]; rw [hs₂, hs₁]
  · rw [h2, hacc, accFinal_foldl, effectFrame, State.sumFrom_frame, hpay]
  · rw [h1, length_effectFrame]; simp; omega
  · rw [hts]; exact hacc
  · rw [length_effectFrame] at ha
    rw [h4 a (by simp; omega), State.sumFrom_fbuf, ha₂ a (by omega), ha₁ a (by omega)]

/-- Sending a frame that the sink accepts. -/
theorem sendEffect_accept (s : State) (hs : s.AtStart) (hp : 0 < s.flen.toNat) (hl : s.flen.toNat ≤ 78)
    (ha : s.SinkAccepts s.flen.toNat) :
    ∃ t, sendEffect s = .ok t ∧ Completes s [.wr s.frame] codeOk t ∧ t.acc = s.acc ∧ t.fbuf = s.fbuf ∧
      t.flen = s.flen := by
  have htr := transact_accept none s hs hp hl
    (by simpa [answersOf, Item.events, Event.answers, State.frame_length] using ha)
  refine ⟨_, by simp only [sendEffect, htr]; rfl, ?_, ?_, ?_, ?_⟩
  · constructor <;> simp [Item.events]
  all_goals rfl

/-- Sending a frame that the sink cuts short after `k` bytes. -/
theorem sendEffect_fail (s : State) (hs : s.AtStart) (k : Nat) (rest : List SinkAnswer)
    (hk : k < s.flen.toNat) (hl : s.flen.toNat ≤ 78)
    (ha : s.answers = List.replicate k .accept ++ .fail :: rest) :
    ∃ t, sendEffect s = .ok t ∧ FailsAfter s [.wr s.frame] k rest t := by
  have hw := writeMessage_fail s hs.1 k rest hk hl ha
  have hno : ¬ s.flen.toNat ≤ k := by omega
  refine ⟨_, by simp only [sendEffect, transact_cut hs.2 hw]; rfl, ?_⟩
  constructor <;> simp [completedWithin, bytesWithin, Event.answers, Event.bytes, State.frame_length, hno]

end Sys2Proof.Machine
end

