-- ==== Sys2Proof/Laws/PerInstr.lean ====
section
/-! SUPPORT. The per-instruction family `WireFormat`: the bytes an instruction encodes to agree with its row of
`opcode_table.json` on every bit the row fixes. The rows' numbers are written out here a second time, as the
table gives them, apart from the patterns the encoder uses. -/

namespace Sys2Proof.Laws.WireFormat

open Sys2Proof.Machine

/-- The fixed bits of a row: its length in bits and its `mask` and `match` numbers. -/
structure Row where
  bits : Nat
  mask : Nat
  value : Nat

/-- The `SXE-P` rows (R68). -/
def rowPeriodic : Row :=
  ⟨272, 0xFFFFFFFFFFFF80808080808080808080808080808080FF80808080808080FFFF80FF,
   0xF000010A0123000000000000000000000000000000007F00000000000000010100F7⟩

/-- The `SXE-C` rows (R69). -/
def rowCondition : Row :=
  ⟨176, 0xFFFFFFFFFFFF80808080808080FF80FF8080808080FF, 0xF000010A0123000000000000000000000000000000F7⟩

/-- The `SXE-F` row (R70). -/
def rowFriction : Row :=
  ⟨144, 0xFFFFFFFFFFFF80808080808080FF80FF80FF, 0xF000010A01230000000000000000000000F7⟩

/-- The row of an instruction. -/
def rowOf : Instr → Row
  | .init => ⟨3, 0x7, 0x0⟩
  | .autocenter => ⟨3, 0x7, 0x1⟩
  | .effect => ⟨3, 0x7, 0x2⟩
  | .play => ⟨3, 0x7, 0x3⟩
  | .stop => ⟨3, 0x7, 0x4⟩
  | .modify => ⟨3, 0x7, 0x5⟩
  | .reserved6 => ⟨3, 0x7, 0x6⟩
  | .reserved7 => ⟨3, 0x7, 0x7⟩
  | .initM1 => ⟨16, 0xFFFF, 0xC501⟩
  | .initM2 => ⟨72, 0xFFFFFFFFFFFFFFFFFF, 0xF000010A0110056BF7⟩
  | .initM3 _ => ⟨624, 0, 0⟩
  | .autocenterOnM1 _ => ⟨16, 0xFF80, 0xC500⟩
  | .autocenterOffM1 _ => ⟨16, 0xFF80, 0xC500⟩
  | .autocenterOffM2 _ => ⟨24, 0xFF80FF, 0xB5007F⟩
  | .autocenterOffM3 _ _ => ⟨24, 0xFF8080, 0xA50000⟩
  | .autocenterOffM4 _ => ⟨16, 0xFF80, 0xC500⟩
  | .effectConstant _ => rowPeriodic
  | .effectSine _ => rowPeriodic
  | .effectSquare _ => rowPeriodic
  | .effectRamp _ => rowPeriodic
  | .effectTriangle _ => rowPeriodic
  | .effectSawtoothDown _ => rowPeriodic
  | .effectSawtoothUp _ => rowPeriodic
  | .effectSpring _ => rowCondition
  | .effectDamper _ => rowCondition
  | .effectInertia _ => rowCondition
  | .effectFriction _ => rowFriction
  | .playM1 _ => ⟨24, 0xFFFF80, 0xB52000⟩
  | .stopM1 _ => ⟨24, 0xFFFF80, 0xB53000⟩
  | .modifyM1 _ _ _ => ⟨48, 0xFF8080FF8080, 0xB50000A50000⟩

/-- Bytes agree with a row: as many as the row has bits for, and each, under the row's mask, the row's value. -/
def Agrees (bs : List Byte) (r : Row) : Prop :=
  List.zipWith (· &&& ·) bs (tableBytes r.bits r.mask) = tableBytes r.bits r.value ∧
    bs.length = (tableBytes r.bits r.mask).length

/-- A well-formed instruction's bytes agree with its row. -/
def Statement (i : Instr) : Prop := ∀ c : CfgConst, i.wellFormed c = true → Agrees (encode i) (rowOf i)

theorem byteOf_and (x : Septet) : byteOf x &&& 0x80#8 = 0x00#8 := by
  revert x; decide

theorem periodic_agrees (m : PeriodicMsg) : Agrees (periodicBytes m) rowPeriodic := by
  have h1 : tableBytes rowPeriodic.bits rowPeriodic.mask =
      [0xFF#8, 0xFF#8, 0xFF#8, 0xFF#8, 0xFF#8, 0xFF#8] ++ List.replicate 16 0x80#8 ++ [0xFF#8] ++
      List.replicate 7 0x80#8 ++ [0xFF#8, 0xFF#8, 0x80#8, 0xFF#8] := by decide
  have h2 : tableBytes rowPeriodic.bits rowPeriodic.value =
      [0xF0#8, 0x00#8, 0x01#8, 0x0A#8, 0x01#8, 0x23#8] ++ List.replicate 16 0x00#8 ++ [0x7F#8] ++
      List.replicate 7 0x00#8 ++ [0x01#8, 0x01#8, 0x00#8, 0xF7#8] := by decide
  rw [Agrees, h1, h2]
  simp only [periodicBytes, patPeriodic, patHead, patClose, periodicFields, fill, List.cons_append,
    List.nil_append, List.replicate, List.zipWith, byteOf_and]
  exact ⟨rfl, rfl⟩

theorem condition_agrees (m : ConditionMsg) : Agrees (conditionBytes m) rowCondition := by
  have h1 : tableBytes rowCondition.bits rowCondition.mask =
      [0xFF#8, 0xFF#8, 0xFF#8, 0xFF#8, 0xFF#8, 0xFF#8] ++ List.replicate 7 0x80#8 ++
      [0xFF#8, 0x80#8, 0xFF#8] ++ List.replicate 5 0x80#8 ++ [0xFF#8] := by decide
  have h2 : tableBytes rowCondition.bits rowCondition.value =
      [0xF0#8, 0x00#8, 0x01#8, 0x0A#8, 0x01#8, 0x23#8] ++ List.replicate 15 0x00#8 ++ [0xF7#8] := by decide
  rw [Agrees, h1, h2]
  simp only [conditionBytes, patCondition, patStrengths, patHead, patClose, conditionFields, fill,
    List.cons_append, List.nil_append, List.replicate, List.zipWith, byteOf_and]
  exact ⟨rfl, rfl⟩

theorem friction_agrees (m : FrictionMsg) : Agrees (frictionBytes m) rowFriction := by
  have h1 : tableBytes rowFriction.bits rowFriction.mask =
      [0xFF#8, 0xFF#8, 0xFF#8, 0xFF#8, 0xFF#8, 0xFF#8] ++ List.replicate 7 0x80#8 ++
      [0xFF#8, 0x80#8, 0xFF#8, 0x80#8, 0xFF#8] := by decide
  have h2 : tableBytes rowFriction.bits rowFriction.value =
      [0xF0#8, 0x00#8, 0x01#8, 0x0A#8, 0x01#8, 0x23#8] ++ List.replicate 11 0x00#8 ++ [0xF7#8] := by decide
  rw [Agrees, h1, h2]
  simp only [frictionBytes, patFriction, patStrengths, patHead, patClose, frictionFields, fill,
    List.cons_append, List.nil_append, List.replicate, List.zipWith, byteOf_and]
  exact ⟨rfl, rfl⟩

theorem pc2_agrees (n : Septet) : Agrees (fill patPc2 [n]) ⟨16, 0xFF80, 0xC500⟩ := by
  revert n; unfold Agrees; decide

theorem zipWith_zero : ∀ (bs : List Byte),
    List.zipWith (· &&& ·) bs (List.replicate bs.length 0x00#8) = List.replicate bs.length 0x00#8
  | [] => rfl
  | b :: bs => by
    rw [List.length_cons, List.replicate_succ, List.zipWith_cons_cons, zipWith_zero bs, BitVec.and_zero]

theorem init : Statement .init := fun _ _ => ⟨by decide, rfl⟩
theorem autocenter : Statement .autocenter := fun _ _ => ⟨by decide, rfl⟩
theorem effect : Statement .effect := fun _ _ => ⟨by decide, rfl⟩
theorem play : Statement .play := fun _ _ => ⟨by decide, rfl⟩
theorem stop : Statement .stop := fun _ _ => ⟨by decide, rfl⟩
theorem modify : Statement .modify := fun _ _ => ⟨by decide, rfl⟩
theorem reserved6 : Statement .reserved6 := fun _ _ => ⟨by decide, rfl⟩
theorem reserved7 : Statement .reserved7 := fun _ _ => ⟨by decide, rfl⟩
theorem initM1 : Statement .initM1 := fun _ _ => ⟨by decide, rfl⟩
theorem initM2 : Statement .initM2 := fun _ _ => ⟨by decide, rfl⟩

theorem initM3 (z : List Byte) : Statement (.initM3 z) := by
  intro c h
  have hz : z.length = 78 := by
    have : z = initMsg3 c := by simpa [Instr.wellFormed] using h
    simp [this, initMsg3]
  have ht : tableBytes 624 0 = List.replicate z.length 0x00#8 := by rw [hz]; decide
  refine ⟨?_, ?_⟩
  · show List.zipWith _ z (tableBytes 624 0) = tableBytes 624 0
    rw [ht]; exact zipWith_zero z
  · show z.length = (tableBytes 624 0).length
    rw [ht, List.length_replicate]

theorem autocenterOnM1 (n : Septet) : Statement (.autocenterOnM1 n) := fun _ _ => pc2_agrees n
theorem autocenterOffM1 (n : Septet) : Statement (.autocenterOffM1 n) := fun _ _ => pc2_agrees n

theorem autocenterOffM2 (r : Septet) : Statement (.autocenterOffM2 r) := by
  have h : ∀ r, Agrees (encode (.autocenterOffM2 r)) (rowOf (.autocenterOffM2 r)) := by unfold Agrees; decide
  exact fun _ _ => h r

theorem autocenterOffM3 (b d : Septet) : Statement (.autocenterOffM3 b d) := fun _ _ => by
  have h1 : tableBytes 24 0xFF8080 = [0xFF#8, 0x80#8, 0x80#8] := by decide
  have h2 : tableBytes 24 0xA50000 = [0xA5#8, 0x00#8, 0x00#8] := by decide
  simp only [Agrees, rowOf, h1, h2, encode, patRw3, fill, List.zipWith, byteOf_and]
  exact ⟨rfl, rfl⟩

theorem autocenterOffM4 (f : Septet) : Statement (.autocenterOffM4 f) := fun _ _ => pc2_agrees f
theorem effectConstant (m : PeriodicMsg) : Statement (.effectConstant m) := fun _ _ => periodic_agrees m
theorem effectSine (m : PeriodicMsg) : Statement (.effectSine m) := fun _ _ => periodic_agrees m
theorem effectSquare (m : PeriodicMsg) : Statement (.effectSquare m) := fun _ _ => periodic_agrees m
theorem effectRamp (m : PeriodicMsg) : Statement (.effectRamp m) := fun _ _ => periodic_agrees m
theorem effectTriangle (m : PeriodicMsg) : Statement (.effectTriangle m) := fun _ _ => periodic_agrees m
theorem effectSawtoothDown (m : PeriodicMsg) : Statement (.effectSawtoothDown m) := fun _ _ => periodic_agrees m
theorem effectSawtoothUp (m : PeriodicMsg) : Statement (.effectSawtoothUp m) := fun _ _ => periodic_agrees m
theorem effectSpring (m : ConditionMsg) : Statement (.effectSpring m) := fun _ _ => condition_agrees m
theorem effectDamper (m : ConditionMsg) : Statement (.effectDamper m) := fun _ _ => condition_agrees m
theorem effectInertia (m : ConditionMsg) : Statement (.effectInertia m) := fun _ _ => condition_agrees m
theorem effectFriction (m : FrictionMsg) : Statement (.effectFriction m) := fun _ _ => friction_agrees m

theorem playM1 (i : Septet) : Statement (.playM1 i) := by
  have h : ∀ i, Agrees (encode (.playM1 i)) (rowOf (.playM1 i)) := by unfold Agrees; decide
  exact fun _ _ => h i
theorem stopM1 (i : Septet) : Statement (.stopM1 i) := by
  have h : ∀ i, Agrees (encode (.stopM1 i)) (rowOf (.stopM1 i)) := by unfold Agrees; decide
  exact fun _ _ => h i

theorem modifyM1 (p i : Septet) (v : Val14) : Statement (.modifyM1 p i v) := fun _ _ => by
  have h1 : tableBytes 48 0xFF8080FF8080 = [0xFF#8, 0x80#8, 0x80#8, 0xFF#8, 0x80#8, 0x80#8] := by decide
  have h2 : tableBytes 48 0xB50000A50000 = [0xB5#8, 0x00#8, 0x00#8, 0xA5#8, 0x00#8, 0x00#8] := by decide
  simp only [Agrees, rowOf, h1, h2, encode, patMod6, fill, List.zipWith, byteOf_and]
  exact ⟨rfl, rfl⟩

end Sys2Proof.Laws.WireFormat
end

