-- ==== Sys2Proof/Laws/Step.lean ====
section
/-! SUPPORT. What a step is in each kind of instant, and a run of steps. -/

namespace Sys2Proof.Machine

/-- A meaning's answer is a next state exactly when it is no error. -/
theorem outcome_next {r : Except Fault State} {t : State} : outcome r = .next t ↔ r = .ok t := by
  cases r <;> simp [outcome]

/-- A run goes on from the state its first step gives. -/
theorem core_run_next {s t : State} (n : Nat) (h : step s = .next t) :
    Sys2Proof.core.run (n + 1) s = Sys2Proof.core.run n t := by
  have h' : Sys2Proof.core.step s = .next t := h
  simp only [Host.Core.run, h']

/-- A step that finds an instruction to run is that instruction's meaning. -/
theorem step_run {s t : State} {i : Instr} (h : fetchWith Config.cfg s = .run i t) : step s = exec i t := by
  simp only [step, h]

/-- A step that finds none is the instant's own effect. -/
theorem step_noInstr {s t : State} (h : fetchWith Config.cfg s = .noInstr t) : step s = .next t := by
  simp only [step, h]

/-- The running command goes on with the message the frame buffer holds at its slot. -/
theorem resume_run {c : CfgConst} {s : State} {i : Instr} (h : s.message c = some i) : resume c s = .run i s := by
  simp only [resume, h]

end Sys2Proof.Machine
end

