-- ==== Sys2Proof/Tests/Slice0.lean ====
section
/-! SUPPORT. Tests: ill-formed terms that each check refuses, words written out from the spec's encodings and what
they decode to, single commands and messages against `95_test_vectors.md` under `REFCFG`, and for each
obligation with hypotheses a state and operands that meet them. -/

namespace Sys2Proof.Tests

open Sys2Proof.Machine

/-- A state right after a command with operands `o` was accepted (R26), under a sink with the answers `as`. -/
def ready (o : Opr) (as : List SinkAnswer) : State :=
  { State.reset with opr := o, phase := .run, answers := as }

/-- What a test looks at: the events and the completion codes. -/
def seen (r : Except Fault State) : Option (List Event × List Code) :=
  match r with
  | .ok t => some (t.trace, t.codes)
  | .error _ => none

/-- The same of a meaning's answer, with the message left in the buffer. -/
def after (r : Host.Outcome State Fault Refusal) : Option (List Event × List Code × List Byte) :=
  match r with
  | .next t => some (t.trace, t.codes, t.frame)
  | _ => none

/-! ### WellFormed: each check refuses an ill-formed term -/

/-- A well-formed SINE message, E1 of `95_test_vectors.md`. -/
def sineE1 : PeriodicMsg where
  etype := 0x02#7
  unused := 0x7F#7
  duration := 500#14
  buttonMask := 0#14
  direction := 90#14
  strength := 0x7F#7
  sampleRate := 100#14
  constA := 0x10#7
  constB := 0x4E#7
  attackLevel := 0#7
  attackTime := 0#14
  fadeTime := 0#14
  fadeLevel := 0#7
  frequency := 10#14
  amplitude := 127#14
  checksum := 0x40#7

/-- A well-formed INERTIA message, E15. -/
def inertiaE15 : ConditionMsg where
  etype := 0x0F#7
  unused := 0x7F#7
  duration := 1#14
  buttonMask := 2#14
  strengthX := 3#7
  strengthY := 4#7
  offsetX := 5#14
  offsetY := 6#14
  checksum := 0x3A#7

/-- A well-formed FRICTION message, E11. -/
def frictionE11 : FrictionMsg where
  etype := 0x10#7
  unused := 0x7F#7
  duration := 300#14
  buttonMask := 0x3FFF#14
  strengthX := 0x05#7
  strengthY := 0x12#7
  checksum := 0x0B#7

theorem test_wellFormed_accepts :
    Instr.wellFormed Config.refCfg (.effectSine sineE1) = true ∧
    Instr.wellFormed Config.refCfg (.effectInertia inertiaE15) = true ∧
    Instr.wellFormed Config.refCfg (.effectFriction frictionE11) = true := by decide

theorem test_wellFormed_periodic_fields :
    Instr.wellFormed Config.refCfg (.effectSquare sineE1) = false ∧
    Instr.wellFormed Config.refCfg (.effectSine { sineE1 with unused := 0#7 }) = false ∧
    Instr.wellFormed Config.refCfg (.effectSine { sineE1 with constA := 0#7 }) = false ∧
    Instr.wellFormed Config.refCfg (.effectSine { sineE1 with constB := 0#7 }) = false ∧
    Instr.wellFormed Config.refCfg (.effectSine { sineE1 with checksum := 0x41#7 }) = false := by decide

theorem test_wellFormed_condition_fields :
    Instr.wellFormed Config.refCfg (.effectSpring inertiaE15) = false ∧
    Instr.wellFormed Config.refCfg (.effectInertia { inertiaE15 with unused := 0#7 }) = false ∧
    Instr.wellFormed Config.refCfg (.effectInertia { inertiaE15 with checksum := 0#7 }) = false := by decide

theorem test_wellFormed_friction_fields :
    Instr.wellFormed Config.refCfg (.effectFriction { frictionE11 with etype := 0#7 }) = false ∧
    Instr.wellFormed Config.refCfg (.effectFriction { frictionE11 with unused := 0#7 }) = false ∧
    Instr.wellFormed Config.refCfg (.effectFriction { frictionE11 with checksum := 0#7 }) = false := by decide

theorem test_wellFormed_handshake_fields :
    Instr.wellFormed Config.refCfg (.initM3 []) = false ∧
    Instr.wellFormed Config.refCfg (.autocenterOnM1 0x06#7) = false ∧
    Instr.wellFormed Config.refCfg (.autocenterOffM1 0x06#7) = false ∧
    Instr.wellFormed Config.refCfg (.autocenterOffM2 0x00#7) = false ∧
    Instr.wellFormed Config.refCfg (.autocenterOffM3 0x00#7 0x00#7) = false ∧
    Instr.wellFormed Config.refCfg (.autocenterOffM3 0x7F#7 0x01#7) = false ∧
    Instr.wellFormed Config.refCfg (.autocenterOffM4 0x01#7) = false := by decide

/-- Each condition of R7 on an instance, broken one at a time. -/
theorem test_instance_conditions :
    CfgConst.wellFormed { Config.refCfg with typeCode := fun _ => 0x02#8 } = false ∧
    CfgConst.wellFormed { Config.refCfg with unused7 := 0x80#8 } = false ∧
    CfgConst.wellFormed { Config.refCfg with perConstA := 0x80#8 } = false ∧
    CfgConst.wellFormed { Config.refCfg with perConstB := 0x80#8 } = false ∧
    CfgConst.wellFormed { Config.refCfg with acOnMode := 0x80#8 } = false ∧
    CfgConst.wellFormed { Config.refCfg with acOffMode := 0x80#8 } = false ∧
    CfgConst.wellFormed { Config.refCfg with acOffMode := 0x01#8 } = false ∧
    CfgConst.wellFormed { Config.refCfg with acReg := 0x80#8 } = false ∧
    CfgConst.wellFormed { Config.refCfg with acRwB1 := 0x00#8 } = false ∧
    CfgConst.wellFormed { Config.refCfg with acRwB2 := 0x80#8 } = false := by decide

/-! ### Decoding of words written out from the spec's encodings (R58 to R70) -/

theorem test_decode_commands :
    decode Config.refCfg none [0b00000000#8] = some .init ∧
    decode Config.refCfg none [0b00000001#8] = some .autocenter ∧
    decode Config.refCfg none [0b00000010#8] = some .effect ∧
    decode Config.refCfg none [0b00000011#8] = some .play ∧
    decode Config.refCfg none [0b00000100#8] = some .stop ∧
    decode Config.refCfg none [0b00000101#8] = some .modify ∧
    decode Config.refCfg none [0b00000110#8] = some .reserved6 ∧
    decode Config.refCfg none [0b00000111#8] = some .reserved7 := by decide

theorem test_decode_initM1 :
    decodeAt Config.refCfg .initM1 [0b11000101#8, 0b00000001#8] = some .initM1 := by decide

theorem test_decode_initM2 :
    decodeAt Config.refCfg .initM2
      [0b11110000#8, 0b00000000#8, 0b00000001#8, 0b00001010#8, 0b00000001#8, 0b00010000#8, 0b00000101#8,
       0b01101011#8, 0b11110111#8] = some .initM2 := by decide

theorem test_decode_initM3 :
    decodeAt Config.refCfg .initM3 (List.replicate 78 0xB5#8) = some (.initM3 (List.replicate 78 0xB5#8)) := by
  decide

theorem test_decode_autocenterOnM1 :
    decodeAt Config.refCfg .onM1 [0b11000101#8, 0b00000001#8] = some (.autocenterOnM1 0b0000001#7) := by decide

theorem test_decode_autocenterOffM1 :
    decodeAt Config.refCfg .offM1 [0b11000101#8, 0b01010101#8] = some (.autocenterOffM1 0b1010101#7) := by decide

theorem test_decode_autocenterOffM2 :
    decodeAt Config.refCfg .offM2 [0b10110101#8, 0b01111100#8, 0b01111111#8] =
      some (.autocenterOffM2 0b1111100#7) := by decide

theorem test_decode_autocenterOffM3 :
    decodeAt Config.refCfg .offM3 [0b10100101#8, 0b01111111#8, 0b00000001#8] =
      some (.autocenterOffM3 0b1111111#7 0b0000001#7) := by decide

theorem test_decode_autocenterOffM4 :
    decodeAt Config.refCfg .offM4 [0b11000101#8, 0b00000110#8] = some (.autocenterOffM4 0b0000110#7) := by decide

theorem test_decode_playM1 :
    decodeAt Config.refCfg .playM1 [0b10110101#8, 0b00100000#8, 0b00000101#8] = some (.playM1 0b0000101#7) := by
  decide

theorem test_decode_stopM1 :
    decodeAt Config.refCfg .stopM1 [0b10110101#8, 0b00110000#8, 0b00000101#8] = some (.stopM1 0b0000101#7) := by
  decide

theorem test_decode_modifyM1 :
    decodeAt Config.refCfg .modifyM1
      [0b10110101#8, 0b01100100#8, 0b00000101#8, 0b10100101#8, 0b00101100#8, 0b00000010#8] =
      some (.modifyM1 0b1100100#7 0b0000101#7 0b00000100101100#14) := by decide


/-- E16. -/
theorem test_decode_effectConstant :
    decodeAt Config.refCfg .effectM1
      [0xF0#8, 0x00#8, 0x01#8, 0x0A#8, 0x01#8, 0x23#8, 0x12#8, 0x7F#8, 0x00#8, 0x00#8, 0x00#8,
       0x00#8, 0x00#8, 0x00#8, 0x7F#8, 0x64#8, 0x00#8, 0x10#8, 0x4E#8, 0x7F#8, 0x00#8, 0x00#8,
       0x7F#8, 0x00#8, 0x00#8, 0x7F#8, 0x00#8, 0x00#8, 0x7F#8, 0x00#8, 0x01#8, 0x01#8, 0x0D#8,
       0xF7#8] =
      some (.effectConstant
        { etype := 0x12#7, unused := 0x7F#7, duration := 0#14, buttonMask := 0#14, direction := 0#14,
          strength := 0x7F#7, sampleRate := 100#14, constA := 0x10#7, constB := 0x4E#7, attackLevel := 0x7F#7,
          attackTime := 0#14, fadeTime := 0#14, fadeLevel := 0x7F#7, frequency := 0#14, amplitude := 127#14,
          checksum := 0x0D#7 }) := by decide

/-- E1. -/
theorem test_decode_effectSine :
    decodeAt Config.refCfg .effectM1
      [0xF0#8, 0x00#8, 0x01#8, 0x0A#8, 0x01#8, 0x23#8, 0x02#8, 0x7F#8, 0x74#8, 0x03#8, 0x00#8,
       0x00#8, 0x5A#8, 0x00#8, 0x7F#8, 0x64#8, 0x00#8, 0x10#8, 0x4E#8, 0x00#8, 0x00#8, 0x00#8,
       0x7F#8, 0x00#8, 0x00#8, 0x00#8, 0x0A#8, 0x00#8, 0x7F#8, 0x00#8, 0x01#8, 0x01#8, 0x40#8,
       0xF7#8] =
      some (.effectSine sineE1) := by decide

/-- E4. -/
theorem test_decode_effectSquare :
    decodeAt Config.refCfg .effectM1
      [0xF0#8, 0x00#8, 0x01#8, 0x0A#8, 0x01#8, 0x23#8, 0x05#8, 0x7F#8, 0x7F#8, 0x7F#8, 0x7F#8,
       0x7F#8, 0x7F#8, 0x7F#8, 0x7F#8, 0x7F#8, 0x7F#8, 0x10#8, 0x4E#8, 0x7F#8, 0x7F#8, 0x7F#8,
       0x7F#8, 0x7F#8, 0x7F#8, 0x7F#8, 0x7F#8, 0x7F#8, 0x7F#8, 0x7F#8, 0x01#8, 0x01#8, 0x0D#8,
       0xF7#8] =
      some (.effectSquare
        { etype := 0x05#7, unused := 0x7F#7, duration := 0x3FFF#14, buttonMask := 0x3FFF#14, direction := 0x3FFF#14,
          strength := 0x7F#7, sampleRate := 0x3FFF#14, constA := 0x10#7, constB := 0x4E#7, attackLevel := 0x7F#7,
          attackTime := 0x3FFF#14, fadeTime := 0x3FFF#14, fadeLevel := 0x7F#7, frequency := 0x3FFF#14, amplitude := 0x3FFF#14,
          checksum := 0x0D#7 }) := by decide

/-- E6. -/
theorem test_decode_effectRamp :
    decodeAt Config.refCfg .effectM1
      [0xF0#8, 0x00#8, 0x01#8, 0x0A#8, 0x01#8, 0x23#8, 0x06#8, 0x7F#8, 0x00#8, 0x00#8, 0x00#8,
       0x00#8, 0x00#8, 0x00#8, 0x01#8, 0x02#8, 0x00#8, 0x10#8, 0x4E#8, 0x03#8, 0x04#8, 0x00#8,
       0x7F#8, 0x05#8, 0x00#8, 0x06#8, 0x07#8, 0x00#8, 0x08#8, 0x00#8, 0x01#8, 0x01#8, 0x55#8,
       0xF7#8] =
      some (.effectRamp
        { etype := 0x06#7, unused := 0x7F#7, duration := 0#14, buttonMask := 0#14, direction := 0#14,
          strength := 1#7, sampleRate := 2#14, constA := 0x10#7, constB := 0x4E#7, attackLevel := 3#7,
          attackTime := 4#14, fadeTime := 5#14, fadeLevel := 6#7, frequency := 7#14, amplitude := 8#14,
          checksum := 0x55#7 }) := by decide

/-- E5. -/
theorem test_decode_effectTriangle :
    decodeAt Config.refCfg .effectM1
      [0xF0#8, 0x00#8, 0x01#8, 0x0A#8, 0x01#8, 0x23#8, 0x08#8, 0x7F#8, 0x68#8, 0x07#8, 0x01#8,
       0x04#8, 0x0E#8, 0x02#8, 0x64#8, 0x48#8, 0x01#8, 0x10#8, 0x4E#8, 0x10#8, 0x2C#8, 0x02#8,
       0x7F#8, 0x10#8, 0x03#8, 0x20#8, 0x32#8, 0x00#8, 0x40#8, 0x3E#8, 0x01#8, 0x01#8, 0x25#8,
       0xF7#8] =
      some (.effectTriangle
        { etype := 0x08#7, unused := 0x7F#7, duration := 1000#14, buttonMask := 0x0201#14, direction := 270#14,
          strength := 100#7, sampleRate := 200#14, constA := 0x10#7, constB := 0x4E#7, attackLevel := 0x10#7,
          attackTime := 300#14, fadeTime := 400#14, fadeLevel := 0x20#7, frequency := 50#14, amplitude := 8000#14,
          checksum := 0x25#7 }) := by decide

/-- E7. -/
theorem test_decode_effectSawtoothDown :
    decodeAt Config.refCfg .effectM1
      [0xF0#8, 0x00#8, 0x01#8, 0x0A#8, 0x01#8, 0x23#8, 0x0A#8, 0x7F#8, 0x00#8, 0x00#8, 0x01#8,
       0x00#8, 0x67#8, 0x02#8, 0x00#8, 0x00#8, 0x00#8, 0x10#8, 0x4E#8, 0x01#8, 0x01#8, 0x01#8,
       0x7F#8, 0x7F#8, 0x7F#8, 0x7E#8, 0x00#8, 0x01#8, 0x7F#8, 0x00#8, 0x01#8, 0x01#8, 0x0C#8,
       0xF7#8] =
      some (.effectSawtoothDown
        { etype := 0x0A#7, unused := 0x7F#7, duration := 0#14, buttonMask := 1#14, direction := 359#14,
          strength := 0#7, sampleRate := 0#14, constA := 0x10#7, constB := 0x4E#7, attackLevel := 1#7,
          attackTime := 129#14, fadeTime := 16383#14, fadeLevel := 0x7E#7, frequency := 128#14, amplitude := 127#14,
          checksum := 0x0C#7 }) := by decide

/-- E8. -/
theorem test_decode_effectSawtoothUp :
    decodeAt Config.refCfg .effectM1
      [0xF0#8, 0x00#8, 0x01#8, 0x0A#8, 0x01#8, 0x23#8, 0x0B#8, 0x7F#8, 0x7A#8, 0x01#8, 0x00#8,
       0x00#8, 0x34#8, 0x01#8, 0x40#8, 0x64#8, 0x00#8, 0x10#8, 0x4E#8, 0x7F#8, 0x32#8, 0x00#8,
       0x7F#8, 0x32#8, 0x00#8, 0x00#8, 0x02#8, 0x00#8, 0x08#8, 0x27#8, 0x01#8, 0x01#8, 0x0C#8,
       0xF7#8] =
      some (.effectSawtoothUp
        { etype := 0x0B#7, unused := 0x7F#7, duration := 250#14, buttonMask := 0#14, direction := 180#14,
          strength := 64#7, sampleRate := 100#14, constA := 0x10#7, constB := 0x4E#7, attackLevel := 127#7,
          attackTime := 50#14, fadeTime := 50#14, fadeLevel := 0#7, frequency := 2#14, amplitude := 5000#14,
          checksum := 0x0C#7 }) := by decide

/-- E13. -/
theorem test_decode_effectSpring :
    decodeAt Config.refCfg .effectM1
      [0xF0#8, 0x00#8, 0x01#8, 0x0A#8, 0x01#8, 0x23#8, 0x0D#8, 0x7F#8, 0x00#8, 0x00#8, 0x00#8,
       0x00#8, 0x40#8, 0x00#8, 0x40#8, 0x00#8, 0x00#8, 0x00#8, 0x00#8, 0x00#8, 0x51#8, 0xF7#8] =
      some (.effectSpring
        { etype := 0x0D#7, unused := 0x7F#7, duration := 0#14, buttonMask := 0#14, strengthX := 0x40#7,
          strengthY := 0x40#7, offsetX := 0#14, offsetY := 0#14, checksum := 0x51#7 }) := by decide

/-- E14. -/
theorem test_decode_effectDamper :
    decodeAt Config.refCfg .effectM1
      [0xF0#8, 0x00#8, 0x01#8, 0x0A#8, 0x01#8, 0x23#8, 0x0E#8, 0x7F#8, 0x44#8, 0x13#8, 0x01#8,
       0x00#8, 0x7F#8, 0x00#8, 0x00#8, 0x00#8, 0x00#8, 0x40#8, 0x7F#8, 0x7F#8, 0x3B#8, 0xF7#8] =
      some (.effectDamper
        { etype := 0x0E#7, unused := 0x7F#7, duration := 2500#14, buttonMask := 1#14, strengthX := 0x7F#7,
          strengthY := 0#7, offsetX := 8192#14, offsetY := 16383#14, checksum := 0x3B#7 }) := by decide

/-- E15. -/
theorem test_decode_effectInertia :
    decodeAt Config.refCfg .effectM1
      [0xF0#8, 0x00#8, 0x01#8, 0x0A#8, 0x01#8, 0x23#8, 0x0F#8, 0x7F#8, 0x01#8, 0x00#8, 0x02#8,
       0x00#8, 0x03#8, 0x00#8, 0x04#8, 0x00#8, 0x05#8, 0x00#8, 0x06#8, 0x00#8, 0x3A#8, 0xF7#8] =
      some (.effectInertia inertiaE15) := by decide

/-- E11. -/
theorem test_decode_effectFriction :
    decodeAt Config.refCfg .effectM1
      [0xF0#8, 0x00#8, 0x01#8, 0x0A#8, 0x01#8, 0x23#8, 0x10#8, 0x7F#8, 0x2C#8, 0x02#8, 0x7F#8,
       0x7F#8, 0x05#8, 0x00#8, 0x12#8, 0x00#8, 0x0B#8, 0xF7#8] =
      some (.effectFriction frictionE11) := by decide

/-- Bytes that fit no row are rejected (R79): a field byte with bit 7 set, a wrong fixed byte, a message cut
short, a type byte outside the known set, a command byte above 7. -/
theorem test_decode_rejects :
    decodeAt Config.refCfg .playM1 [0xB5#8, 0x20#8, 0x85#8] = none ∧
    decodeAt Config.refCfg .playM1 [0xB5#8, 0x30#8, 0x05#8] = none ∧
    decodeAt Config.refCfg .modifyM1 [0xB5#8, 0x64#8, 0x05#8, 0xA5#8, 0x2C#8] = none ∧
    decodeAt Config.refCfg .effectM1
      [0xF0#8, 0x00#8, 0x01#8, 0x0A#8, 0x01#8, 0x23#8, 0x7E#8, 0x7F#8, 0x00#8, 0x00#8, 0x00#8, 0x00#8, 0x00#8,
       0x00#8, 0x00#8, 0x00#8, 0x00#8, 0xF7#8] = none ∧
    decode Config.refCfg none [0x08#8] = none := by decide

/-! ### Commands against `95_test_vectors.md`, section 2, under `REFCFG` -/

/-- H1: the trace and the code of INIT. -/
theorem test_init :
    seen (initWith Config.refCfg (ready Opr.zero [])) =
      some ([.wr [0xC5#8, 0x01#8], .dly 20#7,
             .wr [0xF0#8, 0x00#8, 0x01#8, 0x0A#8, 0x01#8, 0x10#8, 0x05#8, 0x6B#8, 0xF7#8], .dly 57#7,
             .wr (List.ofFn Config.synth78)], [0#3]) := by decide

/-- X7: the sink fails the second delay (2 bytes, 1 delay and 9 bytes accepted). -/
theorem test_init_dly_fail :
    seen (initWith Config.refCfg (ready Opr.zero (List.replicate 12 .accept ++ [.fail]))) =
      some ([.wr [0xC5#8, 0x01#8], .dly 20#7,
             .wr [0xF0#8, 0x00#8, 0x01#8, 0x0A#8, 0x01#8, 0x10#8, 0x05#8, 0x6B#8, 0xF7#8]], [3#3]) := by decide

/-- H2 and H3. -/
theorem test_autocenter :
    seen (autocenterWith Config.refCfg (ready { Opr.zero with enabled := true } [])) =
      some ([.wr [0xC5#8, 0x01#8]], [0#3]) ∧
    seen (autocenterWith Config.refCfg (ready Opr.zero [])) =
      some ([.wr [0xC5#8, 0x01#8], .dly 70#7, .wr [0xB5#8, 0x7C#8, 0x7F#8], .wr [0xA5#8, 0x7F#8, 0x00#8],
             .wr [0xC5#8, 0x06#8]], [0#3]) := by decide

/-- X8: the sink fails the first byte of message 3 (2 bytes, 1 delay and 3 bytes accepted). -/
theorem test_autocenter_tx_fail :
    seen (autocenterWith Config.refCfg (ready Opr.zero (List.replicate 6 .accept ++ [.fail]))) =
      some ([.wr [0xC5#8, 0x01#8], .dly 70#7, .wr [0xB5#8, 0x7C#8, 0x7F#8]], [3#3]) := by decide

/-- E7: truncation and masking at every kind of field of a Periodic effect. -/
theorem test_effect_periodic :
    seen (effectWith Config.refCfg (ready
      { Opr.zero with
        etype := 0x0A#8, duration := 16384#16, buttonMask := 16385#16, direction := 359#16, strength := 0x80#8,
        sampleRate := 0x4000#16, attackLevel := 0x81#8, attackTime := 129#16, fadeTime := 16383#16,
        fadeLevel := 0xFE#8, frequency := 128#16, amplitude := 127#16 } [])) =
      some ([.wr
        [0xF0#8, 0x00#8, 0x01#8, 0x0A#8, 0x01#8, 0x23#8, 0x0A#8, 0x7F#8, 0x00#8, 0x00#8, 0x01#8,
         0x00#8, 0x67#8, 0x02#8, 0x00#8, 0x00#8, 0x00#8, 0x10#8, 0x4E#8, 0x01#8, 0x01#8, 0x01#8,
         0x7F#8, 0x7F#8, 0x7F#8, 0x7E#8, 0x00#8, 0x01#8, 0x7F#8, 0x00#8, 0x01#8, 0x01#8, 0x0C#8,
         0xF7#8]], [0#3]) := by decide

/-- E14 and E11: a Condition and a Friction effect. -/
theorem test_effect_condition_friction :
    seen (effectWith Config.refCfg (ready
      { Opr.zero with
        etype := 0x0E#8, duration := 2500#16, buttonMask := 1#16, strengthX := 0xFF#8, strengthY := 0x80#8,
        offsetX := 8192#16, offsetY := 16383#16 } [])) =
      some ([.wr
        [0xF0#8, 0x00#8, 0x01#8, 0x0A#8, 0x01#8, 0x23#8, 0x0E#8, 0x7F#8, 0x44#8, 0x13#8, 0x01#8,
         0x00#8, 0x7F#8, 0x00#8, 0x00#8, 0x00#8, 0x00#8, 0x40#8, 0x7F#8, 0x7F#8, 0x3B#8, 0xF7#8]], [0#3]) ∧
    seen (effectWith Config.refCfg (ready
      { Opr.zero with
        etype := 0x10#8, duration := 300#16, buttonMask := 0x3FFF#16, strengthX := 0x85#8,
        strengthY := 0x12#8 } [])) =
      some ([.wr
        [0xF0#8, 0x00#8, 0x01#8, 0x0A#8, 0x01#8, 0x23#8, 0x10#8, 0x7F#8, 0x2C#8, 0x02#8, 0x7F#8,
         0x7F#8, 0x05#8, 0x00#8, 0x12#8, 0x00#8, 0x0B#8, 0xF7#8]], [0#3]) := by decide

/-- E17, X5 and X3: an unknown type comes before a wide operand; a wide operand under strict mode. -/
theorem test_effect_rejected :
    seen (effectWith Config.refCfg (ready { Opr.zero with etype := 0x7E#8 } [])) = some ([], [1#3]) ∧
    seen (effectWith Config.refCfg
      { ready { Opr.zero with etype := 0x7E#8, strength := 0xFF#8 } [] with strict := true }) =
      some ([], [1#3]) ∧
    seen (effectWith Config.refCfg
      { ready { Opr.zero with etype := 0x0D#8, offsetY := 0x4000#16 } [] with strict := true }) =
      some ([], [2#3]) := by decide

/-- K6 and K7: PLAY masks its id, or rejects it under strict mode. -/
theorem test_play :
    after (exec .play (ready { Opr.zero with effectId := 0x85#8 } [])) =
      some ([.wr [0xB5#8, 0x20#8, 0x05#8]], [0#3], [0xB5#8, 0x20#8, 0x05#8]) ∧
    after (exec .play { ready { Opr.zero with effectId := 0x85#8 } [] with strict := true }) =
      some ([], [2#3], []) := by decide

/-- K2 and K9. -/
theorem test_stop :
    after (exec .stop (ready { Opr.zero with effectId := 0x05#8 } [])) =
      some ([.wr [0xB5#8, 0x30#8, 0x05#8]], [0#3], [0xB5#8, 0x30#8, 0x05#8]) ∧
    after (exec .stop { ready { Opr.zero with effectId := 0x80#8 } [] with strict := true }) =
      some ([], [2#3], []) := by decide

/-- K17: the parameter before the id, the low half before the high half. -/
theorem test_modify :
    after (exec .modify (ready { Opr.zero with effectId := 1#8, param := 2#8, value := 128#16 } [])) =
      some ([.wr [0xB5#8, 0x02#8, 0x01#8, 0xA5#8, 0x00#8, 0x01#8]], [0#3],
        [0xB5#8, 0x02#8, 0x01#8, 0xA5#8, 0x00#8, 0x01#8]) := by decide

/-- K11 and K13: the largest operands strict mode lets pass, and the first value it does not. -/
theorem test_modify_strict :
    after (exec .modify
      { ready { Opr.zero with effectId := 0x7F#8, param := 0x7F#8, value := 16383#16 } [] with strict := true }) =
      some ([.wr [0xB5#8, 0x7F#8, 0x7F#8, 0xA5#8, 0x7F#8, 0x7F#8]], [0#3],
        [0xB5#8, 0x7F#8, 0x7F#8, 0xA5#8, 0x7F#8, 0x7F#8]) ∧
    after (exec .modify
      { ready { Opr.zero with effectId := 5#8, param := 0x64#8, value := 16384#16 } [] with strict := true }) =
      some ([], [2#3], []) := by decide

/-- X6. -/
theorem test_reserved :
    after (exec .reserved6 (ready Opr.zero [])) = some ([], [4#3], []) ∧
    after (exec .reserved7 (ready Opr.zero [.fail])) = some ([], [4#3], []) := by decide

/-! ### Messages, one step each -/

theorem test_initM1 :
    after (exec .initM1 (ready Opr.zero [])) =
      some ([.wr [0xC5#8, 0x01#8], .dly 20#7], [],
        [0xF0#8, 0x00#8, 0x01#8, 0x0A#8, 0x01#8, 0x10#8, 0x05#8, 0x6B#8, 0xF7#8]) := by decide

/-- The delay after message 1 fails: the message stands, the command ends with code 3 (R140). -/
theorem test_initM1_dly_fail :
    after (exec .initM1 (ready Opr.zero [.accept, .accept, .fail])) =
      some ([.wr [0xC5#8, 0x01#8]], [3#3], [0xC5#8, 0x01#8]) := by decide

theorem test_autocenterOffM4 :
    after (exec (.autocenterOffM4 6#7) (ready Opr.zero [])) =
      some ([.wr [0xC5#8, 0x06#8]], [0#3], [0xC5#8, 0x06#8]) := by decide

theorem test_playM1 :
    after (exec (.playM1 5#7) (ready Opr.zero [])) =
      some ([.wr [0xB5#8, 0x20#8, 0x05#8]], [0#3], [0xB5#8, 0x20#8, 0x05#8]) := by decide

theorem test_modifyM1 :
    after (exec (.modifyM1 0x64#7 5#7 300#14) (ready Opr.zero [])) =
      some ([.wr [0xB5#8, 0x64#8, 0x05#8, 0xA5#8, 0x2C#8, 0x02#8]], [0#3],
        [0xB5#8, 0x64#8, 0x05#8, 0xA5#8, 0x2C#8, 0x02#8]) := by decide

/-- E15's frame as a message. -/
theorem test_effectInertia :
    after (exec (.effectInertia inertiaE15) (ready Opr.zero [])) =
      some ([.wr (conditionBytes inertiaE15)], [0#3],
        [0xF0#8, 0x00#8, 0x01#8, 0x0A#8, 0x01#8, 0x23#8, 0x0F#8, 0x7F#8, 0x01#8, 0x00#8, 0x02#8,
         0x00#8, 0x03#8, 0x00#8, 0x04#8, 0x00#8, 0x05#8, 0x00#8, 0x06#8, 0x00#8, 0x3A#8, 0xF7#8]) := by decide

/-! ### The host's words -/

/-- A command and a message as the host's words: the first step after reset runs them. -/
theorem test_withFetchWord :
    after (step (State.reset.withFetchWord 8 0x3)) =
      some ([.wr [0xB5#8, 0x20#8, 0x00#8]], [0#3], [0xB5#8, 0x20#8, 0x00#8]) ∧
    after (step (State.reset.withFetchWord 24 0xB53005)) =
      some ([.wr [0xB5#8, 0x30#8, 0x05#8]], [0#3], [0xB5#8, 0x30#8, 0x05#8]) := by decide

/-- The word of INIT message 3 with every bit 0: its 78 bytes are opaque (R66). -/
theorem test_decodeTable_initM3 :
    decodeTableWord 624 0 = some (.initM3 (List.replicate 78 0#8)) := by decide

/-- A word of an effect row, which only an instance's `TYPE_CODE` can decode: E11 under `REFCFG`. -/
theorem test_decodeTable_effect :
    decodeTable Config.refCfg 144 0xF000010A0123107F2C027F7F050012000BF7 =
      some (.effectFriction frictionE11) := by decide

/-! ### Witnesses: a state and operands that meet the hypotheses of each obligation -/

/-- A PLAY held by the sink before its first byte: it runs, and its message is in the buffer. -/
def playing : State :=
  { ready { Opr.zero with op := 3#3, effectId := 5#8 } [] with
    fbuf := [(0, 0xB5#8), (1, 0x20#8), (2, 0x05#8)], flen := 3#7 }

/-- An INIT whose first delay is pending: message 1 is over. -/
def delaying : State :=
  { ready Opr.zero [] with
    fbuf := [(0, 0xC5#8), (1, 0x01#8)], flen := 2#7, mi := 1#3, dpend := true, dly := some 20#7,
    wire := [0xC5#8, 0x01#8], trace := [.wr [0xC5#8, 0x01#8]] }

theorem accepts_nil (o : Opr) (n : Nat) : (ready o []).SinkAccepts n := by
  intro a h
  have : a ∈ ([] : List SinkAnswer) := List.mem_of_mem_take h
  exact absurd this List.not_mem_nil

theorem start_ready (o : Opr) (as : List SinkAnswer) : (ready o as).AtStart := ⟨rfl, rfl⟩

theorem playing_inv : playing.Inv Config.cfg := by
  refine ⟨by decide, by decide, by decide, by decide, fun h => absurd h (by decide), fun _ => ?_⟩
  exact ⟨.playM1, .playM1 5#7, rfl, rfl, rfl, fun _ => by decide, fun h => absurd h (by decide)⟩

theorem delaying_inv : delaying.Inv Config.cfg := by
  refine ⟨by decide, by decide, by decide, by decide, fun h => absurd h (by decide), fun _ => ?_⟩
  exact ⟨.initM1, .initM1, rfl, rfl, rfl, fun h => absurd h (by decide), fun _ => by decide⟩

/-- The type byte of a kind, under the machine's own instance. -/
theorem category_typeCode (k : Kind) :
    categoryOf Config.cfg (Config.cfg.typeCode k) = some (categoryOfKind k) := by
  rw [categoryOf, kindOf_typeCode Config.cfg cfg_wellFormed]; rfl

/-- `0x80` is no type code of any instance: a type code is below it (R7). -/
theorem category_none : categoryOf Config.cfg 0x80#8 = none := by
  have h : kindOf Config.cfg 0x80#8 = none :=
    kindOf_none.mpr fun k e => by
      have := (wellFormed_spec Config.cfg cfg_wellFormed).1 k
      rw [e] at this; exact absurd this (by decide)
  rw [categoryOf, h]; rfl

theorem witness_Mask7KeepsTheLowSevenBits : (0x7F : Nat) ≤ 0x7F ∧ (mask7 0x7F).toNat = 0x7F := by decide

theorem witness_Recon14InvertsSplit14 :
    (0x7F#8 : Byte).toNat ≤ 0x7F ∧ (0x00#8 : Byte).toNat ≤ 0x7F ∧ (16383 : Nat) ≤ 16383 := by decide

/-- Both ends of the two cases: the sums 0, 1 and 127 modulo 128. -/
theorem witness_ChecksumCornerCases :
    (([0x40#8, 0x40#8] : List Byte).map BitVec.toNat).sum % 128 = 0 ∧
    1 ≤ (([0x01#8] : List Byte).map BitVec.toNat).sum % 128 ∧
    (([0xFF#8] : List Byte).map BitVec.toNat).sum % 128 = 127 := by decide

theorem witness_AccumulatorGivesTheChecksumInAnyOrder :
    List.Perm ([0x23#8, 0x02#8] : List Byte) [0x02#8, 0x23#8] := by decide

theorem witness_TypeCodeSelectsItsKind : Config.refCfg.wellFormed = true := refCfg_wellFormed

theorem witness_UnknownEffectTypesAreRejected :
    categoryOf Config.cfg (ready { Opr.zero with etype := 0x80#8 } []).opr.etype = none := category_none

theorem witness_DecodeInvertsEncode :
    Config.refCfg.wellFormed = true ∧ Instr.wellFormed Config.refCfg (.effectSine sineE1) = true := by decide

theorem witness_EncodeInvertsDecode :
    decode Config.refCfg (some .playM1) [0xB5#8, 0x20#8, 0x7F#8] = some (.playM1 0x7F#7) ∧
    decode Config.refCfg none [0x07#8] = some .reserved7 := by decide

theorem witness_MessageFormatsOfR60 :
    Config.refCfg.wellFormed = true ∧ Instr.wellFormed Config.refCfg (.effectFriction frictionE11) = true ∧
    slotOf (.effectFriction frictionE11) = some .effectM1 ∧
    Instr.wellFormed Config.refCfg (.autocenterOffM3 0x7F#7 0x00#7) = true ∧
    slotOf (.autocenterOffM3 0x7F#7 0x00#7) = some .offM3 := by decide

theorem witness_MessagesAreSevenBitSafe :
    slotOf (.modifyM1 0x7F#7 0#7 0#14) = some .modifyM1 ∧ (Slot.modifyM1 ≠ Slot.initM3) ∧
    3 < (encode (.modifyM1 0x7F#7 0#7 0#14)).length ∧
    slotOf .initM2 = some .initM2 ∧ 8 < (encode .initM2).length := by decide

theorem witness_ResetAbandonsTheCommand :
    ({ playing with actions := [.reset, .pass] } : State).actions = .reset :: [.pass] := rfl

theorem witness_IdleWaitsForACommand :
    (State.reset.phase = .idle ∧ State.reset.actions = []) ∧
    ({ State.reset with actions := [.pass] } : State).phase = .idle ∧
    ({ State.reset with actions := [.pass] } : State).actions = .pass :: [] := ⟨⟨rfl, rfl⟩, rfl, rfl⟩

theorem witness_StepRunsTheDecodedInstruction :
    (({ State.reset with actions := [.command Opr.zero] } : State).phase = .idle ∧
      ({ State.reset with actions := [.command Opr.zero] } : State).actions = .command Opr.zero :: []) ∧
    (playing.phase = .run ∧ playing.actions = [] ∧ playing.slot = some .playM1 ∧
      decode Config.cfg (some .playM1) playing.frame = some (.playM1 5#7)) ∧
    (({ playing with actions := [.pass] } : State).actions = .pass :: []) := by
  exact ⟨⟨rfl, rfl⟩, ⟨rfl, rfl, rfl, rfl⟩, rfl⟩

theorem witness_BusyLeavesTheCommandOnThePort :
    ∃ t, step { playing with actions := [.command Opr.zero] } = .next t := by
  have h : fetchWith Config.cfg { playing with actions := [.command Opr.zero] } =
      .run (.playM1 5#7) { playing with actions := [.command Opr.zero] } := rfl
  exact ⟨_, by simp only [step, h]; rfl⟩

theorem witness_HostPortsReadAndWrite :
    ({ playing with actions := [.writeStrict true] } : State).actions = .writeStrict true :: [] ∧
    ({ State.reset with actions := [.read .err] } : State).actions = .read .err :: [] := ⟨rfl, rfl⟩

theorem witness_RunningCommandIgnoresStrict :
    slotOf (.playM1 5#7) = some .playM1 ∧ ∃ t, exec (.playM1 5#7) playing = .next t := ⟨rfl, _, rfl⟩

theorem witness_InitSendsTheHandshake :
    (ready Opr.zero []).fbuf.wf = true ∧ (ready Opr.zero []).AtStart ∧ (ready Opr.zero []).SinkAccepts 91 :=
  ⟨rfl, start_ready _ _, accepts_nil _ _⟩

theorem witness_AutocenterOnSendsOneMessage :
    (ready { Opr.zero with enabled := true } []).fbuf.wf = true ∧
    (ready { Opr.zero with enabled := true } []).AtStart ∧
    (ready { Opr.zero with enabled := true } []).opr.enabled = true ∧
    (ready { Opr.zero with enabled := true } []).SinkAccepts 2 :=
  ⟨rfl, start_ready _ _, rfl, accepts_nil _ _⟩

theorem witness_AutocenterOffSendsFourMessages :
    (ready Opr.zero []).fbuf.wf = true ∧ (ready Opr.zero []).AtStart ∧
    (ready Opr.zero []).opr.enabled = false ∧ (ready Opr.zero []).SinkAccepts 11 :=
  ⟨rfl, start_ready _ _, rfl, accepts_nil _ _⟩

/-- One listed answer for each byte and each delay, no more. -/
theorem witness_InitMessagesAdvance :
    (ready Opr.zero (List.replicate 3 .accept)).fbuf.wf = true ∧
    (ready Opr.zero (List.replicate 3 .accept)).AtStart ∧
    (ready Opr.zero (List.replicate 3 .accept)).SinkAccepts 3 ∧
    (ready Opr.zero []).SinkAccepts 10 ∧
    (List.replicate 78 0x00#8 : List Byte).length = 78 ∧ (ready Opr.zero []).SinkAccepts 78 :=
  ⟨rfl, start_ready _ _, by unfold State.SinkAccepts; decide, accepts_nil _ _, by decide, accepts_nil _ _⟩

theorem witness_AutocenterMessagesAdvance :
    (ready Opr.zero (List.replicate 3 .accept)).fbuf.wf = true ∧
    (ready Opr.zero (List.replicate 3 .accept)).AtStart ∧
    (ready Opr.zero (List.replicate 3 .accept)).SinkAccepts 2 ∧
    (ready Opr.zero (List.replicate 3 .accept)).SinkAccepts 3 :=
  ⟨rfl, start_ready _ _, by unfold State.SinkAccepts; decide, by unfold State.SinkAccepts; decide⟩

/-- Each category, with `CFG.strict` = 1 and every operand in range, and with 0 and one too wide. -/
theorem witness_EffectSendsItsFrame :
    (∀ k : Kind, (ready { Opr.zero with etype := Config.cfg.typeCode k } []).fbuf.wf = true ∧
      (ready { Opr.zero with etype := Config.cfg.typeCode k } []).AtStart ∧
      categoryOf Config.cfg (Config.cfg.typeCode k) = some (categoryOfKind k) ∧
      outOfRangeEffect (categoryOfKind k) { Opr.zero with etype := Config.cfg.typeCode k } = false ∧
      ∀ n, (ready { Opr.zero with etype := Config.cfg.typeCode k } []).SinkAccepts n) ∧
    (ready { Opr.zero with etype := Config.cfg.typeCode .sine, strength := 0xFF#8 } []).strict = false :=
  ⟨fun k => ⟨rfl, start_ready _ _, category_typeCode k, by cases k <;> rfl, accepts_nil _⟩, rfl⟩

theorem witness_EffectMessagesComplete :
    (ready Opr.zero []).fbuf.wf = true ∧ (ready Opr.zero []).AtStart ∧ (ready Opr.zero []).SinkAccepts 34 ∧
    (ready Opr.zero []).SinkAccepts 22 ∧ (ready Opr.zero []).SinkAccepts 18 :=
  ⟨rfl, start_ready _ _, accepts_nil _ _, accepts_nil _ _, accepts_nil _ _⟩

theorem witness_EffectFrameIsItsKindsMessage :
    Config.refCfg.wellFormed = true ∧ categoryOf Config.refCfg 0x02#8 = some .periodic ∧
    categoryOf Config.refCfg 0x0F#8 = some .condition ∧ categoryOf Config.refCfg 0x10#8 = some .friction := by
  decide

/-- A Friction effect: the other set differs in a direction and an offset, which Friction does not read. -/
theorem witness_EffectIgnoresForeignOperands :
    let o : Opr := { Opr.zero with etype := Config.cfg.typeCode .friction, strengthX := 1#8 }
    let p : Opr := { o with direction := 0xFFFF#16, offsetX := 0xFFFF#16 }
    (ready o [.fail]).opr.etype = p.etype ∧ o.duration = p.duration ∧ o.buttonMask = p.buttonMask ∧
    categoryOf Config.cfg p.etype = some .friction ∧ o.strengthX = p.strengthX ∧ o.strengthY = p.strengthY ∧
    o ≠ p ∧ ∃ t, exec .effect (ready { o with etype := 0x80#8 } [.fail]) = .next t := by
  refine ⟨rfl, rfl, rfl, category_typeCode .friction, rfl, rfl, fun h => ?_, ?_⟩
  · exact absurd (congrArg Opr.direction h) (by decide)
  · exact ⟨_, by simp only [exec, execEffect, effectWith, ready, category_none]; rfl⟩

theorem witness_ControlCommandsSendTheirMessage :
    let s : State := ready { Opr.zero with effectId := 0x7F#8, param := 0x7F#8, value := 0x3FFF#16 } []
    s.fbuf.wf = true ∧ s.AtStart ∧ s.SinkAccepts 6 ∧ s.opr.effectId.toNat ≤ 0x7F ∧
    s.opr.param.toNat ≤ 0x7F ∧ s.opr.value.toNat ≤ 0x3FFF ∧ s.strict = false :=
  ⟨rfl, start_ready _ _, accepts_nil _ _, by decide, by decide, by decide, rfl⟩

theorem witness_ControlMessagesComplete :
    (ready Opr.zero []).fbuf.wf = true ∧ (ready Opr.zero []).AtStart ∧ (ready Opr.zero []).SinkAccepts 3 ∧
    (ready Opr.zero []).SinkAccepts 6 := ⟨rfl, start_ready _ _, accepts_nil _ _, accepts_nil _ _⟩

theorem witness_ReservedCodesEndWithInvalidCommand : Instr.reserved7 ∈ [Instr.reserved6, .reserved7] := by
  decide

/-- Each operand one above its bound. -/
theorem witness_StrictModeRejectsWideOperands :
    let s : State := { ready { Opr.zero with
      etype := Config.cfg.typeCode .spring, effectId := 0x80#8, param := 0x80#8, value := 0x4000#16,
      offsetY := 0x4000#16 } [] with strict := true }
    s.strict = true ∧ 0x7F < s.opr.effectId.toNat ∧ 0x7F < s.opr.param.toNat ∧ 0x3FFF < s.opr.value.toNat ∧
    categoryOf Config.cfg s.opr.etype = some .condition ∧ outOfRangeEffect .condition s.opr = true :=
  ⟨rfl, by decide, by decide, by decide, category_typeCode .spring, rfl⟩

/-- Each category of EFFECT with one operand just above its width, a single-byte one and a 14-bit one. -/
theorem witness_StrictModeRejectsWideOperands_effect :
    (categoryOf Config.cfg (Config.cfg.typeCode .sawtoothUp) = some .periodic ∧
      0x7F < ({ Opr.zero with fadeLevel := 0x80#8 } : Opr).fadeLevel.toNat ∧
      0x3FFF < ({ Opr.zero with amplitude := 0x4000#16 } : Opr).amplitude.toNat) ∧
    (categoryOf Config.cfg (Config.cfg.typeCode .inertia) = some .condition ∧
      0x7F < ({ Opr.zero with strengthY := 0x80#8 } : Opr).strengthY.toNat ∧
      0x3FFF < ({ Opr.zero with offsetX := 0x4000#16 } : Opr).offsetX.toNat) ∧
    (categoryOf Config.cfg (Config.cfg.typeCode .friction) = some .friction ∧
      0x7F < ({ Opr.zero with strengthX := 0x80#8 } : Opr).strengthX.toNat ∧
      0x3FFF < ({ Opr.zero with buttonMask := 0x4000#16 } : Opr).buttonMask.toNat) :=
  ⟨⟨category_typeCode .sawtoothUp, by decide, by decide⟩, ⟨category_typeCode .inertia, by decide, by decide⟩,
    category_typeCode .friction, by decide, by decide⟩

theorem witness_InRangeOperandsKeepEveryBit :
    over8 0x7F#8 = false ∧ over8 0x80#8 = true ∧ over14 0x3FFF#16 = false ∧ over14 0x4000#16 = true := by
  decide

/-- INIT, which takes 91 answers: a failure at the first of them and at the last. -/
theorem witness_SinkFailureLeavesAProperPart :
    (∀ k ∈ [0, 90], (ready Opr.zero (List.replicate k .accept ++ [.fail])).fbuf.wf = true ∧
      (ready Opr.zero (List.replicate k .accept ++ [.fail])).AtStart ∧
      k < answersOf (eventModel Config.cfg false Opr.zero).1) := by
  have h : answersOf (eventModel Config.cfg false Opr.zero).1 = 91 := by
    have e : (initMsg3 Config.cfg).length = 78 := by simp [initMsg3]
    simp [eventModel, decodeOp, Opr.zero, answersOf, Event.answers, e]
  intro k hk
  rw [h]
  refine ⟨rfl, start_ready _ _, ?_⟩
  simp only [List.mem_cons, List.not_mem_nil, or_false] at hk
  omega

/-- The first byte and the last byte of PLAY's message. -/
theorem witness_HeldByteStaysOnThePort :
    (slotOf (.playM1 5#7)).isSome ∧ (encode (.playM1 5#7)).length ≤ 78 ∧
    0 < (encode (.playM1 5#7)).length ∧ 2 < (encode (.playM1 5#7)).length ∧
    (ready Opr.zero (List.replicate 2 .accept ++ .hold :: [])).fbuf.wf = true ∧
    (ready Opr.zero (List.replicate 0 .accept ++ .hold :: [])).bi = 0#7 := by decide

theorem witness_ResumedMessageSendsOnlyTheRest :
    let s : State := { playing with bi := 2#7 }
    s.fbuf.wf = true ∧ slotOf (.playM1 5#7) = some .playM1 ∧ (encode (.playM1 5#7)).length ≤ 78 ∧
    s.dpend = false ∧ s.bi.toNat < (encode (.playM1 5#7)).length ∧
    s.SinkAccepts ((encode (.playM1 5#7)).length - s.bi.toNat + 1) :=
  ⟨rfl, rfl, by decide, rfl, by decide, by unfold State.SinkAccepts; decide⟩

theorem witness_PendingDelayHoldsTheNextMessage :
    delaying.fbuf.wf = true ∧ delaying.dpend = true ∧
    (Instr.initM1 = .initM1 ∧ (20#7 : Millis) = 20#7 ∧
      initMsg2 = [0xF0#8, 0x00#8, 0x01#8, 0x0A#8, 0x01#8, 0x10#8, 0x05#8, 0x6B#8, 0xF7#8]) ∧
    delaying.SinkAccepts 1 ∧
    ({ delaying with answers := [.hold] } : State).answers = .hold :: [] ∧
    ({ delaying with answers := [.fail] } : State).answers = .fail :: [] :=
  ⟨rfl, rfl, ⟨rfl, rfl, rfl⟩, by unfold State.SinkAccepts; decide, rfl, rfl⟩

theorem witness_CommandsRefineTheEventFunction :
    (ready { Opr.zero with op := 7#3 } []).fbuf.wf = true ∧ (ready { Opr.zero with op := 7#3 } []).AtStart ∧
    (ready { Opr.zero with op := 2#3 } []).fbuf.wf = true ∧ (ready { Opr.zero with op := 2#3 } []).AtStart ∧
    ∀ n, (ready { Opr.zero with op := 2#3 } []).SinkAccepts n :=
  ⟨rfl, start_ready _ _, rfl, start_ready _ _, accepts_nil _⟩

/-- Two idle states with different pasts that meet the same host and the same sink, the second step's failure
included. -/
theorem witness_CommandsKeepNoHistory :
    let s : State := { State.reset with
      actions := [.command { Opr.zero with op := 3#3 }], answers := [.accept, .hold, .fail] }
    let s' : State := { s with fbuf := [(5, 0x7F#8)], acc := 9#7, err := 4#3, trace := [.dly 20#7] }
    s.Inv Config.cfg ∧ s'.Inv Config.cfg ∧ s.phase = .idle ∧ s'.phase = .idle ∧
    s.strict = s'.strict ∧ s.actions = s'.actions ∧ s.answers = s'.answers ∧
    (∃ t, Sys2Proof.core.run 1 s = .next t) ∧ ∃ t, Sys2Proof.core.run 1 s' = .next t :=
  ⟨⟨rfl, by decide, by decide, by decide, fun _ => by unfold State.AtRest; decide,
      fun h => absurd h (by decide)⟩,
    ⟨rfl, by decide, by decide, by decide, fun _ => by unfold State.AtRest; decide,
      fun h => absurd h (by decide)⟩, rfl, rfl, rfl, rfl, rfl, ⟨_, rfl⟩, ⟨_, rfl⟩⟩

theorem witness_WaitingSinksChangeNoEvent :
    let s : State := { State.reset with
      actions := [.command { Opr.zero with op := 3#3 }], answers := [.hold, .accept, .hold] }
    s.Inv Config.cfg ∧ s.phase = .idle ∧ s.actions = [.command { Opr.zero with op := 3#3 }] ∧
    ∀ a ∈ s.answers, a ≠ .fail :=
  ⟨⟨rfl, by decide, by decide, by decide, fun _ => by unfold State.AtRest; decide,
    fun h => absurd h (by decide)⟩, rfl, rfl, by decide⟩

theorem witness_InitIsItsThreeMessages :
    (ready Opr.zero (List.replicate 91 .accept)).fbuf.wf = true ∧
    (ready Opr.zero (List.replicate 91 .accept)).AtStart ∧
    (ready Opr.zero (List.replicate 91 .accept)).SinkAccepts 91 :=
  ⟨rfl, start_ready _ _, fun _ h => List.eq_of_mem_replicate (List.mem_of_mem_take h)⟩

/-- A delay pending that no row has, a message sent to its end, one that does not fit, and no message. -/
theorem witness_PositionsOutsideTheSequenceStop :
    (slotOf (.playM1 5#7) = some .playM1 ∧ (encode (.playM1 5#7)).length ≤ 78 ∧
      ({ playing with dpend := true } : State).dpend = true ∧ slotDelay .playM1 = none ∧
      ({ playing with bi := 3#7 } : State).dpend = false ∧
      (encode (.playM1 5#7)).length ≤ ({ playing with bi := 3#7 } : State).bi.toNat) ∧
    78 < (List.replicate 79 0x00#8 : List Byte).length ∧
    ((ready { Opr.zero with op := 6#3 } []).phase = .run ∧
      (ready { Opr.zero with op := 6#3 } []).actions = [] ∧
      (ready { Opr.zero with op := 6#3 } []).slot = none) := by decide

theorem witness_EveryStepKeepsTheInvariant :
    playing.Inv Config.cfg ∧ ∃ t, step playing = .next t := by
  have h : fetchWith Config.cfg playing = .run (.playM1 5#7) playing := rfl
  exact ⟨playing_inv, _, by simp only [step, h]; rfl⟩

theorem witness_NoStepStopsTheMachine : delaying.Inv Config.cfg := delaying_inv

theorem witness_RecordedEventsAreWholeMessages :
    delaying.Inv Config.cfg ∧ (∀ e ∈ delaying.trace, IsEvent Config.cfg e) ∧
    ∃ t, step { delaying with answers := [.hold] } = .next t := by
  refine ⟨delaying_inv, fun e he => ?_, ?_⟩
  · have : e = .wr [0xC5#8, 0x01#8] := by simpa [delaying] using he
    subst this
    exact ⟨.initM1, .initM1, rfl, rfl⟩
  · have h : fetchWith Config.cfg { delaying with answers := [.hold] } =
        .run .initM1 { delaying with answers := [.hold] } := rfl
    exact ⟨_, by simp only [step, h]; rfl⟩

theorem witness_RunningCommandsComplete :
    playing.Inv Config.cfg ∧ playing.phase = .run ∧ playing.actions = [] := ⟨playing_inv, rfl, rfl⟩

end Sys2Proof.Tests
end

section
/-! PROOFS. The family `10_state.md`: the values after reset (R34), and statelessness (R13): two machines that meet
the same host and the same sink stay in step, whatever their pasts were. -/

namespace Sys2Proof.Machine

/-- Settles O15: every clause is a field of `State.reset`. -/
theorem resetLeavesTheTableOfR34 : Obligations.ResetLeavesTheTableOfR34 :=
  ⟨rfl, rfl, rfl, rfl, rfl, rfl, rfl, rfl, rfl, rfl, rfl, rfl, rfl⟩

/-! ### Two lists that grow by the same elements -/

/-- `m` and `m'` are `l` and `l'` with the same elements added. -/
def SameTail {α : Type} (l l' m m' : List α) : Prop := ∃ x, m = l ++ x ∧ m' = l' ++ x

theorem SameTail.refl {α : Type} (l l' : List α) : SameTail l l' l l' := ⟨[], by simp⟩

theorem SameTail.append {α : Type} {l l' m m' : List α} (h : SameTail l l' m m') (x : List α) :
    SameTail l l' (m ++ x) (m' ++ x) := by
  obtain ⟨y, rfl, rfl⟩ := h
  exact ⟨y ++ x, by simp⟩

/-! ### What an instant finds, case by case -/

section
variable {s : State} {rest : List HostAction} (c : CfgConst)

theorem fetchWith_reset (ha : s.actions = .reset :: rest) :
    fetchWith c s = .noInstr (State.resetInput { s with done := none, actions := rest }) := by
  simp only [fetchWith, ha]

theorem fetchWith_writeStrict {v : Bool} (ha : s.actions = .writeStrict v :: rest) :
    fetchWith c s = .noInstr { s with done := none, actions := rest, strict := v } := by
  simp only [fetchWith, ha]

theorem fetchWith_read {r : HostReg} (ha : s.actions = .read r :: rest) :
    fetchWith c s =
      .noInstr { s with done := none, actions := rest, reads := s.reads ++ [(r, s.readReg r)] } := by
  simp only [fetchWith, ha]
  cases r <;> rfl

theorem fetchWith_command_idle {o : Opr} (ha : s.actions = .command o :: rest) (hp : s.phase = .idle) :
    fetchWith c s = .run (decodeOp o.op) (State.accept o { s with done := none, actions := rest }) := by
  simp only [fetchWith, ha, hp]

theorem fetchWith_command_run {o : Opr} (ha : s.actions = .command o :: rest) (hp : s.phase = .run) :
    fetchWith c s = resume c { s with done := none } := by
  simp only [fetchWith, ha, hp]

theorem fetchWith_pass_idle (ha : s.actions = .pass :: rest) (hp : s.phase = .idle) :
    fetchWith c s = .noInstr { s with done := none, actions := rest } := by
  simp only [fetchWith, ha, hp]

theorem fetchWith_pass_run (ha : s.actions = .pass :: rest) (hp : s.phase = .run) :
    fetchWith c s = resume c { s with done := none, actions := rest } := by
  simp only [fetchWith, ha, hp]

theorem fetchWith_nil_idle (ha : s.actions = []) (hp : s.phase = .idle) :
    fetchWith c s = .noInstr { s with done := none } := by
  simp only [fetchWith, ha, hp]

theorem fetchWith_nil_run (ha : s.actions = []) (hp : s.phase = .run) :
    fetchWith c s = resume c { s with done := none } := by
  simp only [fetchWith, ha, hp]

end

/-! ### Machines in step -/

/-- The machines that started at `b` and `b'` are in step at `s` and `s'`: everything the next events depend on is
the same, except the message in the buffer, and both have added the same events, bytes and codes since. `OPR` counts
only while a command runs (R15). The accumulator, `STATUS.err`, the ports and the host's reads may differ. -/
structure InStep (b b' s s' : State) : Prop where
  phase   : s.phase = s'.phase
  strict  : s.strict = s'.strict
  mi      : s.mi = s'.mi
  bi      : s.bi = s'.bi
  dpend   : s.dpend = s'.dpend
  actions : s.actions = s'.actions
  answers : s.answers = s'.answers
  opr     : s.phase = .run → s.opr = s'.opr
  wf      : s.fbuf.wf = true
  wf'     : s'.fbuf.wf = true
  trace   : SameTail b.trace b'.trace s.trace s'.trace
  wire    : SameTail b.wire b'.wire s.wire s'.wire
  codes   : SameTail b.codes b'.codes s.codes s'.codes

/-- In step with the same message in the buffer. -/
structure InStepOnFrame (b b' s s' : State) : Prop extends InStep b b' s s' where
  frame : s.frame = s'.frame

/-- In step between two instants: while a command runs, its message in the buffer is the same (R45). -/
structure InStepBetween (b b' s s' : State) : Prop extends InStep b b' s s' where
  frame : s.phase = .run → s.frame = s'.frame

/-- Two computations that both end with a value end with related ones. -/
def OkAgree {α : Type} (R : α → α → Prop) (r r' : Except Fault α) : Prop :=
  ∀ a a', r = .ok a → r' = .ok a' → R a a'

/-- Two transactions got equally far, to related states. -/
def ProgressAgree (R : State → State → Prop) (p p' : Progress) : Prop :=
  (∃ t t', p = .more t ∧ p' = .more t' ∧ R t t') ∨ (∃ t t', p = .stop t ∧ p' = .stop t' ∧ R t t')

section
variable {b b' s s' t t' : State}

theorem InStepOnFrame.between (h : InStepOnFrame b b' s s') : InStepBetween b b' s s' :=
  { h with frame := fun _ => h.frame }

theorem InStepOnFrame.okAgree_ok (h : InStepOnFrame b b' s s') :
    OkAgree (InStepBetween b b') (.ok s) (.ok s') := by
  rintro _ _ ⟨⟩ ⟨⟩
  exact h.between

/-! ### What each update of the state keeps -/

/-- Idle machines in step need not hold the same message. -/
theorem InStep.between_of_idle (h : InStep b b' s s') (hi : s.phase = .idle) : InStepBetween b b' s s' :=
  { h with frame := fun hr => absurd (hi.symm.trans hr) (by decide) }

theorem InStep.complete (h : InStep b b' s s') (code : Code) :
    InStep b b' (s.complete code) (s'.complete code) :=
  { h with
    phase := rfl, mi := rfl, bi := rfl, dpend := rfl
    opr := fun hr => absurd hr (by simp)
    codes := h.codes.append [code] }

theorem InStep.okAgree_complete (h : InStep b b' s s') (code : Code) :
    OkAgree (InStepBetween b b') (.ok (s.complete code)) (.ok (s'.complete code)) := by
  rintro _ _ ⟨⟩ ⟨⟩
  exact (h.complete code).between_of_idle rfl

/-- Reset leaves nothing the machines could differ in but what they added before (R155). -/
theorem InStep.resetInput (h : InStep b b' s s') (rest : List HostAction) :
    InStepBetween b b' (State.resetInput { s with done := none, actions := rest })
      (State.resetInput { s' with done := none, actions := rest }) :=
  InStep.between_of_idle
    { phase := rfl, strict := rfl, mi := rfl, bi := rfl, dpend := rfl, actions := rfl, answers := h.answers
      opr := fun _ => rfl, wf := rfl, wf' := rfl, trace := h.trace, wire := h.wire, codes := h.codes } rfl

theorem InStepOnFrame.complete (h : InStepOnFrame b b' s s') (code : Code) :
    InStepOnFrame b b' (s.complete code) (s'.complete code) :=
  { h.toInStep.complete code with frame := h.frame }

theorem InStepOnFrame.setAnswers (h : InStepOnFrame b b' s s') (as : List SinkAnswer) :
    InStepOnFrame b b' { s with answers := as } { s' with answers := as } :=
  { h with answers := rfl }

theorem InStepOnFrame.byteAccepted (h : InStepOnFrame b b' s s') (c : Byte) :
    InStepOnFrame b b' (s.byteAccepted c) (s'.byteAccepted c) :=
  { h with
    bi := congrArg (· + 1#7) h.bi
    wire := h.wire.append [c] }

theorem InStepOnFrame.messageSent (h : InStepOnFrame b b' s s') :
    InStepOnFrame b b' s.messageSent s'.messageSent :=
  { h with
    mi := congrArg (· + 1#3) h.mi
    bi := rfl
    trace := by
      rw [State.messageSent_trace, State.messageSent_trace, h.frame]
      exact h.trace.append _ }

/-- A delay done (R30). -/
theorem InStepOnFrame.delayDone (h : InStepOnFrame b b' s s') (n : Millis) (as : List SinkAnswer) :
    InStepOnFrame b b' { s with answers := as, dly := none, dpend := false, trace := s.trace ++ [.dly n] }
      { s' with answers := as, dly := none, dpend := false, trace := s'.trace ++ [.dly n] } :=
  { h with
    dpend := rfl, answers := rfl
    trace := h.trace.append _ }

/-- Machines in step whose buffers were filled with the same message, nothing but the accumulator changed beside, are
in step on it. -/
theorem InStep.refill (h : InStep b b' s s')
    (ht : t = { s with fbuf := t.fbuf, flen := t.flen, acc := t.acc })
    (ht' : t' = { s' with fbuf := t'.fbuf, flen := t'.flen, acc := t'.acc })
    (hwf : t.fbuf.wf = true) (hwf' : t'.fbuf.wf = true) (hf : t.frame = t'.frame) :
    InStepOnFrame b b' t t' := by
  rw [ht, ht'] at hf ⊢
  exact { h with wf := hwf, wf' := hwf', frame := hf }

theorem InStep.load (h : InStep b b' s s') (bs : List Byte) :
    OkAgree (InStepOnFrame b b') (s.load bs) (s'.load bs) := by
  intro t t' e e'
  obtain ⟨-, ht, -, hf, hwf, -⟩ := State.load_spec bs s t h.wf e
  obtain ⟨-, ht', -, hf', hwf', -⟩ := State.load_spec bs s' t' h.wf' e'
  refine h.refill ?_ ?_ hwf hwf' (hf.trans hf'.symm)
  · rw [ht]
  · rw [ht']

/-! ### The Transport Sink -/

theorem sendByte_agree (h : InStepOnFrame b b' s s') (c : Byte) (last : Bool) :
    ProgressAgree (InStepOnFrame b b') (sendByte c last s) (sendByte c last s') := by
  unfold sendByte
  rw [← h.answers]
  cases s.answers with
  | nil => exact .inl ⟨_, _, rfl, rfl, h.byteAccepted c⟩
  | cons a as =>
    cases a with
    | accept => exact .inl ⟨_, _, rfl, rfl, (h.setAnswers as).byteAccepted c⟩
    | hold => exact .inr ⟨_, _, rfl, rfl, { h with answers := rfl }⟩
    | fail => exact .inr ⟨_, _, rfl, rfl, (h.setAnswers as).complete _⟩

theorem sendBytes_agree : ∀ (bs : List Byte) {s s' : State}, InStepOnFrame b b' s s' →
    ProgressAgree (InStepOnFrame b b') (sendBytes bs s) (sendBytes bs s')
  | [], _, _, h => .inl ⟨_, _, rfl, rfl, h⟩
  | c :: bs, _, _, h => by
    rw [sendBytes, sendBytes]
    rcases sendByte_agree h c bs.isEmpty with ⟨t, t', e, e', ht⟩ | ⟨t, t', e, e', ht⟩
    · rw [e, e']; exact sendBytes_agree bs ht
    · rw [e, e']; exact .inr ⟨t, t', rfl, rfl, ht⟩

theorem writeMessage_agree (h : InStepOnFrame b b' s s') :
    OkAgree (ProgressAgree (InStepOnFrame b b')) (writeMessage s) (writeMessage s') := by
  have hlen : s.flen.toNat = s'.flen.toNat := by
    rw [← State.frame_length, ← State.frame_length, h.frame]
  unfold writeMessage
  rw [← h.bi, ← h.frame, ← hlen]
  split
  · rcases sendBytes_agree (s.frame.drop s.bi.toNat) h with ⟨t, t', e, e', ht⟩ | ⟨t, t', e, e', ht⟩
    · rw [e, e']
      rintro _ _ ⟨⟩ ⟨⟩
      exact .inl ⟨_, _, rfl, rfl, ht.messageSent⟩
    · rw [e, e']
      rintro _ _ ⟨⟩ ⟨⟩
      exact .inr ⟨_, _, rfl, rfl, ht⟩
  · rintro _ _ ⟨⟩

theorem delay_agree (h : InStepOnFrame b b' s s') (n : Millis) :
    ProgressAgree (InStepOnFrame b b') (delay n s) (delay n s') := by
  unfold delay
  rw [← h.answers]
  cases s.answers with
  | nil => exact .inl ⟨_, _, rfl, rfl, h.delayDone n []⟩
  | cons a as =>
    cases a with
    | accept => exact .inl ⟨_, _, rfl, rfl, h.delayDone n as⟩
    | hold => exact .inr ⟨_, _, rfl, rfl, { h with answers := rfl, dpend := rfl }⟩
    | fail => exact .inr ⟨_, _, rfl, rfl, (h.setAnswers as).complete _⟩

theorem delayAfter_agree (h : InStepOnFrame b b' s s') (d : Option Millis) :
    ProgressAgree (InStepOnFrame b b') (delayAfter d s) (delayAfter d s') := by
  cases d with
  | none => exact .inl ⟨_, _, rfl, rfl, h⟩
  | some n => exact delay_agree h n

theorem transact_agree (h : InStepOnFrame b b' s s') (d : Option Millis) :
    OkAgree (ProgressAgree (InStepOnFrame b b')) (transact d s) (transact d s') := by
  cases hp : s.dpend with
  | true =>
    have hp' : s'.dpend = true := h.dpend.symm.trans hp
    cases d with
    | none => simp [OkAgree, transact, hp]
    | some n =>
      rw [transact_pending hp, transact_pending hp']
      rintro _ _ ⟨⟩ ⟨⟩
      exact delay_agree h n
  | false =>
    have hp' : s'.dpend = false := h.dpend.symm.trans hp
    have hw := writeMessage_agree h
    cases e : writeMessage s with
    | error f => simp [OkAgree, transact, hp, e]
    | ok p =>
      cases e' : writeMessage s' with
      | error f => simp [OkAgree, transact, hp', e']
      | ok p' =>
        rcases hw p p' e e' with ⟨t, t', rfl, rfl, ht⟩ | ⟨t, t', rfl, rfl, ht⟩
        · rw [transact_sent hp e, transact_sent hp' e']
          rintro _ _ ⟨⟩ ⟨⟩
          exact delayAfter_agree ht d
        · rw [transact_cut hp e, transact_cut hp' e']
          rintro _ _ ⟨⟩ ⟨⟩
          exact .inr ⟨t, t', rfl, rfl, ht⟩

/-! ### Messages and commands -/

/-- What a command does with the message in the buffer: its transaction, then `next` unless the step ends there. -/
def sendThen (d : Option Millis) (next : State → Except Fault State) (s : State) : Except Fault State :=
  match transact d s with
  | .error e => .error e
  | .ok (.stop t) => .ok t
  | .ok (.more t) => next t

/-- A message put in the buffer and sent, then `next`. -/
def loadThenSend (it : Item) (next : State → Except Fault State) (s : State) : Except Fault State :=
  match s.load it.bytes with
  | .error e => .error e
  | .ok t => sendThen it.delay next t

theorem runItems_cons (it : Item) (its : List Item) (s : State) :
    runItems (it :: its) s = loadThenSend it (runItems its) s := rfl

theorem emitMessage_eq (it : Item) (next : Option (List Byte)) (s : State) :
    emitMessage it next s = loadThenSend it (advance next) s := rfl

theorem sendEffect_eq (s : State) : sendEffect s = sendThen none (runItems []) s := rfl

/-- What follows a transaction keeps machines in step if it does so from every pair in step. -/
theorem sendThen_agree {next : State → Except Fault State} (d : Option Millis)
    (hn : ∀ {u u'}, InStep b b' u u' → OkAgree (InStepBetween b b') (next u) (next u'))
    (h : InStepOnFrame b b' s s') :
    OkAgree (InStepBetween b b') (sendThen d next s) (sendThen d next s') := by
  have htr := transact_agree h d
  unfold sendThen
  cases e : transact d s with
  | error f => rintro _ _ ⟨⟩
  | ok p =>
    cases e' : transact d s' with
    | error f => rintro _ _ _ ⟨⟩
    | ok p' =>
      rcases htr p p' e e' with ⟨t, t', rfl, rfl, ht⟩ | ⟨t, t', rfl, rfl, ht⟩
      · exact hn ht.toInStep
      · exact ht.okAgree_ok

theorem loadThenSend_agree {next : State → Except Fault State} (it : Item)
    (hn : ∀ {u u'}, InStep b b' u u' → OkAgree (InStepBetween b b') (next u) (next u'))
    (h : InStep b b' s s') :
    OkAgree (InStepBetween b b') (loadThenSend it next s) (loadThenSend it next s') := by
  have hload := h.load it.bytes
  unfold loadThenSend
  cases e : s.load it.bytes with
  | error f => rintro _ _ ⟨⟩
  | ok t =>
    cases e' : s'.load it.bytes with
    | error f => rintro _ _ _ ⟨⟩
    | ok t' => exact sendThen_agree it.delay hn (hload t t' e e')

theorem runItems_agree : ∀ (its : List Item) {s s' : State}, InStep b b' s s' →
    OkAgree (InStepBetween b b') (runItems its s) (runItems its s')
  | [], _, _, h => h.okAgree_complete codeOk
  | it :: its, _, _, h => by
    rw [runItems_cons, runItems_cons]
    exact loadThenSend_agree it (runItems_agree its) h

theorem advance_agree (next : Option (List Byte)) (h : InStep b b' s s') :
    OkAgree (InStepBetween b b') (advance next s) (advance next s') := by
  cases next with
  | none => exact h.okAgree_complete codeOk
  | some bs => exact fun t t' e e' => (h.load bs t t' e e').between

theorem emitMessage_agree (it : Item) (next : Option (List Byte)) (h : InStep b b' s s') :
    OkAgree (InStepBetween b b') (emitMessage it next s) (emitMessage it next s') := by
  rw [emitMessage_eq, emitMessage_eq]
  exact loadThenSend_agree it (advance_agree next) h

theorem controlWith_agree (wide : Bool) (bs : List Byte) (h : InStep b b' s s') :
    OkAgree (InStepBetween b b') (controlWith wide bs s) (controlWith wide bs s') := by
  unfold controlWith
  rw [← h.strict]
  split
  · exact h.okAgree_complete _
  · exact runItems_agree _ h

theorem autocenterWith_agree (c : CfgConst) (h : InStep b b' s s') (ho : s.opr = s'.opr) :
    OkAgree (InStepBetween b b') (autocenterWith c s) (autocenterWith c s') := by
  unfold autocenterWith
  rw [← ho]
  split
  · exact runItems_agree _ h
  · exact runItems_agree _ h

/-- EFFECT builds its frame from the operands alone (R107). -/
theorem effectWith_agree (c : CfgConst) (h : InStep b b' s s') (ho : s.opr = s'.opr) :
    OkAgree (InStepBetween b b') (effectWith c s) (effectWith c s') := by
  unfold effectWith
  rw [← ho, ← h.strict]
  cases categoryOf c s.opr.etype with
  | none => exact h.okAgree_complete _
  | some cat =>
    simp only
    split
    · exact h.okAgree_complete _
    · obtain ⟨t, e, ht, hf, -, -, hwf, -⟩ := buildEffect_spec c cat s h.wf
      obtain ⟨t', e', ht', hf', -, -, hwf', -⟩ := buildEffect_spec c cat s' h.wf'
      have hframe : t.frame = t'.frame := by rw [hf, hf', ho]
      rw [e, e']
      simp only [sendEffect_eq]
      exact sendThen_agree none (runItems_agree []) (h.refill ht ht' hwf hwf' hframe)

/-- A message row does one thing: it emits its message and what follows it. -/
theorem exec_message {i : Instr} {sl : Slot} (h : slotOf i = some sl) :
    ∃ it next, ∀ s, exec i s = outcome (emitMessage it next s) := by
  cases i
  case init | autocenter | effect | play | stop | modify | reserved6 | reserved7 => cases h
  all_goals exact ⟨_, _, fun _ => rfl⟩

/-- Machines in step on a running command get agreeing answers from every instruction; no arm of `exec` refuses. -/
theorem exec_agree (i : Instr) (h : InStep b b' s s') (hr : s.phase = .run) :
    ∃ r r', exec i s = outcome r ∧ exec i s' = outcome r' ∧ OkAgree (InStepBetween b b') r r' := by
  have ho := h.opr hr
  cases hsl : slotOf i with
  | some sl =>
    obtain ⟨it, next, hex⟩ := exec_message hsl
    exact ⟨_, _, hex s, hex s', emitMessage_agree it next h⟩
  | none =>
    cases i
    case init => exact ⟨_, _, rfl, rfl, runItems_agree (initItems Config.cfg) h⟩
    case autocenter => exact ⟨_, _, rfl, rfl, autocenterWith_agree Config.cfg h ho⟩
    case effect => exact ⟨_, _, rfl, rfl, effectWith_agree Config.cfg h ho⟩
    case play => exact ⟨_, _, rfl, rfl, by rw [← ho]; exact controlWith_agree _ _ h⟩
    case stop => exact ⟨_, _, rfl, rfl, by rw [← ho]; exact controlWith_agree _ _ h⟩
    case modify => exact ⟨_, _, rfl, rfl, by rw [← ho]; exact controlWith_agree _ _ h⟩
    case reserved6 => exact ⟨.ok _, .ok _, rfl, rfl, h.okAgree_complete _⟩
    case reserved7 => exact ⟨.ok _, .ok _, rfl, rfl, h.okAgree_complete _⟩
    all_goals cases hsl

theorem exec_keeps_inStep {i : Instr} (h : InStep b b' s s') (hr : s.phase = .run)
    (e : exec i s = .next t) (e' : exec i s' = .next t') : InStepBetween b b' t t' := by
  obtain ⟨r, r', hx, hx', hag⟩ := exec_agree i h hr
  exact hag t t' (outcome_next.mp (hx.symm.trans e)) (outcome_next.mp (hx'.symm.trans e'))

/-! ### Steps and runs -/

/-- What two machines in step find to do at one instant: no instruction for either, or the same one for both. -/
inductive FetchedAgree (b b' : State) : Fetched → Fetched → Prop
  | noInstr {t t' : State} (h : InStepBetween b b' t t') : FetchedAgree b b' (.noInstr t) (.noInstr t')
  | run (i : Instr) {t t' : State} (h : InStep b b' t t') (hr : t.phase = .run) :
      FetchedAgree b b' (.run i t) (.run i t')
  | refuse (r : Refusal) : FetchedAgree b b' (.refuse r) (.refuse r)

/-- A running command's message is read from the operands, the position and the buffer. -/
theorem message_eq (c : CfgConst) (h : InStepBetween b b' s s') (hr : s.phase = .run) :
    s.message c = s'.message c := by
  simp only [State.message, State.slot, h.opr hr, h.frame hr, h.mi, h.dpend]

theorem resume_agree (c : CfgConst) (h : InStepBetween b b' s s') (hr : s.phase = .run) :
    FetchedAgree b b' (resume c s) (resume c s') := by
  unfold resume
  rw [← message_eq c h hr]
  cases s.message c with
  | none => exact .refuse _
  | some i => exact .run i h.toInStep hr

/-- The host's action and the phase decide what an instant finds; both are the same in step. -/
theorem fetchWith_agree (c : CfgConst) (h : InStepBetween b b' s s') :
    FetchedAgree b b' (fetchWith c s) (fetchWith c s') := by
  have ha' := h.actions.symm
  have hp' := h.phase.symm
  match ha : s.actions, hp : s.phase with
  | .reset :: rest, _ =>
    rw [fetchWith_reset c ha, fetchWith_reset c (ha'.trans ha)]
    exact .noInstr (h.toInStep.resetInput rest)
  | .writeStrict v :: rest, _ =>
    rw [fetchWith_writeStrict c ha, fetchWith_writeStrict c (ha'.trans ha)]
    exact .noInstr { h with actions := rfl, strict := rfl }
  | .read r :: rest, _ =>
    rw [fetchWith_read c ha, fetchWith_read c (ha'.trans ha)]
    exact .noInstr { h with actions := rfl }
  | .command o :: rest, .idle =>
    rw [fetchWith_command_idle c ha hp, fetchWith_command_idle c (ha'.trans ha) (hp'.trans hp)]
    exact .run _ { h with phase := rfl, actions := rfl, opr := fun _ => rfl } rfl
  | .command o :: rest, .run =>
    rw [fetchWith_command_run c ha hp, fetchWith_command_run c (ha'.trans ha) (hp'.trans hp)]
    exact resume_agree c { h with } hp
  | .pass :: rest, .idle =>
    rw [fetchWith_pass_idle c ha hp, fetchWith_pass_idle c (ha'.trans ha) (hp'.trans hp)]
    exact .noInstr { h with actions := rfl }
  | .pass :: rest, .run =>
    rw [fetchWith_pass_run c ha hp, fetchWith_pass_run c (ha'.trans ha) (hp'.trans hp)]
    exact resume_agree c { h with actions := rfl } hp
  | [], .idle =>
    rw [fetchWith_nil_idle c ha hp, fetchWith_nil_idle c (ha'.trans ha) (hp'.trans hp)]
    exact .noInstr { h with }
  | [], .run =>
    rw [fetchWith_nil_run c ha hp, fetchWith_nil_run c (ha'.trans ha) (hp'.trans hp)]
    exact resume_agree c { h with } hp

theorem step_keeps_inStep (h : InStepBetween b b' s s') (e : step s = .next t) (e' : step s' = .next t') :
    InStepBetween b b' t t' := by
  have hf := fetchWith_agree Config.cfg h
  unfold step at e e'
  generalize fetchWith Config.cfg s = f at hf e
  generalize fetchWith Config.cfg s' = f' at hf e'
  cases hf with
  | noInstr hu => cases e; cases e'; exact hu
  | run i hu hr => exact exec_keeps_inStep hu hr e e'
  | refuse r => cases e

/-- A run that ends is its first step and the run after it. -/
theorem core_run_succ {n : Nat} (e : Sys2Proof.core.run (n + 1) s = .next t) :
    ∃ u, step s = .next u ∧ Sys2Proof.core.run n u = .next t := by
  cases hs : step s with
  | next u => exact ⟨u, rfl, by rw [← core_run_next n hs]; exact e⟩
  | fault f =>
    have hs' : Sys2Proof.core.step s = .fault f := hs
    simp [Host.Core.run, hs'] at e
  | refused r =>
    have hs' : Sys2Proof.core.step s = .refused r := hs
    simp [Host.Core.run, hs'] at e

theorem run_keeps_inStep : ∀ (n : Nat) {s s' t t' : State}, InStepBetween b b' s s' →
    Sys2Proof.core.run n s = .next t → Sys2Proof.core.run n s' = .next t' → InStepBetween b b' t t'
  | 0, _, _, _, _, h, e, e' => by cases e; cases e'; exact h
  | n + 1, _, _, _, _, h, e, e' => by
    obtain ⟨u, hu, er⟩ := core_run_succ e
    obtain ⟨u', hu', er'⟩ := core_run_succ e'
    exact run_keeps_inStep n (step_keeps_inStep h hu hu') er er'

end

/-- Idle machines with the same mode, host and sink are in step from where they stand: nothing of an earlier command
is left (R35). -/
theorem inStep_of_idle {s s' : State} (hi : s.Inv Config.cfg) (hi' : s'.Inv Config.cfg) (hp : s.phase = .idle)
    (hp' : s'.phase = .idle) (hst : s.strict = s'.strict) (hac : s.actions = s'.actions)
    (han : s.answers = s'.answers) : InStepBetween s s' s s' := by
  obtain ⟨hwf, -, -, -, hrest, -⟩ := hi
  obtain ⟨hwf', -, -, -, hrest', -⟩ := hi'
  obtain ⟨hmi, hbi, hd, -, -⟩ := hrest hp
  obtain ⟨hmi', hbi', hd', -, -⟩ := hrest' hp'
  exact InStep.between_of_idle
    { phase := hp.trans hp'.symm, strict := hst, mi := hmi.trans hmi'.symm, bi := hbi.trans hbi'.symm
      dpend := hd.trans hd'.symm, actions := hac, answers := han
      opr := fun hr => absurd (hp.symm.trans hr) (by decide)
      wf := hwf, wf' := hwf', trace := .refl _ _, wire := .refl _ _, codes := .refl _ _ } hp

/-- Settles O41: idle machines are in step, every step keeps them in step, and what they have added since is the
same. -/
theorem commandsKeepNoHistory : Obligations.CommandsKeepNoHistory := by
  intro n s s' t t' hi hi' hp hp' hst hac han e e'
  have h := run_keeps_inStep n (inStep_of_idle hi hi' hp hp' hst hac han) e e'
  obtain ⟨evs, htr, htr'⟩ := h.trace
  obtain ⟨bytes, hw, hw'⟩ := h.wire
  obtain ⟨codes, hc, hc'⟩ := h.codes
  exact ⟨evs, bytes, codes, htr, htr', hw, hw', hc, hc', h.answers, h.phase⟩

end Sys2Proof.Machine
end

section
/-! PROOFS. The family `30_encoding.md`: the type bytes outside the known set (R79, R115). -/

namespace Sys2Proof.Machine

/-! ### How many type bytes have a kind -/

/-- The byte values that have a kind, as numbers, in the order of R105. -/
def knownTypes (c : CfgConst) : List Nat := Kind.all.map fun k => (c.typeCode k).toNat

theorem mem_knownTypes {c : CfgConst} {n : Nat} : n ∈ knownTypes c ↔ ∃ k, (c.typeCode k).toNat = n := by
  simp [knownTypes, Kind.mem_all]

theorem length_knownTypes (c : CfgConst) : (knownTypes c).length = 11 := by
  simp [knownTypes, Kind.all]

/-- The type codes are pairwise distinct (R7). -/
theorem nodup_knownTypes {c : CfgConst} (h : c.wellFormed = true) : (knownTypes c).Nodup := by
  obtain ⟨-, hinj, -⟩ := wellFormed_spec c h
  have hall : Kind.all.Nodup := by decide
  exact hall.map fun k j e => hinj k j (BitVec.eq_of_toNat_eq e)

theorem kindOf_isNone_iff {c : CfgConst} {n : Nat} (hn : n < 256) :
    (kindOf c (BitVec.ofNat 8 n)).isNone = true ↔ n ∉ knownTypes c := by
  have hb (b : Byte) : b = BitVec.ofNat 8 n ↔ b.toNat = n := by
    rw [← BitVec.toNat_inj, BitVec.toNat_ofNat, Nat.mod_eq_of_lt hn]
  simp [kindOf_none, mem_knownTypes, hb]

/-- Among the 256 byte values, those with a kind are the type codes in some order. -/
theorem filter_known_perm {c : CfgConst} (h : c.wellFormed = true) :
    ((List.range 256).filter fun n => !(kindOf c (BitVec.ofNat 8 n)).isNone).Perm (knownTypes c) := by
  refine (List.perm_ext_iff_of_nodup (List.nodup_range.filter _) (nodup_knownTypes h)).mpr fun n => ?_
  rw [List.mem_filter, List.mem_range, Bool.not_eq_true', ← Bool.not_eq_true]
  constructor
  · rintro ⟨hn, hk⟩
    exact not_not.mp (mt (kindOf_isNone_iff hn).mpr hk)
  · intro hm
    obtain ⟨k, rfl⟩ := mem_knownTypes.mp hm
    have hn := (c.typeCode k).isLt
    exact ⟨hn, fun hk => (kindOf_isNone_iff hn).mp hk hm⟩

/-- R79's count: the 256 byte values less the 11 type codes. -/
theorem length_filter_unknown {c : CfgConst} (h : c.wellFormed = true) :
    ((List.range 256).filter fun n => (kindOf c (BitVec.ofNat 8 n)).isNone).length = 245 := by
  have hsum := List.length_eq_length_filter_add (l := List.range 256)
    fun n => (kindOf c (BitVec.ofNat 8 n)).isNone
  rw [(filter_known_perm h).length_eq, length_knownTypes, List.length_range] at hsum
  omega

/-! ### EFFECT with an unknown type -/

/-- A command that completes at once ends with no event, no byte and no answer taken (R141). -/
theorem State.complete_ends (code : Code) (s : State) : Ends s [] [] s.answers code (s.complete code) := by
  constructor <;> simp

/-- R115: an unknown type ends EFFECT before its range is judged or anything is written. -/
theorem exec_effect_unknown {s : State} (h : categoryOf Config.cfg s.opr.etype = none) :
    exec .effect s = .next (s.complete codeInvalidEffectType) := by
  change outcome (effectWith Config.cfg s) = _
  rw [outcome_next, effectWith, h]

/-- Settles O9: the count is the complement of the type codes, and EFFECT with an unknown type is its completion. -/
theorem unknownEffectTypesAreRejected : Obligations.UnknownEffectTypesAreRejected :=
  ⟨fun _ hc => length_filter_unknown hc, fun s hs =>
    ⟨s.complete codeInvalidEffectType, exec_effect_unknown hs, State.complete_ends _ s, rfl, rfl, rfl⟩⟩

end Sys2Proof.Machine
end

section
/-! PROOFS. The family `40_split14.md`: SPLIT14 and LOHI (R84, R85, R87), MASK7 (R88), RECON14 and the round
trip (R89, R90). Two bytes are compared by their values, so each law is one of division by 128. -/

namespace Sys2Proof.Machine

/-! ### SPLIT14 -/

theorem split14_lo_le (v : Nat) : (split14 v).1.toNat ≤ 0x7F := by
  rw [toNat_split14_lo]; omega

theorem split14_hi_le (v : Nat) : (split14 v).2.toNat ≤ 0x7F := by
  rw [toNat_split14_hi]; omega

/-- SPLIT14 is fixed by its two residues. -/
theorem split14_eq_iff {v : Nat} {l h : Byte} :
    split14 v = (l, h) ↔ v % 128 = l.toNat ∧ v / 128 % 128 = h.toNat := by
  rw [Prod.ext_iff, ← BitVec.toNat_inj, ← BitVec.toNat_inj, toNat_split14_lo, toNat_split14_hi]

/-- R85: what lies above the low 14 bits has no part in either half. -/
theorem split14_mod (v : Nat) : split14 v = split14 (v % 16384) := by
  have hlo : v % 128 = (split14 (v % 16384)).1.toNat := by rw [toNat_split14_lo]; omega
  have hhi : v / 128 % 128 = (split14 (v % 16384)).2.toNat := by rw [toNat_split14_hi]; omega
  exact split14_eq_iff.mpr ⟨hlo, hhi⟩

/-- Settles O1: both halves are residues modulo 128, of `v` and of `v / 128`; the examples are evaluated. -/
theorem split14TakesTheTwoHalves : Obligations.Split14TakesTheTwoHalves :=
  ⟨fun v => ⟨rfl, toNat_split14_lo v, toNat_split14_hi v, split14_lo_le v, split14_hi_le v, split14_mod v, rfl⟩,
    by decide⟩

/-! ### MASK7 -/

theorem mask7_eq_split14_lo (v : Nat) : mask7 v = (split14 v).1 := rfl

theorem toNat_mask7_of_le {v : Nat} (h : v ≤ 0x7F) : (mask7 v).toNat = v := by
  rw [toNat_mask7]; exact Nat.mod_eq_of_lt (Nat.lt_succ_of_le h)

/-- Settles O2: MASK7 is the residue modulo 128, which a value below 128 is itself. -/
theorem mask7KeepsTheLowSevenBits : Obligations.Mask7KeepsTheLowSevenBits :=
  ⟨fun v => ⟨rfl, toNat_mask7 v, mask7_eq_split14_lo v, toNat_mask7_of_le⟩, by decide⟩

/-! ### RECON14 -/

/-- R89: a low half below 128 shares no bit with the shifted high half, so the disjunction is the sum. -/
theorem recon14_eq_add {l : Byte} (hl : l.toNat ≤ 0x7F) (h : Byte) :
    recon14 l h = h.toNat * 128 + l.toNat := by
  have hlt : l.toNat < 2 ^ 7 := Nat.lt_succ_of_le hl
  rw [recon14, ← Nat.shiftLeft_add_eq_or_of_lt hlt, Nat.shiftLeft_eq]

theorem recon14_le {l h : Byte} (hl : l.toNat ≤ 0x7F) (hh : h.toNat ≤ 0x7F) : recon14 l h ≤ 16383 := by
  rw [recon14_eq_add hl]; omega

theorem split14_recon14 {l h : Byte} (hl : l.toNat ≤ 0x7F) (hh : h.toNat ≤ 0x7F) :
    split14 (recon14 l h) = (l, h) := by
  rw [split14_eq_iff, recon14_eq_add hl]; omega

theorem recon14_split14 (v : Nat) : recon14 (split14 v).1 (split14 v).2 = v % 16384 := by
  rw [recon14_eq_add (split14_lo_le v), toNat_split14_lo, toNat_split14_hi]; omega

theorem recon14_split14_of_le {v : Nat} (h : v ≤ 16383) : recon14 (split14 v).1 (split14 v).2 = v := by
  rw [recon14_split14]; exact Nat.mod_eq_of_lt (Nat.lt_succ_of_le h)

/-- Settles O3: RECON14 is `128 * hi + lo`, from which division by 128 gives back the two halves. -/
theorem recon14InvertsSplit14 : Obligations.Recon14InvertsSplit14 :=
  ⟨fun _ h hl hh => ⟨rfl, recon14_eq_add hl h, recon14_le hl hh, split14_recon14 hl hh⟩,
    recon14_split14, fun _ => recon14_split14_of_le, by decide⟩

end Sys2Proof.Machine
end

section
/-! PROOFS. The family `41_checksum.md`: CSUM7 (R91) and the zero-sum property (R92), for any bytes and for every
effect frame. The value `toNat_csum7` of the checksum makes each law one of residues modulo 128. -/

namespace Sys2Proof.Machine

/-! ### CSUM7 -/

theorem csum7_le (s : List Byte) : (csum7 s).toNat ≤ 0x7F := by
  rw [toNat_csum7]; omega

/-- R91: seven bits fit a byte, so nothing of the masked difference is lost. -/
theorem toNat_csum7_eq_and (s : List Byte) :
    (csum7 s).toNat = (0x80 - (s.map BitVec.toNat).sum % 128) &&& 0x7F := by
  have hle : (0x80 - (s.map BitVec.toNat).sum % 128) &&& 0x7F ≤ 0x7F := Nat.and_le_right
  rw [csum7, BitVec.toNat_ofNat]
  exact Nat.mod_eq_of_lt (by omega)

/-- Settles O4: the checksum byte is the masked difference by definition and keeps its value; the example is
evaluated. -/
theorem checksumIsTheMaskedDifference : Obligations.ChecksumIsTheMaskedDifference :=
  ⟨fun s => ⟨toNat_csum7_eq_and s, rfl, csum7_le s⟩, by decide⟩

/-! ### The zero-sum property -/

theorem sum_add_csum7 (s : List Byte) : ((s.map BitVec.toNat).sum + (csum7 s).toNat) % 128 = 0 := by
  rw [toNat_csum7]; omega

theorem csum7_eq_neg_sum (s : List Byte) :
    ((csum7 s).toNat : Int) = (-((s.map BitVec.toNat).sum : Int)) % 128 := by
  rw [toNat_csum7]; omega

theorem sum_append_csum7 (s : List Byte) : ((s ++ [csum7 s]).map BitVec.toNat).sum % 128 = 0 := by
  rw [List.map_append, List.sum_append, List.map_singleton, List.sum_singleton]
  exact sum_add_csum7 s

/-- R67, R74: without its header and its terminator, an effect frame is the summed bytes and their checksum. -/
theorem effectFrame_drop_dropLast (c : CfgConst) (cat : Category) (o : Opr) :
    ((effectFrame c cat o).drop 5).dropLast =
      (effectPayload c cat o).drop 5 ++ [csum7 ((effectPayload c cat o).drop 5)] := by
  have h5 : 5 ≤ (effectPayload c cat o).length := by
    have := (length_effectPayload c cat o).2
    omega
  rw [effectFrame, List.drop_append_of_le_length h5, List.dropLast_append_cons]
  rfl

/-- Settles O7: the checksum is the negated sum modulo 128, and an effect frame carries the checksum of what
stands between its header and it. -/
theorem effectFramesSumToZero : Obligations.EffectFramesSumToZero :=
  ⟨fun s => ⟨sum_add_csum7 s, toNat_csum7 s, csum7_eq_neg_sum s⟩, fun c cat o => by
    rw [effectFrame_drop_dropLast]
    exact sum_append_csum7 _⟩

end Sys2Proof.Machine
end

section
/-! PROOFS. The family `42_framer_handshake.md`: INIT's three messages and two gaps (R98 to R100), for every instance of
`CFG_CONST`. -/

namespace Sys2Proof.Machine

/-! ### The messages of INIT -/

@[simp] theorem length_initMsg3 (c : CfgConst) : (initMsg3 c).length = 78 := List.length_ofFn

theorem itemsFit_initItems (c : CfgConst) : ItemsFit (initItems c) := by
  simp [ItemsFit, initItems, initMsg1, initMsg2, sysexHeader]

/-- R99, R100: 20 ms after message 1, 57 ms after message 2, none after message 3; every byte of messages 1 and 2 is
fixed. -/
theorem itemsEvents_initItems (c : CfgConst) :
    itemsEvents (initItems c) =
      [.wr [0xC5#8, 0x01#8], .dly 20#7,
       .wr [0xF0#8, 0x00#8, 0x01#8, 0x0A#8, 0x01#8, 0x10#8, 0x05#8, 0x6B#8, 0xF7#8], .dly 57#7,
       .wr (initMsg3 c)] := rfl

/-- INIT takes 91 answers of the sink: 2 + 9 + 78 for its bytes and one for each of the two delays. -/
theorem answersOf_initItems (c : CfgConst) : answersOf (itemsEvents (initItems c)) = 91 := by
  simp [itemsEvents_initItems, answersOf, Event.answers]

/-! ### INIT -/

/-- INIT when the sink accepts, under any instance. Message 3 stays in the buffer because it is loaded last, and the
indices above it are untouched because no message of INIT is longer. -/
theorem initWith_accept (c : CfgConst) {s : State} (hwf : s.fbuf.wf = true) (hs : s.AtStart)
    (ha : s.SinkAccepts 91) :
    ∃ t, initWith c s = .ok t ∧ Completes s (itemsEvents (initItems c)) codeOk t ∧ t.acc = s.acc ∧
      Holds s (initMsg3 c) t := by
  rw [← answersOf_initItems c] at ha
  obtain ⟨t, hrun, hcompletes, hacc, -, hlast, habove⟩ :=
    runItems_accept (initItems c) s (itemsFit_initItems c) hwf hs ha
  refine ⟨t, hrun, hcompletes, hacc, hlast _ rfl, fun a h3 => habove a fun it hit => ?_⟩
  calc it.bytes.length
    _ ≤ 78 := (itemsFit_initItems c it hit).2
    _ = (initMsg3 c).length := (length_initMsg3 c).symm
    _ ≤ a := h3

/-- Settles O22: the run of INIT under `Config.cfg`, with its events written out byte by byte. -/
theorem initSendsTheHandshake : Obligations.InitSendsTheHandshake := by
  intro s hwf hs ha
  obtain ⟨t, hinit, hcompletes, hacc, hholds⟩ := initWith_accept Config.cfg hwf hs ha
  rw [itemsEvents_initItems] at hcompletes
  exact ⟨t, outcome_next.mpr hinit, hcompletes, length_initMsg3 _, hacc, hholds⟩

end Sys2Proof.Machine
end

section
/-! PROOFS. The family `other`, part 1: decoding and encoding at a place (R60 to R80), the lengths and first bytes of
the messages (R60), which bytes are 7-bit-safe (R75), and the multiplexer (R105, R106). -/

namespace Sys2Proof.Machine

/-! ### The multiplexer (R106) -/

theorem kindOf_eq_some {c : CfgConst} (h : c.wellFormed = true) {b : Byte} {k : Kind} :
    kindOf c b = some k ↔ c.typeCode k = b := by
  constructor
  · exact kindOf_some
  · rintro rfl
    exact kindOf_typeCode c h k

theorem categoryOf_typeCode {c : CfgConst} (h : c.wellFormed = true) (k : Kind) :
    categoryOf c (c.typeCode k) = some (categoryOfKind k) := by
  rw [categoryOf, kindOf_typeCode c h, Option.map_some]

theorem categoryOf_eq_none {c : CfgConst} {b : Byte} : categoryOf c b = none ↔ kindOf c b = none := by
  rw [categoryOf, Option.map_eq_none_iff]

theorem categoryOf_eq_some {c : CfgConst} {b : Byte} {cat : Category} (h : categoryOf c b = some cat) :
    ∃ k, c.typeCode k = b ∧ categoryOfKind k = cat := by
  obtain ⟨k, hk, hcat⟩ := Option.map_eq_some_iff.mp h
  exact ⟨k, kindOf_some hk, hcat⟩

/-- Settles O8: the select function inverts `TYPE_CODE`, and the category is the selected kind's. -/
theorem typeCodeSelectsItsKind : Obligations.TypeCodeSelectsItsKind := by
  intro c hc
  have hcat := categoryOf_typeCode hc
  refine ⟨fun b k => kindOf_eq_some hc, fun b => kindOf_none, ?_, ?_, hcat .friction,
    fun b => categoryOf_eq_none⟩
  · simp [hcat, categoryOfKind]
  · simp [hcat, categoryOfKind]

/-! ### Effect frames as rows -/

/-- The kind an effect row belongs to (R116 to R126). -/
def effectKind : Instr → Option Kind
  | .effectConstant _ => some .constant
  | .effectSine _ => some .sine
  | .effectSquare _ => some .square
  | .effectRamp _ => some .ramp
  | .effectTriangle _ => some .triangle
  | .effectSawtoothDown _ => some .sawtoothDown
  | .effectSawtoothUp _ => some .sawtoothUp
  | .effectSpring _ => some .spring
  | .effectDamper _ => some .damper
  | .effectInertia _ => some .inertia
  | .effectFriction _ => some .friction
  | _ => none

/-- The row of one kind that a frame fits. -/
def decodeKind (bs : List Byte) : Kind → Option Instr
  | .constant => (decodePeriodic bs).map .effectConstant
  | .sine => (decodePeriodic bs).map .effectSine
  | .square => (decodePeriodic bs).map .effectSquare
  | .ramp => (decodePeriodic bs).map .effectRamp
  | .triangle => (decodePeriodic bs).map .effectTriangle
  | .sawtoothDown => (decodePeriodic bs).map .effectSawtoothDown
  | .sawtoothUp => (decodePeriodic bs).map .effectSawtoothUp
  | .spring => (decodeCondition bs).map .effectSpring
  | .damper => (decodeCondition bs).map .effectDamper
  | .inertia => (decodeCondition bs).map .effectInertia
  | .friction => (decodeFriction bs).map .effectFriction

/-- The byte at index 6 selects the kind, and the kind the row (R106). -/
theorem decodeEffect_eq (c : CfgConst) (bs : List Byte) :
    decodeEffect c bs = ((bs[6]?).bind (kindOf c)).bind (decodeKind bs) := by
  unfold decodeEffect
  cases (bs[6]?).bind (kindOf c) with
  | none => rfl
  | some k => cases k <;> rfl

theorem decodeKind_encode {i : Instr} {k : Kind} (h : effectKind i = some k) :
    decodeKind (encode i) k = some i := by
  cases i
  case effectConstant m | effectSine m | effectSquare m | effectRamp m | effectTriangle m
      | effectSawtoothDown m | effectSawtoothUp m =>
    cases h
    exact congrArg (Option.map _) ((decodePeriodic_iff _ m).mpr rfl)
  case effectSpring m | effectDamper m | effectInertia m =>
    cases h
    exact congrArg (Option.map _) ((decodeCondition_iff _ m).mpr rfl)
  case effectFriction m =>
    cases h
    exact congrArg (Option.map _) ((decodeFriction_iff _ m).mpr rfl)
  all_goals cases h

theorem encode_of_decodeKind {bs : List Byte} {i : Instr} {k : Kind} (h : decodeKind bs k = some i) :
    encode i = bs ∧ slotOf i = some .effectM1 := by
  cases k
  case spring | damper | inertia =>
    obtain ⟨m, hm, rfl⟩ := Option.map_eq_some_iff.mp h
    exact ⟨((decodeCondition_iff bs m).mp hm).symm, rfl⟩
  case friction =>
    obtain ⟨m, hm, rfl⟩ := Option.map_eq_some_iff.mp h
    exact ⟨((decodeFriction_iff bs m).mp hm).symm, rfl⟩
  all_goals
    obtain ⟨m, hm, rfl⟩ := Option.map_eq_some_iff.mp h
    exact ⟨((decodePeriodic_iff bs m).mp hm).symm, rfl⟩

theorem PeriodicMsg.wellFormed_iff {c : CfgConst} {k : Kind} {m : PeriodicMsg} :
    m.wellFormed c k = true ↔
      byteOf m.etype = c.typeCode k ∧ byteOf m.unused = c.unused7 ∧ byteOf m.constA = c.perConstA ∧
      byteOf m.constB = c.perConstB ∧ byteOf m.checksum = csum7 (checkedBytes (periodicBytes m)) := by
  simp only [PeriodicMsg.wellFormed, checksumOk, Bool.and_eq_true, decide_eq_true_eq, and_assoc]

theorem ConditionMsg.wellFormed_iff {c : CfgConst} {k : Kind} {m : ConditionMsg} :
    m.wellFormed c k = true ↔
      byteOf m.etype = c.typeCode k ∧ byteOf m.unused = c.unused7 ∧
      byteOf m.checksum = csum7 (checkedBytes (conditionBytes m)) := by
  simp only [ConditionMsg.wellFormed, checksumOk, Bool.and_eq_true, decide_eq_true_eq, and_assoc]

theorem FrictionMsg.wellFormed_iff {c : CfgConst} {k : Kind} {m : FrictionMsg} :
    m.wellFormed c k = true ↔
      byteOf m.etype = c.typeCode k ∧ byteOf m.unused = c.unused7 ∧
      byteOf m.checksum = csum7 (checkedBytes (frictionBytes m)) := by
  simp only [FrictionMsg.wellFormed, checksumOk, Bool.and_eq_true, decide_eq_true_eq, and_assoc]

/-- A well-formed frame of a kind carries the kind's code at index 6 (R67, R73). -/
theorem encode_type_byte {c : CfgConst} {i : Instr} {k : Kind} (hk : effectKind i = some k)
    (hi : i.wellFormed c = true) : (encode i)[6]? = some (c.typeCode k) := by
  cases i
  case effectConstant m | effectSine m | effectSquare m | effectRamp m | effectTriangle m
      | effectSawtoothDown m | effectSawtoothUp m =>
    cases hk
    exact congrArg some (PeriodicMsg.wellFormed_iff.mp hi).1
  case effectSpring m | effectDamper m | effectInertia m =>
    cases hk
    exact congrArg some (ConditionMsg.wellFormed_iff.mp hi).1
  case effectFriction m =>
    cases hk
    exact congrArg some (FrictionMsg.wellFormed_iff.mp hi).1
  all_goals cases hk

theorem decodeEffect_encode {c : CfgConst} (hc : c.wellFormed = true) {i : Instr} {k : Kind}
    (hk : effectKind i = some k) (hi : i.wellFormed c = true) : decodeEffect c (encode i) = some i := by
  rw [decodeEffect_eq, encode_type_byte hk hi, Option.bind_some, kindOf_typeCode c hc, Option.bind_some,
    decodeKind_encode hk]

/-! ### The short messages -/

theorem decodePc2_fill (n : Septet) : decodePc2 (fill patPc2 [n]) = some n := by
  rw [decodePc2, fits_fill _ _ rfl]

theorem fill_of_decodePc2 {bs : List Byte} {n : Septet} (h : decodePc2 bs = some n) : fill patPc2 [n] = bs := by
  unfold decodePc2 at h
  split at h
  · cases h
    exact fill_fits _ _ _ ‹_›
  · cases h

/-- Decoding what a well-formed instruction encodes to, at its place. -/
theorem decode_encode {c : CfgConst} (hc : c.wellFormed = true) {i : Instr} (hi : i.wellFormed c = true) :
    decode c (slotOf i) (encode i) = some i := by
  cases i
  case init | autocenter | effect | play | stop | modify | reserved6 | reserved7 => rfl
  case initM1 | initM2 => simp only [slotOf, decode, decodeAt, encode, if_true]
  case initM3 z =>
    have hz : z = initMsg3 c := of_decide_eq_true hi
    exact if_pos (by rw [encode, hz, length_initMsg3])
  case autocenterOnM1 n | autocenterOffM1 n | autocenterOffM4 n =>
    exact congrArg (Option.map _) (decodePc2_fill n)
  case autocenterOffM2 r => simp only [slotOf, decode, decodeAt, encode, fits_fill patAcReg [r] rfl]
  case autocenterOffM3 b d => simp only [slotOf, decode, decodeAt, encode, fits_fill patRw3 [b, d] rfl]
  case playM1 j => simp only [slotOf, decode, decodeAt, encode, fits_fill patPlay [j] rfl]
  case stopM1 j => simp only [slotOf, decode, decodeAt, encode, fits_fill patStop [j] rfl]
  case modifyM1 p j v =>
    simp only [slotOf, decode, decodeAt, encode, fits_fill patMod6 [p, j, lo7 v, hi7 v] rfl, join14_lo7_hi7]
  all_goals exact decodeEffect_encode hc rfl hi

/-- Settles O11: row by row, each pattern filled with its fields fits with those fields, and the type byte of an
effect frame selects its row. -/
theorem decodeInvertsEncode : Obligations.DecodeInvertsEncode := fun _ _ hc hi => decode_encode hc hi

theorem encode_decodeOp {b : Byte} (h : b.toNat < 8) :
    encode (decodeOp (b.setWidth 3)) = [b] ∧ slotOf (decodeOp (b.setWidth 3)) = none := by
  revert b; decide

theorem encode_of_decodeAt {c : CfgConst} {sl : Slot} {bs : List Byte} {i : Instr}
    (h : decodeAt c sl bs = some i) : encode i = bs ∧ slotOf i = some sl := by
  cases sl
  case initM1 | initM2 | initM3 =>
    obtain ⟨hbs, ⟨⟩⟩ := Option.ite_none_right_eq_some.mp h
    exact ⟨by simp [encode, *], rfl⟩
  case onM1 | offM1 | offM4 =>
    obtain ⟨n, hn, rfl⟩ := Option.map_eq_some_iff.mp h
    exact ⟨fill_of_decodePc2 hn, rfl⟩
  case effectM1 =>
    rw [decodeAt, decodeEffect_eq] at h
    obtain ⟨k, -, hk⟩ := Option.bind_eq_some_iff.mp h
    exact encode_of_decodeKind hk
  all_goals
    simp only [decodeAt] at h
    split at h
    · cases h
      have hfill := fill_fits _ _ _ ‹_›
      exact ⟨by simpa [encode] using hfill, rfl⟩
    · cases h

theorem encode_of_decode {c : CfgConst} {place : Option Slot} {bs : List Byte} {i : Instr}
    (h : decode c place bs = some i) : encode i = bs ∧ slotOf i = place := by
  cases place with
  | some sl => exact encode_of_decodeAt h
  | none =>
    simp only [decode] at h
    split at h
    · obtain ⟨hb, ⟨⟩⟩ := Option.ite_none_right_eq_some.mp h
      exact encode_decodeOp hb
    · cases h

/-- Settles O12: the fields of bytes that fit a row fill it to the same bytes. -/
theorem encodeInvertsDecode : Obligations.EncodeInvertsDecode := fun _ _ _ _ h => encode_of_decode h

/-! ### Lengths and first bytes (R60) -/

@[simp] theorem length_periodicBytes (m : PeriodicMsg) : (periodicBytes m).length = 34 := length_fill _ _

@[simp] theorem length_conditionBytes (m : ConditionMsg) : (conditionBytes m).length = 22 := length_fill _ _

@[simp] theorem length_frictionBytes (m : FrictionMsg) : (frictionBytes m).length = 18 := length_fill _ _

/-- Settles O13: a filled pattern has the pattern's length and starts with its first fixed byte. -/
theorem messageFormatsOfR60 : Obligations.MessageFormatsOfR60 := by
  intro c i sl hi hsl
  cases i
  case init | autocenter | effect | play | stop | modify | reserved6 | reserved7 => cases hsl
  case initM3 z =>
    obtain rfl : z = initMsg3 c := of_decide_eq_true hi
    exact ⟨_, _, rfl, rfl, length_initMsg3 c, rfl⟩
  all_goals exact ⟨_, _, rfl, rfl, rfl, rfl⟩

/-- Every well-formed message has a byte and fits the buffer (R37, R60). -/
theorem length_encode {c : CfgConst} {i : Instr} {sl : Slot} (hsl : slotOf i = some sl)
    (hi : i.wellFormed c = true) : 0 < (encode i).length ∧ (encode i).length ≤ 78 := by
  obtain ⟨n, b, hn, -, h⟩ := messageFormatsOfR60 c i sl hi hsl
  rw [hn]
  cases i
  case init | autocenter | effect | play | stop | modify | reserved6 | reserved7 => cases hsl
  all_goals
    obtain ⟨rfl, -⟩ := h
    decide

/-! ### 7-bit safety (R75) -/

/-- A pattern byte whose bit 7 is set; a field's never is. -/
def PatByte.high : PatByte → Bool
  | .lit b => decide (128 ≤ b.toNat)
  | .field => false

/-- Bit 7 of a filled pattern is the pattern's, whatever the fields. -/
theorem fill_high : ∀ (ps : List PatByte) (xs : List Septet) (k : Nat) (hk : k < (fill ps xs).length),
    128 ≤ ((fill ps xs)[k]).toNat ↔ (ps.map PatByte.high)[k]? = some true
  | [], _, _, hk => absurd hk (by simp [fill])
  | .lit b :: ps, xs, 0, _ => by simp [fill, PatByte.high]
  | .field :: ps, [], 0, _ => by simp [fill, PatByte.high]
  | .field :: ps, x :: xs, 0, _ => by simp [fill, PatByte.high]
  | .lit _ :: ps, xs, k + 1, hk => by simpa [fill] using fill_high ps xs k (by simpa [fill] using hk)
  | .field :: ps, [], k + 1, hk => by simpa [fill] using fill_high ps [] k (by simpa [fill] using hk)
  | .field :: ps, _ :: xs, k + 1, hk => by simpa [fill] using fill_high ps xs k (by simpa [fill] using hk)

/-- The indices R75 lists for a message of `n` bytes at a slot. -/
abbrev ListedHigh (sl : Slot) (n k : Nat) : Prop :=
  k = 0 ∨ (sl = .modifyM1 ∧ k = 3) ∨ ((sl = .initM2 ∨ sl = .effectM1) ∧ k + 1 = n)

theorem fill_high_iff {sl : Slot} {ps : List PatByte} {xs : List Septet}
    (h : ∀ k < ps.length, (ps.map PatByte.high)[k]? = some true ↔ ListedHigh sl ps.length k)
    (k : Nat) (hk : k < (fill ps xs).length) :
    128 ≤ ((fill ps xs)[k]).toNat ↔ ListedHigh sl (fill ps xs).length k := by
  rw [fill_high, length_fill]
  exact h k (by simpa [length_fill] using hk)

/-- Settles O14: in each row's pattern, the fixed bytes with bit 7 set are the listed ones. -/
theorem messagesAreSevenBitSafe : Obligations.MessagesAreSevenBitSafe := by
  intro i sl hsl hne
  cases i
  case init | autocenter | effect | play | stop | modify | reserved6 | reserved7 => cases hsl
  case initM3 => cases hsl; exact absurd rfl hne
  case initM1 => cases hsl; exact fill_high_iff (ps := initMsg1.map .lit) (xs := []) (by decide)
  case initM2 => cases hsl; exact fill_high_iff (ps := initMsg2.map .lit) (xs := []) (by decide)
  all_goals cases hsl; exact fill_high_iff (by decide)

/-! ### The frame of EFFECT as a message (R67 to R74) -/

theorem byteOf_lo7 (v : Val14) : byteOf (lo7 v) = (split14 v.toNat).1 := by
  apply BitVec.eq_of_toNat_eq
  rw [toNat_byteOf, toNat_split14_lo, lo7, BitVec.extractLsb'_toNat]
  rfl

theorem byteOf_hi7 (v : Val14) : byteOf (hi7 v) = (split14 v.toNat).2 := by
  apply BitVec.eq_of_toNat_eq
  rw [toNat_byteOf, toNat_split14_hi, hi7, BitVec.extractLsb'_toNat, Nat.shiftRight_eq_div_pow]

/-- R85: the 14-bit field of an operand has the operand's halves. -/
theorem split14_setWidth (v : Half) : split14 (v.setWidth 14).toNat = split14 v.toNat := by
  rw [BitVec.toNat_setWidth]
  exact (split14_mod v.toNat).symm

theorem byteOf_lo7_half (v : Half) : byteOf (lo7 (v.setWidth 14)) = lo v := by
  rw [byteOf_lo7, split14_setWidth]

theorem byteOf_hi7_half (v : Half) : byteOf (hi7 (v.setWidth 14)) = hi v := by
  rw [byteOf_hi7, split14_setWidth]

theorem byteOf_low_bits (b : Byte) : byteOf (b.setWidth 7) = mask7 b.toNat := by
  apply BitVec.eq_of_toNat_eq
  rw [toNat_byteOf, toNat_mask7, BitVec.toNat_setWidth]

/-- The checksum field of the frame with these operands. -/
def frameChecksum (c : CfgConst) (cat : Category) (o : Opr) : Septet :=
  (csum7 ((effectPayload c cat o).drop 5)).setWidth 7

theorem byteOf_frameChecksum (c : CfgConst) (cat : Category) (o : Opr) :
    byteOf (frameChecksum c cat o) = csum7 ((effectPayload c cat o).drop 5) :=
  byteOf_setWidth _ (Nat.lt_succ_of_le (csum7_le _))

/-- R74: the checked bytes of a frame are its payload from index 5 on. -/
theorem checkedBytes_effectFrame (c : CfgConst) (cat : Category) (o : Opr) :
    checkedBytes (effectFrame c cat o) = (effectPayload c cat o).drop 5 := by
  cases cat <;> rfl

/-- The fields of the Periodic frame with these operands (R68). -/
def periodicMsg (c : CfgConst) (o : Opr) : PeriodicMsg where
  etype := o.etype.setWidth 7
  unused := c.unused7.setWidth 7
  duration := o.duration.setWidth 14
  buttonMask := o.buttonMask.setWidth 14
  direction := o.direction.setWidth 14
  strength := o.strength.setWidth 7
  sampleRate := o.sampleRate.setWidth 14
  constA := c.perConstA.setWidth 7
  constB := c.perConstB.setWidth 7
  attackLevel := o.attackLevel.setWidth 7
  attackTime := o.attackTime.setWidth 14
  fadeTime := o.fadeTime.setWidth 14
  fadeLevel := o.fadeLevel.setWidth 7
  frequency := o.frequency.setWidth 14
  amplitude := o.amplitude.setWidth 14
  checksum := frameChecksum c .periodic o

/-- The fields of the Condition frame with these operands (R69). -/
def conditionMsg (c : CfgConst) (o : Opr) : ConditionMsg where
  etype := o.etype.setWidth 7
  unused := c.unused7.setWidth 7
  duration := o.duration.setWidth 14
  buttonMask := o.buttonMask.setWidth 14
  strengthX := o.strengthX.setWidth 7
  strengthY := o.strengthY.setWidth 7
  offsetX := o.offsetX.setWidth 14
  offsetY := o.offsetY.setWidth 14
  checksum := frameChecksum c .condition o

/-- The fields of the Friction frame with these operands (R70). -/
def frictionMsg (c : CfgConst) (o : Opr) : FrictionMsg where
  etype := o.etype.setWidth 7
  unused := c.unused7.setWidth 7
  duration := o.duration.setWidth 14
  buttonMask := o.buttonMask.setWidth 14
  strengthX := o.strengthX.setWidth 7
  strengthY := o.strengthY.setWidth 7
  checksum := frameChecksum c .friction o

section
variable {c : CfgConst} {o : Opr} (hc : c.wellFormed = true) (ht : o.etype.toNat < 128)
include hc ht

theorem periodicBytes_periodicMsg : periodicBytes (periodicMsg c o) = effectFrame c .periodic o := by
  obtain ⟨-, -, hu, ha, hb, -⟩ := wellFormed_spec c hc
  simp [periodicBytes, patPeriodic, patHead, patClose, periodicFields, periodicMsg, fill, byteOf_lo7_half,
    byteOf_hi7_half, byteOf_low_bits o.strength, byteOf_low_bits o.attackLevel, byteOf_low_bits o.fadeLevel,
    byteOf_setWidth _ ht, byteOf_setWidth _ hu, byteOf_setWidth _ ha, byteOf_setWidth _ hb,
    byteOf_frameChecksum, effectFrame, effectPayload, effectTailBytes]

theorem conditionBytes_conditionMsg : conditionBytes (conditionMsg c o) = effectFrame c .condition o := by
  obtain ⟨-, -, hu, -⟩ := wellFormed_spec c hc
  simp [conditionBytes, patCondition, patStrengths, patHead, patClose, conditionFields, conditionMsg, fill,
    byteOf_lo7_half, byteOf_hi7_half, byteOf_low_bits o.strengthX, byteOf_low_bits o.strengthY,
    byteOf_setWidth _ ht, byteOf_setWidth _ hu, byteOf_frameChecksum, effectFrame, effectPayload, effectTailBytes]

theorem frictionBytes_frictionMsg : frictionBytes (frictionMsg c o) = effectFrame c .friction o := by
  obtain ⟨-, -, hu, -⟩ := wellFormed_spec c hc
  simp [frictionBytes, patFriction, patStrengths, patHead, patClose, frictionFields, frictionMsg, fill,
    byteOf_lo7_half, byteOf_hi7_half, byteOf_low_bits o.strengthX, byteOf_low_bits o.strengthY,
    byteOf_setWidth _ ht, byteOf_setWidth _ hu, byteOf_frameChecksum, effectFrame, effectPayload, effectTailBytes]

theorem periodicMsg_wellFormed {k : Kind} (hk : c.typeCode k = o.etype) :
    (periodicMsg c o).wellFormed c k = true := by
  obtain ⟨-, -, hu, ha, hb, -⟩ := wellFormed_spec c hc
  rw [PeriodicMsg.wellFormed_iff, periodicBytes_periodicMsg hc ht, checkedBytes_effectFrame, hk]
  exact ⟨byteOf_setWidth _ ht, byteOf_setWidth _ hu, byteOf_setWidth _ ha, byteOf_setWidth _ hb,
    byteOf_frameChecksum ..⟩

theorem conditionMsg_wellFormed {k : Kind} (hk : c.typeCode k = o.etype) :
    (conditionMsg c o).wellFormed c k = true := by
  obtain ⟨-, -, hu, -⟩ := wellFormed_spec c hc
  rw [ConditionMsg.wellFormed_iff, conditionBytes_conditionMsg hc ht, checkedBytes_effectFrame, hk]
  exact ⟨byteOf_setWidth _ ht, byteOf_setWidth _ hu, byteOf_frameChecksum ..⟩

theorem frictionMsg_wellFormed {k : Kind} (hk : c.typeCode k = o.etype) :
    (frictionMsg c o).wellFormed c k = true := by
  obtain ⟨-, -, hu, -⟩ := wellFormed_spec c hc
  rw [FrictionMsg.wellFormed_iff, frictionBytes_frictionMsg hc ht, checkedBytes_effectFrame, hk]
  exact ⟨byteOf_setWidth _ ht, byteOf_setWidth _ hu, byteOf_frameChecksum ..⟩

end

/-- The message EFFECT sends for a kind, with the latched operands as its fields (R113). -/
def effectMessage (c : CfgConst) (o : Opr) : Kind → Instr
  | .constant => .effectConstant (periodicMsg c o)
  | .sine => .effectSine (periodicMsg c o)
  | .square => .effectSquare (periodicMsg c o)
  | .ramp => .effectRamp (periodicMsg c o)
  | .triangle => .effectTriangle (periodicMsg c o)
  | .sawtoothDown => .effectSawtoothDown (periodicMsg c o)
  | .sawtoothUp => .effectSawtoothUp (periodicMsg c o)
  | .spring => .effectSpring (conditionMsg c o)
  | .damper => .effectDamper (conditionMsg c o)
  | .inertia => .effectInertia (conditionMsg c o)
  | .friction => .effectFriction (frictionMsg c o)

/-- The frame of a known category is the encoding of a well-formed message at EFFECT's slot. -/
theorem effectFrame_message {c : CfgConst} (hc : c.wellFormed = true) {o : Opr} {cat : Category}
    (h : categoryOf c o.etype = some cat) :
    ∃ i, slotOf i = some .effectM1 ∧ i.wellFormed c = true ∧ encode i = effectFrame c cat o := by
  obtain ⟨k, hk, rfl⟩ := categoryOf_eq_some h
  obtain ⟨hcodes, -⟩ := wellFormed_spec c hc
  have ht : o.etype.toNat < 128 := hk ▸ hcodes k
  refine ⟨effectMessage c o k, ?_⟩
  cases k
  case spring | damper | inertia =>
    exact ⟨rfl, conditionMsg_wellFormed hc ht hk, conditionBytes_conditionMsg hc ht⟩
  case friction => exact ⟨rfl, frictionMsg_wellFormed hc ht hk, frictionBytes_frictionMsg hc ht⟩
  all_goals exact ⟨rfl, periodicMsg_wellFormed hc ht hk, periodicBytes_periodicMsg hc ht⟩

/-- Settles O29: the frame is the encoding of its kind's message, which decoding gives back. -/
theorem effectFrameIsItsKindsMessage : Obligations.EffectFrameIsItsKindsMessage := by
  intro c o cat hc hcat
  obtain ⟨i, hsl, hi, he⟩ := effectFrame_message hc hcat
  refine ⟨i, ?_, hi⟩
  rw [← he, ← hsl]
  exact decode_encode hc hi

/-! ### Words of the opcode table -/

/-- Settles O10: the words are evaluated; none of them reaches a row with an OPEN byte. -/
theorem tableWordsDecode : Obligations.TableWordsDecode :=
  ⟨rfl, rfl, rfl, rfl, rfl, rfl, rfl, rfl⟩

end Sys2Proof.Machine
end

section
/-! PROOFS. The family `other`, part 2: the corner cases and the accumulator form of CSUM7 (R93, R94, R96), the range
check (R135), and what one instant does at the host's ports (R18, R20, R26, R33, R152 to R155). -/

namespace Sys2Proof.Machine

/-! ### CSUM7 -/

theorem csum7_eq_zero {s : List Byte} (h : (s.map BitVec.toNat).sum % 128 = 0) : csum7 s = 0x00#8 := by
  apply BitVec.eq_of_toNat_eq
  rw [toNat_csum7, h]
  rfl

theorem toNat_csum7_of_pos {s : List Byte} (h : 1 ≤ (s.map BitVec.toNat).sum % 128) :
    (csum7 s).toNat = 0x80 - (s.map BitVec.toNat).sum % 128 := by
  rw [toNat_csum7]; omega

theorem toNat_and_7F (b : Byte) : (b &&& 0x7F#8).toNat = b.toNat % 128 := by
  rw [BitVec.toNat_and]
  exact Nat.and_two_pow_sub_one_eq_mod b.toNat 7

theorem sum_and_7F_mod : ∀ s : List Byte,
    ((s.map (· &&& 0x7F#8)).map BitVec.toNat).sum % 128 = (s.map BitVec.toNat).sum % 128
  | [] => rfl
  | b :: s => by
    have ih := sum_and_7F_mod s
    simp only [List.map_cons, List.sum_cons, toNat_and_7F]
    omega

/-- R96: only the residue of the sum counts, and bit 7 of a byte has no part in it. -/
theorem csum7_and_7F (s : List Byte) : csum7 (s.map (· &&& 0x7F#8)) = csum7 s := by
  rw [csum7, sum_and_7F_mod, csum7]

/-- Settles O5: both corners are cases of the residue of the sum; the examples are evaluated. -/
theorem checksumCornerCases : Obligations.ChecksumCornerCases :=
  ⟨fun s => ⟨csum7_eq_zero, toNat_csum7_of_pos, csum7_and_7F s⟩, by decide⟩

theorem csum7_perm {s s' : List Byte} (h : s.Perm s') : csum7 s' = csum7 s := by
  rw [csum7, csum7, (h.map BitVec.toNat).sum_eq]

theorem toNat_accAdd (acc : Septet) (b : Byte) : (accAdd acc b).toNat = (acc.toNat + b.toNat) % 128 :=
  BitVec.toNat_ofNat ..

theorem accAdd_eq_add (acc : Septet) (b : Byte) : accAdd acc b = acc + b.setWidth 7 := by
  apply BitVec.eq_of_toNat_eq
  rw [toNat_accAdd, BitVec.toNat_add, BitVec.toNat_setWidth]
  omega

theorem accFinal_eq_neg (acc : Septet) : accFinal acc = (~~~acc + 1#7).setWidth 8 := by
  revert acc; decide

/-- Settles O6: the accumulator holds the sum's residue, which no order of the bytes changes. -/
theorem accumulatorGivesTheChecksumInAnyOrder : Obligations.AccumulatorGivesTheChecksumInAnyOrder :=
  ⟨fun _ s' h => (accFinal_foldl s').trans (csum7_perm h),
    fun acc b => ⟨toNat_accAdd acc b, accAdd_eq_add acc b⟩, fun acc => ⟨rfl, accFinal_eq_neg acc⟩⟩

/-! ### The range check -/

@[simp] theorem over8_iff (b : Byte) : over8 b = true ↔ 0x7F < b.toNat := decide_eq_true_iff

@[simp] theorem over14_iff (v : Half) : over14 v = true ↔ 0x3FFF < v.toNat := decide_eq_true_iff

theorem mask7_of_not_over8 {b : Byte} (h : over8 b = false) : mask7 b.toNat = b := by
  have hle : b.toNat ≤ 0x7F := Nat.not_lt.mp (of_decide_eq_false h)
  exact BitVec.eq_of_toNat_eq (toNat_mask7_of_le hle)

theorem recon14_of_not_over14 {v : Half} (h : over14 v = false) :
    recon14 (split14 v.toNat).1 (split14 v.toNat).2 = v.toNat :=
  recon14_split14_of_le (Nat.not_lt.mp (of_decide_eq_false h))

/-- Settles O35: the bounds are the widths of MASK7 and SPLIT14. -/
theorem inRangeOperandsKeepEveryBit : Obligations.InRangeOperandsKeepEveryBit :=
  ⟨fun b => ⟨over8_iff b, mask7_of_not_over8⟩, fun v => ⟨over14_iff v, recon14_of_not_over14⟩⟩

theorem outOfRangeId_iff (o : Opr) : outOfRangeId o = true ↔ 0x7F < o.effectId.toNat := over8_iff _

theorem outOfRangeModify_iff (o : Opr) :
    outOfRangeModify o = true ↔
      0x7F < o.effectId.toNat ∨ 0x7F < o.param.toNat ∨ 0x3FFF < o.value.toNat := by
  simp [outOfRangeModify, or_assoc]

/-- R135's table for EFFECT: some operand of the category is above its width. -/
abbrev SomeOperandWide (o : Opr) : Category → Prop
  | .periodic =>
    0x3FFF < o.duration.toNat ∨ 0x3FFF < o.buttonMask.toNat ∨ 0x3FFF < o.direction.toNat ∨
    0x7F < o.strength.toNat ∨ 0x3FFF < o.sampleRate.toNat ∨ 0x7F < o.attackLevel.toNat ∨
    0x3FFF < o.attackTime.toNat ∨ 0x3FFF < o.fadeTime.toNat ∨ 0x7F < o.fadeLevel.toNat ∨
    0x3FFF < o.frequency.toNat ∨ 0x3FFF < o.amplitude.toNat
  | .condition =>
    0x3FFF < o.duration.toNat ∨ 0x3FFF < o.buttonMask.toNat ∨ 0x7F < o.strengthX.toNat ∨
    0x7F < o.strengthY.toNat ∨ 0x3FFF < o.offsetX.toNat ∨ 0x3FFF < o.offsetY.toNat
  | .friction =>
    0x3FFF < o.duration.toNat ∨ 0x3FFF < o.buttonMask.toNat ∨ 0x7F < o.strengthX.toNat ∨
    0x7F < o.strengthY.toNat

theorem outOfRangeEffect_iff (cat : Category) (o : Opr) :
    outOfRangeEffect cat o = true ↔ SomeOperandWide o cat := by
  cases cat <;> simp only [outOfRangeEffect, SomeOperandWide, Bool.or_eq_true, over8_iff, over14_iff, or_assoc]

/-- Settles O51: each check is the disjunction of its operands' checks. -/
theorem rangeCheckReadsEachOperand : Obligations.RangeCheckReadsEachOperand := fun o =>
  ⟨outOfRangeId_iff o, outOfRangeModify_iff o, outOfRangeEffect_iff .periodic o,
    outOfRangeEffect_iff .condition o, outOfRangeEffect_iff .friction o⟩

/-! ### One instant at the ports -/

/-- Settles O16: the step is the reset input. -/
theorem resetAbandonsTheCommand : Obligations.ResetAbandonsTheCommand := fun s _ ha =>
  ⟨_, step_noInstr (fetchWith_reset Config.cfg (s := s) ha), rfl, rfl, rfl, rfl, rfl, rfl, rfl, rfl, rfl, rfl, rfl,
    rfl, rfl, rfl, rfl, rfl, rfl⟩

/-- Settles O17: an idle instant runs no instruction. -/
theorem idleWaitsForACommand : Obligations.IdleWaitsForACommand :=
  ⟨fun _ hp ha => step_noInstr (fetchWith_nil_idle Config.cfg ha hp),
    fun _ _ hp ha => step_noInstr (fetchWith_pass_idle Config.cfg ha hp)⟩

/-- The message the sequencer is at, when the buffer decodes at its slot. -/
theorem message_of_slot {c : CfgConst} {s : State} {sl : Slot} {i : Instr} (hsl : s.slot = some sl)
    (hi : decode c (some sl) s.frame = some i) : s.message c = some i := by
  simp only [State.message, hsl, hi]

/-- Settles O18: an accepted command runs its own instruction, a running one the message in the buffer. -/
theorem stepRunsTheDecodedInstruction : Obligations.StepRunsTheDecodedInstruction := by
  refine ⟨fun s o rest hp ha => step_run (fetchWith_command_idle Config.cfg ha hp), ?_, ?_⟩
  · intro s i sl hp ha hsl hi
    have hres : resume Config.cfg { s with done := none } = .run i { s with done := none } :=
      resume_run (message_of_slot hsl hi)
    rcases ha with ha | ⟨o, rest, ha⟩
    · exact step_run ((fetchWith_nil_run Config.cfg ha hp).trans hres)
    · exact step_run ((fetchWith_command_run Config.cfg ha hp).trans hres)
  · intro s i sl rest hp ha hsl hi
    have hres : resume Config.cfg { s with done := none, actions := rest } =
        .run i { s with done := none, actions := rest } := resume_run (message_of_slot hsl hi)
    exact step_run ((fetchWith_pass_run Config.cfg ha hp).trans hres)

/-- Settles O20: a write sets the mode, a read appends the register's value. -/
theorem hostPortsReadAndWrite : Obligations.HostPortsReadAndWrite := by
  refine ⟨fun s b rest ha => step_noInstr (fetchWith_writeStrict Config.cfg ha), fun s r rest ha =>
    ⟨s.readReg r, step_noInstr (fetchWith_read Config.cfg ha), ?_, ?_, ?_⟩⟩
  · rintro rfl; rfl
  · rintro rfl; rfl
  · rintro rfl
    simp only [State.readReg, State.busy, decide_eq_true_eq]

end Sys2Proof.Machine
end

section
/-! PROOFS. The family `other`, part 3: the message rows. Each emits its encoding, waits for its slot's delay and loads
the next message (`exec_eq_emitMessage`); the statements are what that does under an accepting sink, under one that
holds, and from positions the sequencer never has. -/

namespace Sys2Proof.Machine

/-! ### What a message row is -/

/-- The slot and the bytes of the message after a slot's (R98, R102). -/
def nextMessage (c : CfgConst) : Slot → Option (Slot × List Byte)
  | .initM1 => some (.initM2, initMsg2)
  | .initM2 => some (.initM3, initMsg3 c)
  | .offM1 => some (.offM2, acRegBytes c)
  | .offM2 => some (.offM3, acRwBytes c)
  | .offM3 => some (.offM4, acOffBytes c)
  | _ => none

/-- The bytes of the message after a slot's. -/
abbrev nextBytes (c : CfgConst) (sl : Slot) : Option (List Byte) := (nextMessage c sl).map Prod.snd

/-- A message with its slot's delay (R99, R102). -/
abbrev slotItem (sl : Slot) (bs : List Byte) : Item := ⟨bs, slotDelay sl⟩

/-- A message row emits its encoding with its slot's delay, and the next message of the command follows. -/
theorem exec_eq_emitMessage {i : Instr} {sl : Slot} (h : slotOf i = some sl) (s : State) :
    exec i s = outcome (emitMessage (slotItem sl (encode i)) (nextBytes Config.cfg sl) s) := by
  cases i
  case init | autocenter | effect | play | stop | modify | reserved6 | reserved7 => cases h
  all_goals cases h; rfl

theorem length_nextMessage {c : CfgConst} {sl sl' : Slot} {bs : List Byte}
    (h : nextMessage c sl = some (sl', bs)) : 0 < bs.length ∧ bs.length ≤ 78 := by
  cases sl <;> cases h
  case initM2 => rw [length_initMsg3]; decide
  all_goals exact ⟨Nat.succ_pos _, by simp [initMsg2, sysexHeader, acRegBytes, acRwBytes, acOffBytes]⟩

theorem length_encode_pos {i : Instr} {sl : Slot} (h : slotOf i = some sl) (hne : sl ≠ .initM3) :
    0 < (encode i).length ∧ (encode i).length ≤ 78 := by
  cases i
  case init | autocenter | effect | play | stop | modify | reserved6 | reserved7 => cases h
  case initM3 => cases h; exact absurd rfl hne
  case initM1 | initM2 => decide
  all_goals simp [encode, length_fill, patPc2, patAcReg, patRw3, patPlay, patStop, patMod6]

/-! ### The host's side of the ports -/

/-- The operand registers, the mode and the host's coming actions changed, and nothing else. -/
def State.mapHost (f : Opr → Opr) (g : Bool → Bool) (h : List HostAction → List HostAction) (s : State) : State :=
  { s with opr := f s.opr, strict := g s.strict, actions := h s.actions }

/-- A change of the state a transaction ends with. -/
def Progress.map (φ : State → State) : Progress → Progress
  | .more s => .more (φ s)
  | .stop s => .stop (φ s)

section
variable (f : Opr → Opr) (g : Bool → Bool) (h : List HostAction → List HostAction)

theorem load_mapHost (bs : List Byte) (s : State) :
    (s.mapHost f g h).load bs = (s.load bs).map (State.mapHost f g h) := by
  unfold State.load
  split
  · rfl
  · rfl

theorem sendByte_mapHost (b : Byte) (last : Bool) (s : State) :
    sendByte b last (s.mapHost f g h) = (sendByte b last s).map (State.mapHost f g h) := by
  have ha : (s.mapHost f g h).answers = s.answers := rfl
  unfold sendByte
  rw [ha]
  cases s.answers with
  | nil => rfl
  | cons a as => cases a <;> rfl

theorem sendBytes_mapHost : ∀ (bs : List Byte) (s : State),
    sendBytes bs (s.mapHost f g h) = (sendBytes bs s).map (State.mapHost f g h)
  | [], _ => rfl
  | b :: bs, s => by
    rw [sendBytes, sendBytes, sendByte_mapHost]
    cases sendByte b bs.isEmpty s with
    | more t => exact sendBytes_mapHost bs t
    | stop t => rfl

theorem writeMessage_mapHost (s : State) :
    writeMessage (s.mapHost f g h) = (writeMessage s).map (Progress.map (State.mapHost f g h)) := by
  have hsend := sendBytes_mapHost f g h (s.frame.drop s.bi.toNat) s
  have hf : (s.mapHost f g h).frame = s.frame := rfl
  have hb : (s.mapHost f g h).bi = s.bi := rfl
  have hl : (s.mapHost f g h).flen = s.flen := rfl
  unfold writeMessage
  rw [hf, hb, hl, hsend]
  split
  · cases sendBytes (s.frame.drop s.bi.toNat) s <;> rfl
  · rfl

theorem delay_mapHost (n : Millis) (s : State) :
    delay n (s.mapHost f g h) = (delay n s).map (State.mapHost f g h) := by
  have ha : (s.mapHost f g h).answers = s.answers := rfl
  unfold delay
  rw [ha]
  cases s.answers with
  | nil => rfl
  | cons a as => cases a <;> rfl

theorem delayAfter_mapHost (d : Option Millis) (s : State) :
    delayAfter d (s.mapHost f g h) = (delayAfter d s).map (State.mapHost f g h) := by
  cases d with
  | none => rfl
  | some n => exact delay_mapHost f g h n s

theorem transact_mapHost (d : Option Millis) (s : State) :
    transact d (s.mapHost f g h) = (transact d s).map (Progress.map (State.mapHost f g h)) := by
  have hp : (s.mapHost f g h).dpend = s.dpend := rfl
  have hw := writeMessage_mapHost f g h s
  unfold transact
  rw [hp, hw]
  cases s.dpend with
  | true =>
    cases d with
    | none => rfl
    | some n => exact congrArg Except.ok (delay_mapHost f g h n s)
  | false =>
    cases writeMessage s with
    | error e => rfl
    | ok p =>
      cases p with
      | more t => exact congrArg Except.ok (delayAfter_mapHost f g h d t)
      | stop t => rfl

variable {f g h}

theorem sendThen_mapHost {next : State → Except Fault State}
    (hn : ∀ u, next (u.mapHost f g h) = (next u).map (State.mapHost f g h)) (d : Option Millis) (s : State) :
    sendThen d next (s.mapHost f g h) = (sendThen d next s).map (State.mapHost f g h) := by
  unfold sendThen
  rw [transact_mapHost]
  cases transact d s with
  | error e => rfl
  | ok p =>
    cases p with
    | more t => exact hn t
    | stop t => rfl

theorem loadThenSend_mapHost {next : State → Except Fault State}
    (hn : ∀ u, next (u.mapHost f g h) = (next u).map (State.mapHost f g h)) (it : Item) (s : State) :
    loadThenSend it next (s.mapHost f g h) = (loadThenSend it next s).map (State.mapHost f g h) := by
  unfold loadThenSend
  rw [load_mapHost]
  cases s.load it.bytes with
  | error e => rfl
  | ok t => exact sendThen_mapHost hn it.delay t

variable (f g h)

theorem advance_mapHost (next : Option (List Byte)) (s : State) :
    advance next (s.mapHost f g h) = (advance next s).map (State.mapHost f g h) := by
  cases next with
  | none => rfl
  | some bs => exact load_mapHost f g h bs s

/-- A message reads neither the operand registers nor the mode nor the command port. -/
theorem emitMessage_mapHost (it : Item) (next : Option (List Byte)) (s : State) :
    emitMessage it next (s.mapHost f g h) = (emitMessage it next s).map (State.mapHost f g h) := by
  rw [emitMessage_eq, emitMessage_eq]
  exact loadThenSend_mapHost (advance_mapHost f g h next) it s

/-- So a message row answers alike whatever these are. -/
theorem exec_mapHost {i : Instr} {sl : Slot} {s t : State} (hsl : slotOf i = some sl) (he : exec i s = .next t) :
    exec i (s.mapHost f g h) = .next (t.mapHost f g h) := by
  rw [exec_eq_emitMessage hsl, outcome_next] at he ⊢
  rw [emitMessage_mapHost, he]
  rfl

end

/-- Setting them to what they are shows that a message row keeps them. -/
theorem exec_keeps_host {i : Instr} {sl : Slot} {s t : State} (hsl : slotOf i = some sl) (he : exec i s = .next t) :
    t.actions = s.actions ∧ t.opr = s.opr ∧ t.strict = s.strict := by
  have hconst := exec_mapHost (fun _ => s.opr) (fun _ => s.strict) (fun _ => s.actions) hsl he
  obtain hts : t = t.mapHost (fun _ => s.opr) (fun _ => s.strict) (fun _ => s.actions) :=
    Host.Outcome.next.inj (he.symm.trans hconst)
  exact ⟨by rw [hts]; rfl, by rw [hts]; rfl, by rw [hts]; rfl⟩

/-- Settles O21: the mode is one of the things a message does not read. -/
theorem runningCommandIgnoresStrict : Obligations.RunningCommandIgnoresStrict :=
  fun _ _ _ _ b hsl he => exec_mapHost id (fun _ => b) id hsl he

/-- A running message is decoded from the buffer at the sequencer's slot. -/
theorem message_eq_some {c : CfgConst} {s : State} {i : Instr} (h : s.message c = some i) :
    ∃ sl, s.slot = some sl ∧ decode c (some sl) s.frame = some i := by
  unfold State.message at h
  split at h
  · cases h
  · exact ⟨_, ‹_›, h⟩

/-- Going on with a running command runs a message row. -/
theorem resume_cases (c : CfgConst) (s : State) :
    resume c s = .refuse .noMessage ∨ ∃ i sl, resume c s = .run i s ∧ slotOf i = some sl := by
  cases hm : s.message c with
  | none => exact .inl (by simp only [resume, hm])
  | some i =>
    obtain ⟨sl, -, hi⟩ := message_eq_some hm
    exact .inr ⟨i, sl, resume_run hm, (encode_of_decode hi).2⟩

/-- Settles O19: the step is that of a message row, which keeps the host's side. -/
theorem busyLeavesTheCommandOnThePort : Obligations.BusyLeavesTheCommandOnThePort := by
  intro s t o rest hp ha hstep
  have hfetch := fetchWith_command_run Config.cfg ha hp
  rcases resume_cases Config.cfg { s with done := none } with hr | ⟨i, sl, hr, hsl⟩
  · simp only [step, hfetch, hr] at hstep
    cases hstep
  · rw [step_run (hfetch.trans hr)] at hstep
    exact exec_keeps_host (s := { s with done := none }) hsl hstep

/-! ### Under an accepting sink -/

section
variable {i : Instr} {sl : Slot} {s : State} (hsl : slotOf i = some sl) (hwf : s.fbuf.wf = true) (hs : s.AtStart)
include hsl hwf hs

/-- The last message of a command is sent whole and the command completes. -/
theorem exec_last_accept (hn : nextMessage Config.cfg sl = none) (hl : 0 < (encode i).length ∧ (encode i).length ≤ 78)
    (ha : s.SinkAccepts (answersOf (Item.events (slotItem sl (encode i))))) :
    ∃ t, exec i s = .next t ∧ Completes s (Item.events (slotItem sl (encode i))) codeOk t ∧ t.acc = s.acc ∧
      Holds s (encode i) t := by
  obtain ⟨t, ht, hc, hacc, -, hf, hab⟩ := emitMessage_last (slotItem sl (encode i)) s hl.1 hl.2 hwf hs ha
  refine ⟨t, ?_, hc, hacc, hf, hab⟩
  rw [exec_eq_emitMessage hsl, nextBytes, hn]
  exact outcome_next.mpr ht

/-- Any other message is sent whole and the next one is loaded. -/
theorem exec_next_accept {sl' : Slot} {nb : List Byte} (hn : nextMessage Config.cfg sl = some (sl', nb))
    (ha : s.SinkAccepts (answersOf (Item.events (slotItem sl (encode i))))) :
    ∃ t, exec i s = .next t ∧ Advances s (Item.events (slotItem sl (encode i))) t ∧ t.frame = nb ∧
      ∀ a, (encode i).length ≤ a → nb.length ≤ a → t.fbuf.read a = s.fbuf.read a := by
  have hne : sl ≠ .initM3 := by rintro rfl; cases hn
  have hl := length_encode_pos hsl hne
  obtain ⟨t, ht, had, -, hf, hab⟩ :=
    emitMessage_next (slotItem sl (encode i)) nb s hl.1 hl.2 (length_nextMessage hn).2 hwf hs ha
  refine ⟨t, ?_, had, hf, hab⟩
  rw [exec_eq_emitMessage hsl, nextBytes, hn]
  exact outcome_next.mpr ht

end

/-- Settles O25: message 3 of any 78 bytes is the last; the other two load the next. -/
theorem initMessagesAdvance : Obligations.InitMessagesAdvance := by
  intro s hwf hs
  refine ⟨fun ha => ?_, fun ha => ?_, fun z hz ha => ?_⟩
  · obtain ⟨t, ht, had, hf, hab⟩ := exec_next_accept (i := .initM1) rfl hwf hs rfl ha
    exact ⟨t, ht, had, hf, fun a h9 => hab a (le_trans (by decide) h9) h9⟩
  · obtain ⟨t, ht, had, hf, hab⟩ := exec_next_accept (i := .initM2) rfl hwf hs rfl ha
    have h9 : (encode .initM2).length ≤ (initMsg3 Config.cfg).length := by rw [length_initMsg3]; decide
    exact ⟨t, ht, had, hf, fun a h => hab a (h9.trans h) h⟩
  · have hev : answersOf (Item.events (slotItem .initM3 z)) = 78 := hz
    exact exec_last_accept (i := .initM3 z) rfl hwf hs rfl (by simp [encode, hz]) (by rw [encode, hev]; exact ha)

/-- Settles O26: the branch's last message completes; the other three load the next. -/
theorem autocenterMessagesAdvance : Obligations.AutocenterMessagesAdvance := by
  intro s hwf hs x y
  refine ⟨fun ha => ?_, fun ha => ?_, fun ha => ?_, fun ha => ?_, fun ha => ?_⟩
  · exact exec_last_accept (i := .autocenterOnM1 x) rfl hwf hs rfl (by simp [encode, length_fill, patPc2]) ha
  · obtain ⟨t, ht, had, hf, hab⟩ := exec_next_accept (i := .autocenterOffM1 x) rfl hwf hs rfl ha
    exact ⟨t, ht, had, hf, fun a h3 => hab a (le_of_lt h3) h3⟩
  · obtain ⟨t, ht, had, hf, hab⟩ := exec_next_accept (i := .autocenterOffM2 x) rfl hwf hs rfl ha
    exact ⟨t, ht, had, hf, fun a h3 => hab a h3 h3⟩
  · obtain ⟨t, ht, had, hf, hab⟩ := exec_next_accept (i := .autocenterOffM3 x y) rfl hwf hs rfl ha
    exact ⟨t, ht, had, hf, fun a h3 => hab a h3 (le_of_lt h3)⟩
  · exact exec_last_accept (i := .autocenterOffM4 x) rfl hwf hs rfl (by simp [encode, length_fill, patPc2]) ha

/-- Settles O28: each row encodes to its frame and stands at the one slot of EFFECT. -/
theorem effectMessagesComplete : Obligations.EffectMessagesComplete := by
  intro s hwf hs
  have key : ∀ {i : Instr} {bs : List Byte} {n : Nat}, slotOf i = some .effectM1 → encode i = bs → bs.length = n →
      s.SinkAccepts n →
      ∃ t, exec i s = .next t ∧ Completes s [.wr bs] codeOk t ∧ t.acc = s.acc ∧ Holds s bs t := by
    rintro i _ _ hsl rfl rfl ha
    exact exec_last_accept hsl hwf hs rfl (length_encode_pos hsl (by decide)) ha
  refine ⟨fun m ha i hi => ?_, fun m ha i hi => ?_, fun m ha => key rfl rfl (length_frictionBytes m) ha⟩
  · simp only [List.mem_cons, List.not_mem_nil, or_false] at hi
    rcases hi with rfl | rfl | rfl | rfl | rfl | rfl | rfl
    all_goals exact key rfl rfl (length_periodicBytes m) ha
  · simp only [List.mem_cons, List.not_mem_nil, or_false] at hi
    rcases hi with rfl | rfl | rfl
    all_goals exact key rfl rfl (length_conditionBytes m) ha

theorem encode_modifyM1 (p i : Septet) (v : Val14) :
    encode (.modifyM1 p i v) = [0xB5#8, p.setWidth 8, i.setWidth 8, 0xA5#8] ++ lohi v.toNat := by
  rw [lohi, ← byteOf_lo7, ← byteOf_hi7]
  rfl

/-- Settles O32: each is the one message of its command. -/
theorem controlMessagesComplete : Obligations.ControlMessagesComplete := by
  intro s hwf hs i p v
  refine ⟨fun ha => ?_, fun ha => ?_, fun ha => ?_⟩
  · exact exec_last_accept (i := .playM1 i) rfl hwf hs rfl (length_encode_pos (sl := .playM1) rfl (by decide)) ha
  · exact exec_last_accept (i := .stopM1 i) rfl hwf hs rfl (length_encode_pos (sl := .stopM1) rfl (by decide)) ha
  · rw [← encode_modifyM1]
    exact exec_last_accept (i := .modifyM1 p i v) rfl hwf hs rfl
      (length_encode_pos (sl := .modifyM1) rfl (by decide)) ha

end Sys2Proof.Machine
end

section
/-! PROOFS. The family `other`, part 4: message rows away from their start: held by the sink (R27, R28, R167), resumed
after some of their bytes (R19), waiting for their delay (R23, R30), and in positions the sequencer never has. -/

namespace Sys2Proof.Machine

/-- A load that fits: only the buffer and its length change, and the message is what was loaded. -/
theorem State.load_fits {bs : List Byte} {s : State} (hl : bs.length ≤ 78) (hwf : s.fbuf.wf = true) :
    ∃ m l, s.load bs = .ok { s with fbuf := m, flen := l } ∧ State.frame { s with fbuf := m, flen := l } = bs ∧
      l.toNat = bs.length ∧ m.wf = true ∧ ∀ a, bs.length ≤ a → m.read a = s.fbuf.read a := by
  have hload := State.load_ok bs s hl
  obtain ⟨-, -, hfl, hfr, hwf', hab⟩ := State.load_spec bs s _ hwf hload
  exact ⟨_, _, hload, hfr, hfl, hwf', hab⟩

/-- What is left of a message row with its bytes in the buffer: the transaction, then the next message. -/
theorem exec_eq_sendThen {i : Instr} {sl : Slot} (hsl : slotOf i = some sl) {s s₁ : State}
    (hload : s.load (encode i) = .ok s₁) :
    exec i s = outcome (sendThen (slotDelay sl) (advance (nextBytes Config.cfg sl)) s₁) := by
  rw [exec_eq_emitMessage hsl, emitMessage_eq, loadThenSend, hload]

theorem sendThen_more {d : Option Millis} {next : State → Except Fault State} {s t : State}
    (h : transact d s = .ok (.more t)) : sendThen d next s = next t := by
  simp only [sendThen, h]

theorem sendThen_stop {d : Option Millis} {next : State → Except Fault State} {s t : State}
    (h : transact d s = .ok (.stop t)) : sendThen d next s = .ok t := by
  simp only [sendThen, h]

/-! ### A byte the sink holds -/

/-- When the sink accepts `k` bytes and holds the next, those `k` are on the wire and the next one is on the port. -/
theorem sendBytes_hold : ∀ (bs : List Byte) (s : State) (k : Nat) (rest : List SinkAnswer) (hk : k < bs.length),
    s.answers = List.replicate k .accept ++ .hold :: rest →
    sendBytes bs s =
      .stop { s with answers := rest, wire := s.wire ++ bs.take k, bi := s.bi + BitVec.ofNat 7 k,
                     tx := some { data := bs[k], first := decide (s.bi + BitVec.ofNat 7 k = 0#7),
                                  last := decide (k + 1 = bs.length) } }
  | [], _, _, _, hk, _ => absurd hk (by simp)
  | b :: bs, s, 0, rest, _, h => by
    cases bs <;> simp [sendBytes, sendByte, h]
  | b :: bs, s, k + 1, rest, hk, h => by
    rw [List.replicate_succ, List.cons_append] at h
    rw [sendBytes, sendByte]
    simp only [h]
    rw [sendBytes_hold bs _ k rest (by simpa using hk) rfl]
    simp [State.byteAccepted, ofNat7_succ]

theorem ofNat7_eq_zero {k : Nat} (h : k < 78) : BitVec.ofNat 7 k = 0#7 ↔ k = 0 := by
  rw [← BitVec.toNat_inj, toNat_ofNat7 k (le_of_lt h)]
  rfl

/-- A `WR` from its start that the sink holds at byte `k`. -/
theorem writeMessage_hold (s : State) (hb : s.bi = 0#7) (k : Nat) (rest : List SinkAnswer)
    (hk : k < s.frame.length) (hl : s.flen.toNat ≤ 78)
    (ha : s.answers = List.replicate k .accept ++ .hold :: rest) :
    writeMessage s =
      .ok (.stop { s with answers := rest, wire := s.wire ++ s.frame.take k, bi := BitVec.ofNat 7 k,
                          tx := some { data := s.frame[k], first := decide (k = 0),
                                       last := decide (k + 1 = s.frame.length) } }) := by
  have hlen := s.frame_length
  have hfirst := ofNat7_eq_zero (k := k) (by omega)
  rw [writeMessage_eq s (by rw [hb]; exact Nat.zero_lt_of_lt (hlen ▸ hk)) hl, hb, BitVec.toNat_zero, List.drop_zero,
    sendBytes_hold s.frame s k rest hk ha]
  simp only [hb, BitVec.zero_add, hfirst]

/-- Settles O37: the message is loaded and its `WR` stops at byte `k`. -/
theorem heldByteStaysOnThePort : Obligations.HeldByteStaysOnThePort := by
  intro s i k rest hwf hs hi hl ha hk
  obtain ⟨sl, hsl⟩ := Option.isSome_iff_exists.mp hi
  obtain ⟨m, l, hload, hfr, hfl, -, -⟩ := State.load_fits hl hwf
  have hw := writeMessage_hold { s with fbuf := m, flen := l } hs.1 k rest (by rw [hfr]; exact hk)
    (by rw [hfl]; exact hl) ha
  have hex := exec_eq_sendThen hsl hload
  have hcut := transact_cut (s := { s with fbuf := m, flen := l }) (d := slotDelay sl) hs.2 hw
  rw [sendThen_stop hcut] at hex
  simp only [hfr] at hex
  exact ⟨_, hex, rfl, toNat_ofNat7 k (by omega), rfl, hs.2, rfl, rfl, rfl, rfl, rfl, hfr, rfl, rfl, rfl⟩

/-! ### A message resumed -/

/-- The rest of a `WR` that the sink accepts. -/
theorem writeMessage_rest (s : State) (hb : s.bi.toNat < s.flen.toNat) (hl : s.flen.toNat ≤ 78)
    (ha : s.SinkAccepts (s.flen.toNat - s.bi.toNat)) :
    writeMessage s =
      .ok (.more { s with answers := s.answers.drop (s.flen.toNat - s.bi.toNat),
                          wire := s.wire ++ s.frame.drop s.bi.toNat, tx := none,
                          trace := s.trace ++ [.wr s.frame], mi := s.mi + 1#3, bi := 0#7 }) := by
  have hlen : (s.frame.drop s.bi.toNat).length = s.flen.toNat - s.bi.toNat := by
    rw [List.length_drop, State.frame_length]
  have hne := drop_frame_ne s hb
  rw [writeMessage_eq s hb hl, sendBytes_accept _ s (by rw [hlen]; exact ha)]
  simp [State.messageSent, hne, hlen]
  rfl

/-- The rest of a message and its delay, which the sink accepts. -/
theorem transact_rest (d : Option Millis) (s : State) (hp : s.dpend = false) (hb : s.bi.toNat < s.flen.toNat)
    (hl : s.flen.toNat ≤ 78) (ha : s.SinkAccepts (s.flen.toNat - s.bi.toNat + 1)) :
    ∃ as x, transact d s =
      .ok (.more { s with answers := as, wire := s.wire ++ s.frame.drop s.bi.toNat, tx := none,
                          trace := s.trace ++ .wr s.frame :: d.toList.map Event.dly, mi := s.mi + 1#3, bi := 0#7,
                          dpend := false, dly := x }) := by
  have hw := writeMessage_rest s hb hl (accepts_left ha)
  cases d with
  | none =>
    exact ⟨s.answers.drop (s.flen.toNat - s.bi.toNat), s.dly, by rw [transact_sent hp hw]; simp [delayAfter, hp]⟩
  | some n =>
    have hd := delay_accept n
      { s with answers := s.answers.drop (s.flen.toNat - s.bi.toNat), wire := s.wire ++ s.frame.drop s.bi.toNat,
               tx := none, trace := s.trace ++ [.wr s.frame], mi := s.mi + 1#3, bi := 0#7 } (accepts_right ha)
    exact ⟨(s.answers.drop (s.flen.toNat - s.bi.toNat)).drop 1, none,
      by rw [transact_sent hp hw, delayAfter, hd]; simp⟩

/-- What follows a message ends the command or loads at most 78 bytes. -/
theorem advance_nextBytes (c : CfgConst) (sl : Slot) (s : State) :
    nextMessage c sl = none ∧ advance (nextBytes c sl) s = .ok (s.complete codeOk) ∨
    ∃ sl' bs t, nextMessage c sl = some (sl', bs) ∧ s.load bs = .ok t ∧ advance (nextBytes c sl) s = .ok t := by
  cases hn : nextMessage c sl with
  | none => exact .inl ⟨rfl, by simp only [nextBytes, hn]; rfl⟩
  | some p =>
    have hload := State.load_ok p.2 s (length_nextMessage hn).2
    exact .inr ⟨p.1, p.2, _, rfl, hload, by simp only [nextBytes, hn]; exact hload⟩

/-- What follows a message at whose end nothing of it is left sends nothing. -/
theorem advance_quiet (c : CfgConst) (sl : Slot) {s : State} (hs : s.AtStart) :
    ∃ t, advance (nextBytes c sl) s = .ok t ∧ t.wire = s.wire ∧ t.trace = s.trace ∧ t.bi = 0#7 ∧ t.dpend = false ∧
      t.opr = s.opr ∧ t.strict = s.strict := by
  obtain ⟨hb, hd⟩ := hs
  rcases advance_nextBytes c sl s with ⟨-, h⟩ | ⟨sl', bs, t, hn, hload, h⟩
  · exact ⟨_, h, rfl, rfl, rfl, rfl, rfl, rfl⟩
  · rw [State.load_ok bs s (length_nextMessage hn).2] at hload
    cases hload
    exact ⟨_, h, rfl, rfl, hb, hd, rfl, rfl⟩

/-- Settles O38: loading the message again keeps the position, and the transaction sends the rest. -/
theorem resumedMessageSendsOnlyTheRest : Obligations.ResumedMessageSendsOnlyTheRest := by
  intro s i sl hwf hsl hl hp hb ha
  obtain ⟨m, l, hload, hfr, hfl, -, -⟩ := State.load_fits hl hwf
  obtain ⟨as, x, htr⟩ := transact_rest (slotDelay sl) { s with fbuf := m, flen := l } hp (by rw [hfl]; exact hb)
    (by rw [hfl]; exact hl) (by rw [hfl]; exact ha)
  have hex := exec_eq_sendThen hsl hload
  rw [sendThen_more htr, hfr] at hex
  obtain ⟨t, ht, hrest⟩ := advance_quiet Config.cfg sl (s := { s with
    fbuf := m, flen := l, answers := as, wire := s.wire ++ (encode i).drop s.bi.toNat, tx := none,
    trace := s.trace ++ .wr (encode i) :: (slotDelay sl).toList.map Event.dly, mi := s.mi + 1#3, bi := 0#7,
    dpend := false, dly := x }) ⟨rfl, rfl⟩
  exact ⟨t, hex.trans (outcome_next.mpr ht), hrest⟩

/-! ### A delay pending -/

/-- While the delay after a message is pending, its row asks the sink for the delay alone. -/
theorem exec_pending {i : Instr} {sl : Slot} {n : Millis} {s s₁ : State} (hsl : slotOf i = some sl)
    (hn : slotDelay sl = some n) (hload : s.load (encode i) = .ok s₁) (hp : s₁.dpend = true) :
    exec i s = outcome (match delay n s₁ with
      | .more t => advance (nextBytes Config.cfg sl) t
      | .stop t => .ok t) := by
  rw [exec_eq_sendThen hsl hload, hn]
  cases hd : delay n s₁ with
  | more t => rw [sendThen_more (by rw [transact_pending hp, hd])]
  | stop t => rw [sendThen_stop (by rw [transact_pending hp, hd])]

/-- The three delays (R165), each with the message after it. -/
theorem delayed_rows {i : Instr} {n : Millis} {nb : List Byte}
    (h : (i = .initM1 ∧ n = 20#7 ∧
        nb = [0xF0#8, 0x00#8, 0x01#8, 0x0A#8, 0x01#8, 0x10#8, 0x05#8, 0x6B#8, 0xF7#8]) ∨
      (i = .initM2 ∧ n = 57#7 ∧ nb = initMsg3 Config.cfg) ∨
      (∃ x, i = .autocenterOffM1 x ∧ n = 70#7 ∧ nb = [0xB5#8, Config.cfg.acReg, 0x7F#8])) :
    ∃ sl sl', slotOf i = some sl ∧ slotDelay sl = some n ∧ nextMessage Config.cfg sl = some (sl', nb) := by
  rcases h with ⟨rfl, rfl, rfl⟩ | ⟨rfl, rfl, rfl⟩ | ⟨x, rfl, rfl, rfl⟩
  · exact ⟨.initM1, .initM2, rfl, rfl, rfl⟩
  · exact ⟨.initM2, .initM3, rfl, rfl, rfl⟩
  · exact ⟨.offM1, .offM2, rfl, rfl, rfl⟩

/-- Settles O39: the three answers of the sink to the delay. -/
theorem pendingDelayHoldsTheNextMessage : Obligations.PendingDelayHoldsTheNextMessage := by
  intro s i n nb hwf hp hrow
  obtain ⟨sl, sl', hsl, hd, hn⟩ := delayed_rows hrow
  have hne : sl ≠ .initM3 := by rintro rfl; cases hn
  obtain ⟨m, l, hload, hfr, -, hwf', -⟩ := State.load_fits (length_encode_pos hsl hne).2 hwf
  have hex := exec_pending hsl hd hload hp
  refine ⟨fun ha => ?_, fun rest ha => ?_, fun rest ha => ?_⟩
  · obtain ⟨m', l', hload', hframe, -, -, -⟩ := State.load_fits (s := { s with
      fbuf := m, flen := l, answers := s.answers.drop 1, dly := none, dpend := false,
      trace := s.trace ++ [.dly n] }) (length_nextMessage hn).2 hwf'
    have hacc := delay_accept n { s with fbuf := m, flen := l } ha
    simp only [hacc, nextBytes, hn, Option.map_some, advance, hload'] at hex
    exact ⟨_, hex, rfl, rfl, rfl, rfl, hframe, rfl, rfl, rfl, rfl, rfl⟩
  · simp only [delay, ha] at hex
    exact ⟨_, hex, rfl, rfl, rfl, rfl, hfr, rfl, rfl, rfl, rfl, rfl⟩
  · simp only [delay, ha] at hex
    refine ⟨_, hex, ?_⟩
    constructor <;> simp

/-! ### Positions the sequencer never has -/

theorem sendThen_error {d : Option Millis} {next : State → Except Fault State} {s : State} {e : Fault}
    (h : transact d s = .error e) : sendThen d next s = .error e := by
  simp only [sendThen, h]

/-- A delay pending that the message has not, or no byte left to send. -/
theorem transact_badPosition {d : Option Millis} {s : State}
    (h : s.dpend = true ∧ d = none ∨ s.dpend = false ∧ s.flen.toNat ≤ s.bi.toNat) :
    transact d s = .error .badPosition := by
  rcases h with ⟨hp, rfl⟩ | ⟨hp, hb⟩
  · simp [transact, hp]
  · have hno : ¬ s.bi.toNat < s.flen.toNat := Nat.not_lt.mpr hb
    simp [transact, hp, writeMessage, hno]

/-- Settles O44: the transaction's own guard, the load's bound, and a buffer that decodes to nothing. -/
theorem positionsOutsideTheSequenceStop : Obligations.PositionsOutsideTheSequenceStop := by
  refine ⟨fun s i sl hsl hl h => ?_, fun s z hz => ?_, fun s hp ha hno => ?_⟩
  · have hfl := toNat_ofNat7 _ hl
    rw [exec_eq_sendThen hsl (State.load_ok (encode i) s hl), sendThen_error (transact_badPosition (by rwa [hfl]))]
    rfl
  · have hload : s.load z = .error .fbufRange := if_neg (Nat.not_le.mpr hz)
    rw [exec_eq_emitMessage (i := .initM3 z) rfl, emitMessage_eq, loadThenSend, encode, hload]
    rfl
  · have hfetch := fetchWith_nil_run Config.cfg ha hp
    have hm : State.message Config.cfg { s with done := none } = none := by
      cases hm : State.message Config.cfg { s with done := none } with
      | none => rfl
      | some i =>
        obtain ⟨sl, hsl, hi⟩ := message_eq_some hm
        exact absurd ((hno sl hsl).symm.trans hi) (by simp)
    simp only [step, hfetch, resume, hm]

end Sys2Proof.Machine
end

section
/-! PROOFS. The family `other`, part 5: the commands. Each ends early with a code or sends its messages in order
(`exec_command`), which are the events of the event-level function (R36, R78). -/

namespace Sys2Proof.Machine

/-! ### Completion at once -/

/-- Settles O33: the reserved codes complete at once. -/
theorem reservedCodesEndWithInvalidCommand : Obligations.ReservedCodesEndWithInvalidCommand := by
  intro s i hi
  have key : exec i s = .next (s.complete codeInvalidCommand) := by
    simp only [List.mem_cons, List.not_mem_nil, or_false] at hi
    rcases hi with rfl | rfl
    · rfl
    · rfl
  exact ⟨_, key, State.complete_ends _ s, rfl, rfl, rfl⟩

theorem controlWith_wide {s : State} {wide : Bool} (bs : List Byte) (hst : s.strict = true) (hw : wide = true) :
    controlWith wide bs s = .ok (s.complete codeValueOutOfRange) := by
  simp only [controlWith, hst, hw, Bool.and_self, if_true]

theorem controlWith_inRange {s : State} {wide : Bool} (bs : List Byte) (h : (s.strict && wide) = false) :
    controlWith wide bs s = runItems [⟨bs, none⟩] s := by
  simp only [controlWith, h, Bool.false_eq_true, if_false]

theorem effectWith_wide {c : CfgConst} {s : State} {cat : Category} (hcat : categoryOf c s.opr.etype = some cat)
    (hw : (s.strict && outOfRangeEffect cat s.opr) = true) :
    effectWith c s = .ok (s.complete codeValueOutOfRange) := by
  simp only [effectWith, hcat, hw, if_true]

/-- Settles O34: a wide operand makes the range check hold, and then the command completes at once. -/
theorem strictModeRejectsWideOperands : Obligations.StrictModeRejectsWideOperands := by
  intro s hst
  have early : ∀ {r : Except Fault State}, r = .ok (s.complete codeValueOutOfRange) →
      ∃ t, outcome r = .next t ∧ Ends s [] [] s.answers 2#3 t ∧ t.fbuf = s.fbuf ∧ t.flen = s.flen ∧
        t.acc = s.acc := by
    rintro _ rfl
    exact ⟨_, rfl, State.complete_ends _ s, rfl, rfl, rfl⟩
  refine ⟨fun hid i hi => ?_, fun hwide => ?_, fun cat hcat hwide => ?_⟩
  · have hplay := (outOfRangeId_iff s.opr).mpr hid
    have hmodify := (outOfRangeModify_iff s.opr).mpr (.inl hid)
    simp only [List.mem_cons, List.not_mem_nil, or_false] at hi
    rcases hi with rfl | rfl | rfl
    · exact early (controlWith_wide _ hst hplay)
    · exact early (controlWith_wide _ hst hplay)
    · exact early (controlWith_wide _ hst hmodify)
  · exact early (controlWith_wide _ hst ((outOfRangeModify_iff s.opr).mpr (.inr hwide)))
  · have hout : outOfRangeEffect cat s.opr = true := by
      rcases hwide with h | h
      · exact h
      · exact (outOfRangeEffect_iff cat s.opr).mpr (by cases cat <;> exact h)
    exact early (effectWith_wide hcat (by rw [hst, hout]; rfl))

/-! ### The frame of EFFECT -/

theorem read_eq_of_frame {s t : State} (h : s.frame = t.frame) {a : Nat} (ha : a < s.frame.length) :
    s.fbuf.read a = t.fbuf.read a := by
  have hget : ∀ u : State, a < u.frame.length → u.frame[a]? = some (u.fbuf.read a) := by
    intro u hu
    rw [State.frame_length] at hu
    simp [State.frame, hu]
  have heq := hget t (h ▸ ha)
  rw [← h, hget s ha] at heq
  exact Option.some.inj heq

/-- A load is fixed by what it leaves: the message, and the bytes above it. -/
theorem State.load_eq {bs : List Byte} {s t : State} (hl : bs.length ≤ 78) (hwf : s.fbuf.wf = true)
    (hwft : t.fbuf.wf = true) (ht : t = { s with fbuf := t.fbuf, flen := t.flen }) (hf : t.frame = bs)
    (hab : ∀ a, bs.length ≤ a → t.fbuf.read a = s.fbuf.read a) : s.load bs = .ok t := by
  obtain ⟨m, l, hload, hfr, hfl, hwfm, habm⟩ := State.load_fits hl hwf
  have hm : m = t.fbuf := by
    refine Memory.ext m t.fbuf 0 hwfm hwft fun a _ => ?_
    by_cases ha : bs.length ≤ a
    · rw [habm a ha, hab a ha]
    · exact read_eq_of_frame (s := { s with fbuf := m, flen := l }) (hfr.trans hf.symm)
        (by rw [hfr]; exact Nat.not_le.mp ha)
  have hflen : l = t.flen := by
    apply BitVec.eq_of_toNat_eq
    rw [hfl, ← State.frame_length, hf]
  rw [hload, ht, hm, hflen]

theorem length_effectFrame_eq (c : CfgConst) (cat : Category) (o : Opr) :
    (effectFrame c cat o).length = match cat with | .periodic => 34 | .condition => 22 | .friction => 18 := by
  cases cat <;> rfl

theorem length_effectFrame_le (c : CfgConst) (cat : Category) (o : Opr) :
    0 < (effectFrame c cat o).length ∧ (effectFrame c cat o).length ≤ 78 := by
  cases cat <;> exact ⟨Nat.succ_pos _, by rw [length_effectFrame_eq]; decide⟩

/-- What the accumulator holds after a frame is built (R94, R112). -/
abbrev frameSum (c : CfgConst) (cat : Category) (o : Opr) : Septet :=
  ((effectPayload c cat o).drop 5).foldl accAdd 0#7

/-- EFFECT of a known type and in range sends its frame as its one message, the accumulator set. -/
theorem effectWith_inRange {c : CfgConst} {s : State} {cat : Category} (hwf : s.fbuf.wf = true)
    (hcat : categoryOf c s.opr.etype = some cat) (hr : (s.strict && outOfRangeEffect cat s.opr) = false) :
    effectWith c s = runItems [⟨effectFrame c cat s.opr, none⟩] { s with acc := frameSum c cat s.opr } := by
  obtain ⟨t, hbuild, ht, hf, -, hacc, hwft, hab⟩ := buildEffect_spec c cat s hwf
  have hload : State.load (effectFrame c cat s.opr) { s with acc := frameSum c cat s.opr } = .ok t := by
    refine State.load_eq (length_effectFrame_le c cat s.opr).2 hwf hwft ?_ hf hab
    rw [frameSum, ← hacc]
    exact ht
  simp only [effectWith, hcat, hr, Bool.false_eq_true, if_false, hbuild, sendEffect_eq]
  rw [runItems_cons, loadThenSend, hload]

/-! ### The messages of a command -/

/-- The messages after a slot's, each with its slot's delay (R98, R102). -/
def itemsAfter (c : CfgConst) : Slot → List Item
  | .initM1 => [slotItem .initM2 initMsg2, slotItem .initM3 (initMsg3 c)]
  | .initM2 => [slotItem .initM3 (initMsg3 c)]
  | .offM1 => [slotItem .offM2 (acRegBytes c), slotItem .offM3 (acRwBytes c), slotItem .offM4 (acOffBytes c)]
  | .offM2 => [slotItem .offM3 (acRwBytes c), slotItem .offM4 (acOffBytes c)]
  | .offM3 => [slotItem .offM4 (acOffBytes c)]
  | _ => []

/-- The messages of a command from a slot on, the first with the bytes `bs`. -/
abbrev itemsFrom (c : CfgConst) (sl : Slot) (bs : List Byte) : List Item := slotItem sl bs :: itemsAfter c sl

theorem itemsAfter_of_next {c : CfgConst} {sl sl' : Slot} {bs : List Byte}
    (h : nextMessage c sl = some (sl', bs)) : itemsAfter c sl = itemsFrom c sl' bs := by
  cases sl <;> cases h <;> rfl

theorem itemsAfter_of_last {c : CfgConst} {sl : Slot} (h : nextMessage c sl = none) : itemsAfter c sl = [] := by
  cases sl
  case initM1 | initM2 | offM1 | offM2 | offM3 => cases h
  all_goals rfl

theorem itemsAfter_fit (c : CfgConst) (sl : Slot) : ItemsFit (itemsAfter c sl) := by
  cases sl <;> simp [ItemsFit, itemsAfter, initMsg2, sysexHeader, acRegBytes, acRwBytes, acOffBytes]

theorem itemsFrom_fit {c : CfgConst} {i : Instr} {sl : Slot} (hsl : slotOf i = some sl) (hi : i.wellFormed c = true) :
    ItemsFit (itemsFrom c sl (encode i)) := by
  rintro it (_ | ⟨_, hit⟩)
  · exact length_encode hsl hi
  · exact itemsAfter_fit c sl it hit

/-! ### The first message of each command as a row -/

theorem encode_autocenterOnM1 {c : CfgConst} (hc : c.wellFormed = true) :
    encode (.autocenterOnM1 (c.acOnMode.setWidth 7)) = acOnBytes c := by
  obtain ⟨-, -, -, -, -, hon, -⟩ := wellFormed_spec c hc
  rw [acOnBytes, ← byteOf_setWidth _ hon]
  simp [encode, patPc2, fill]

theorem encode_playM1 (o : Opr) : encode (.playM1 (o.effectId.setWidth 7)) = idBytes Config.ccPlay o := by
  rw [idBytes, ← byteOf_low_bits]
  rfl

theorem encode_stopM1 (o : Opr) : encode (.stopM1 (o.effectId.setWidth 7)) = idBytes Config.ccStop o := by
  rw [idBytes, ← byteOf_low_bits]
  rfl

theorem encode_modifyM1_opr (o : Opr) :
    encode (.modifyM1 (o.param.setWidth 7) (o.effectId.setWidth 7) (o.value.setWidth 14)) = modifyBytes o := by
  rw [encode_modifyM1, lohi, split14_setWidth, modifyBytes, ← byteOf_low_bits, ← byteOf_low_bits]
  rfl

/-! ### What a command does -/

/-- What a command can do from `s`: it ends at once with a code and no event, or it runs its messages from the first
slot of its operation code on. `r` is its answer and `m` the events and code of the event-level function. -/
inductive CommandDoes (s : State) (m : List Event × Code) (r : Host.Outcome State Fault Refusal) : Prop
  | early (code : Code) (hcode : code.toNat ≤ 4) (hm : m = ([], code)) (hr : r = .next (s.complete code))
  | messages (i : Instr) (sl : Slot) (acc : Septet) (hsl : slotOf i = some sl)
      (hi : i.wellFormed Config.cfg = true) (hat : slotAt s.opr.op s.opr.enabled 0#3 = some sl)
      (hm : m = (itemsEvents (itemsFrom Config.cfg sl (encode i)), codeOk))
      (hr : r = outcome (runItems (itemsFrom Config.cfg sl (encode i)) { s with acc := acc }))

section
variable {s : State}

theorem init_does (hop : s.opr.op = 0#3) :
    CommandDoes s (eventModel Config.cfg s.strict s.opr) (exec .init s) := by
  have hdec : decodeOp s.opr.op = .init := by rw [hop]; rfl
  refine .messages .initM1 .initM1 s.acc rfl rfl (by rw [hop]; rfl) ?_ rfl
  simp only [eventModel, hdec]
  rfl

theorem autocenter_does (hop : s.opr.op = 1#3) :
    CommandDoes s (eventModel Config.cfg s.strict s.opr) (exec .autocenter s) := by
  have hdec : decodeOp s.opr.op = .autocenter := by rw [hop]; rfl
  have hon := encode_autocenterOnM1 cfg_wellFormed
  obtain ⟨-, -, -, -, -, hsafe, -⟩ := wellFormed_spec _ cfg_wellFormed
  have hwf : decide (byteOf (Config.cfg.acOnMode.setWidth 7) = Config.cfg.acOnMode) = true :=
    decide_eq_true (byteOf_setWidth _ hsafe)
  change CommandDoes s _ (outcome (autocenterWith Config.cfg s))
  simp only [eventModel, hdec, autocenterWith]
  cases hen : s.opr.enabled with
  | true =>
    refine .messages (.autocenterOnM1 (Config.cfg.acOnMode.setWidth 7)) .onM1 s.acc rfl hwf
      (by rw [hop, hen]; rfl) ?_ ?_
    · rw [hon]; rfl
    · rw [hon]; rfl
  | false =>
    have hoff : encode (.autocenterOffM1 (Config.cfg.acOnMode.setWidth 7)) = acOnBytes Config.cfg := hon
    refine .messages (.autocenterOffM1 (Config.cfg.acOnMode.setWidth 7)) .offM1 s.acc rfl hwf
      (by rw [hop, hen]; rfl) ?_ ?_
    · rw [hoff]; rfl
    · rw [hoff]; rfl

theorem effect_does (hop : s.opr.op = 2#3) (hwf : s.fbuf.wf = true) :
    CommandDoes s (eventModel Config.cfg s.strict s.opr) (exec .effect s) := by
  have hdec : decodeOp s.opr.op = .effect := by rw [hop]; rfl
  have hex : exec .effect s = outcome (effectWith Config.cfg s) := rfl
  cases hcat : categoryOf Config.cfg s.opr.etype with
  | none =>
    exact .early codeInvalidEffectType (by decide) (by simp only [eventModel, hdec, hcat]) (exec_effect_unknown hcat)
  | some cat =>
    cases hr : s.strict && outOfRangeEffect cat s.opr with
    | true =>
      refine .early codeValueOutOfRange (by decide) ?_ (by rw [hex, effectWith_wide hcat hr]; rfl)
      simp only [eventModel, hdec, hcat, hr, if_true]
    | false =>
      obtain ⟨i, hsl, hi, he⟩ := effectFrame_message cfg_wellFormed hcat
      refine .messages i .effectM1 (frameSum Config.cfg cat s.opr) hsl hi (by rw [hop]; rfl) ?_ ?_
      · rw [he]
        simp only [eventModel, hdec, hcat, hr, Bool.false_eq_true, if_false]
        rfl
      · rw [he, hex, effectWith_inRange hwf hcat hr]
        rfl

/-- PLAY, STOP and MODIFY, which differ in their range check and their message. -/
theorem control_does {i : Instr} {sl : Slot} {wide : Bool} {bs : List Byte} {m : List Event × Code}
    (hsl : slotOf i = some sl) (hi : i.wellFormed Config.cfg = true) (hbs : encode i = bs)
    (hat : slotAt s.opr.op s.opr.enabled 0#3 = some sl) (hlast : itemsFrom Config.cfg sl bs = [⟨bs, none⟩])
    (hm : m = if s.strict && wide then ([], codeValueOutOfRange) else ([.wr bs], codeOk)) :
    CommandDoes s m (outcome (controlWith wide bs s)) := by
  cases hr : s.strict && wide with
  | true =>
    obtain ⟨hst, hw⟩ := Bool.and_eq_true_iff.mp hr
    exact .early codeValueOutOfRange (by decide) (by rw [hm, hr]; rfl) (by rw [controlWith_wide bs hst hw]; rfl)
  | false =>
    refine .messages i sl s.acc hsl hi hat ?_ ?_
    · rw [hm, hr, hbs, hlast]; rfl
    · rw [controlWith_inRange bs hr, hbs, hlast]

theorem play_does (hop : s.opr.op = 3#3) :
    CommandDoes s (eventModel Config.cfg s.strict s.opr) (exec .play s) := by
  have hdec : decodeOp s.opr.op = .play := by rw [hop]; rfl
  refine control_does (sl := .playM1) rfl rfl (encode_playM1 s.opr) (by rw [hop]; rfl) rfl ?_
  simp only [eventModel, hdec]
  rfl

theorem stop_does (hop : s.opr.op = 4#3) :
    CommandDoes s (eventModel Config.cfg s.strict s.opr) (exec .stop s) := by
  have hdec : decodeOp s.opr.op = .stop := by rw [hop]; rfl
  refine control_does (sl := .stopM1) rfl rfl (encode_stopM1 s.opr) (by rw [hop]; rfl) rfl ?_
  simp only [eventModel, hdec]
  rfl

theorem modify_does (hop : s.opr.op = 5#3) :
    CommandDoes s (eventModel Config.cfg s.strict s.opr) (exec .modify s) := by
  have hdec : decodeOp s.opr.op = .modify := by rw [hop]; rfl
  refine control_does (sl := .modifyM1) rfl rfl (encode_modifyM1_opr s.opr) (by rw [hop]; rfl) rfl ?_
  simp only [eventModel, hdec]
  rfl

theorem reserved_does {i : Instr} (hdec : decodeOp s.opr.op = i) (hi : i = .reserved6 ∨ i = .reserved7) :
    CommandDoes s (eventModel Config.cfg s.strict s.opr) (exec i s) := by
  rcases hi with rfl | rfl
  · exact .early codeInvalidCommand (by decide) (by simp only [eventModel, hdec]) rfl
  · exact .early codeInvalidCommand (by decide) (by simp only [eventModel, hdec]) rfl

theorem op_cases (w : BitVec 3) :
    w = 0#3 ∨ w = 1#3 ∨ w = 2#3 ∨ w = 3#3 ∨ w = 4#3 ∨ w = 5#3 ∨ w = 6#3 ∨ w = 7#3 := by
  revert w; decide

/-- Every command does what the event-level function says. -/
theorem exec_command (hwf : s.fbuf.wf = true) :
    CommandDoes s (eventModel Config.cfg s.strict s.opr) (exec (decodeOp s.opr.op) s) := by
  rcases op_cases s.opr.op with h | h | h | h | h | h | h | h
  · rw [show decodeOp s.opr.op = .init by rw [h]; rfl]; exact init_does h
  · rw [show decodeOp s.opr.op = .autocenter by rw [h]; rfl]; exact autocenter_does h
  · rw [show decodeOp s.opr.op = .effect by rw [h]; rfl]; exact effect_does h hwf
  · rw [show decodeOp s.opr.op = .play by rw [h]; rfl]; exact play_does h
  · rw [show decodeOp s.opr.op = .stop by rw [h]; rfl]; exact stop_does h
  · rw [show decodeOp s.opr.op = .modify by rw [h]; rfl]; exact modify_does h
  · exact reserved_does rfl (.inl (by rw [h]; rfl))
  · exact reserved_does rfl (.inr (by rw [h]; rfl))

end

/-! ### Every command, under a sink that accepts and under one that fails -/

/-- The accumulator has no part in how a command ends. -/
theorem Ends.of_acc {s t : State} {acc : Septet} {evs : List Event} {bytes : List Byte} {rest : List SinkAnswer}
    {code : Code} (h : Ends { s with acc := acc } evs bytes rest code t) : Ends s evs bytes rest code t :=
  { h with }

/-- Settles O40: a command that ends early has no event, any other runs its messages to the end. -/
theorem commandsRefineTheEventFunction : Obligations.CommandsRefineTheEventFunction := by
  intro s hwf hs ha
  cases exec_command hwf with
  | early code _ hm hr =>
    rw [hm]
    exact ⟨_, hr, State.complete_ends code s⟩
  | messages i sl acc hsl hi _ hm hr =>
    rw [hm] at ha ⊢
    obtain ⟨t, ht, hc, -⟩ := runItems_accept _ { s with acc := acc } (itemsFrom_fit hsl hi) hwf hs ha
    exact ⟨t, by rw [hr, outcome_next]; exact ht, hc.of_acc⟩

theorem answersOf_le_of_completed : ∀ {k : Nat} {evs : List Event}, completedWithin k evs = evs → answersOf evs ≤ k
  | _, [], _ => Nat.zero_le _
  | k, e :: es, h => by
    rw [completedWithin] at h
    split at h
    · have ih := answersOf_le_of_completed (List.cons.inj h).2
      have hsum : answersOf (e :: es) = e.answers + answersOf es := by simp [answersOf]
      omega
    · cases h

/-- Settles O36: the failing answer falls within the command's messages. -/
theorem sinkFailureLeavesAProperPart : Obligations.SinkFailureLeavesAProperPart := by
  intro s k rest hwf hs ha hk
  have hpart := mt (answersOf_le_of_completed (k := k)) (Nat.not_le.mpr hk)
  cases exec_command hwf with
  | early code _ hm _ =>
    rw [hm] at hk
    exact absurd hk (Nat.not_lt_zero k)
  | messages i sl acc hsl hi _ hm hr =>
    rw [hm] at hk hpart ⊢
    obtain ⟨t, ht, hc, -⟩ := runItems_fail _ { s with acc := acc } k rest (itemsFrom_fit hsl hi) hwf hs ha hk
    exact ⟨t, by rw [hr, outcome_next]; exact ht, hc.of_acc, hpart⟩

/-! ### Single commands under an accepting sink -/

/-- Settles O23: the one message of the branch. -/
theorem autocenterOnSendsOneMessage : Obligations.AutocenterOnSendsOneMessage := by
  intro s hwf hs hen ha
  obtain ⟨t, ht, hc, hacc, -, hlast, hab⟩ :=
    runItems_accept (acOnItems Config.cfg) s (by simp [ItemsFit, acOnItems, acOnBytes]) hwf hs ha
  refine ⟨t, ?_, hc, hacc, hlast _ rfl, fun a h2 => hab a (by simpa [acOnItems, acOnBytes] using h2)⟩
  change outcome (autocenterWith Config.cfg s) = _
  rw [outcome_next, autocenterWith, hen]
  exact ht

/-- Settles O24: the four messages of the branch; none of them is longer than three bytes. -/
theorem autocenterOffSendsFourMessages : Obligations.AutocenterOffSendsFourMessages := by
  obtain ⟨-, -, -, -, -, -, -, hmode, -⟩ := wellFormed_spec _ cfg_wellFormed
  refine ⟨hmode, fun s hwf hs hen ha => ?_⟩
  obtain ⟨t, ht, hc, hacc, -, hlast, hab⟩ :=
    runItems_accept (acOffItems Config.cfg) s
      (by simp [ItemsFit, acOffItems, acOnBytes, acRegBytes, acRwBytes, acOffBytes]) hwf hs ha
  refine ⟨t, ?_, hc, hacc, hlast _ rfl, fun a h3 => hab a ?_⟩
  · change outcome (autocenterWith Config.cfg s) = _
    rw [outcome_next, autocenterWith, hen]
    exact ht
  · have h2 : 2 ≤ a := le_of_lt h3
    simp [acOffItems, acOnBytes, acRegBytes, acRwBytes, acOffBytes, h2, h3]

/-- A command with one message and no delay, when the sink accepts it. -/
theorem runItems_one_accept {bs : List Byte} {s : State} (hpos : 0 < bs.length) (hl : bs.length ≤ 78)
    (hwf : s.fbuf.wf = true) (hs : s.AtStart) (ha : s.SinkAccepts bs.length) :
    ∃ t, runItems [⟨bs, none⟩] s = .ok t ∧ Completes s [.wr bs] codeOk t ∧ t.acc = s.acc ∧ Holds s bs t := by
  have hn : answersOf (itemsEvents [⟨bs, none⟩]) = bs.length := rfl
  obtain ⟨t, ht, hc, hacc, -, hlast, hab⟩ :=
    runItems_accept [⟨bs, none⟩] s (by simp [ItemsFit, hpos, hl]) hwf hs (by rw [hn]; exact ha)
  exact ⟨t, ht, hc, hacc, hlast _ rfl, fun a h => hab a (by simpa using h)⟩

/-- Settles O27: the frame is built with the accumulator at its sum, then sent as the one message. -/
theorem effectSendsItsFrame : Obligations.EffectSendsItsFrame := by
  intro s cat hwf hs hcat hmode ha
  have hr : (s.strict && outOfRangeEffect cat s.opr) = false := by
    rcases hmode with h | h
    · rw [h, Bool.false_and]
    · rw [h, Bool.and_false]
  obtain ⟨hpos, hl⟩ := length_effectFrame_le Config.cfg cat s.opr
  obtain ⟨t, ht, hc, hacc, hholds⟩ :=
    runItems_one_accept (s := { s with acc := frameSum Config.cfg cat s.opr }) hpos hl hwf hs ha
  refine ⟨t, ?_, hc.of_acc, ?_, ⟨hholds.frame, hholds.above⟩, length_effectFrame_eq Config.cfg cat s.opr⟩
  · change outcome (effectWith Config.cfg s) = _
    rw [outcome_next, effectWith_inRange hwf hcat hr]
    exact ht
  · rw [hacc, toNat_foldl_accAdd]
    simp

theorem mask7_eq_and (b : Byte) : mask7 b.toNat = b &&& 0x7F#8 := by
  apply BitVec.eq_of_toNat_eq
  rw [toNat_mask7, toNat_and_7F]

theorem control_accept {s : State} {wide : Bool} {bs bs' : List Byte} (hwide : s.strict = false ∨ wide = false)
    (hbs : bs = bs') (hpos : 0 < bs'.length) (hl : bs'.length ≤ 78) (hwf : s.fbuf.wf = true) (hs : s.AtStart)
    (ha : s.SinkAccepts bs'.length) :
    ∃ t, outcome (controlWith wide bs s) = .next t ∧ Completes s [.wr bs'] codeOk t ∧ t.acc = s.acc ∧
      Holds s bs' t := by
  have hr : (s.strict && wide) = false := by
    rcases hwide with h | h
    · rw [h, Bool.false_and]
    · rw [h, Bool.and_false]
  subst hbs
  obtain ⟨t, ht, hrest⟩ := runItems_one_accept hpos hl hwf hs ha
  exact ⟨t, by rw [outcome_next, controlWith_inRange _ hr]; exact ht, hrest⟩

/-- Settles O31: in range the one message is sent; its masked bytes are MASK7's and SPLIT14's. -/
theorem controlCommandsSendTheirMessage : Obligations.ControlCommandsSendTheirMessage := by
  intro s hwf hs
  have hid : s.opr.effectId.toNat ≤ 0x7F → outOfRangeId s.opr = false := fun h =>
    Bool.eq_false_iff.mpr (mt (outOfRangeId_iff s.opr).mp (Nat.not_lt.mpr h))
  refine ⟨fun ha hr => ?_, fun ha hr => ?_, fun ha hr => ?_⟩
  · exact control_accept (hr.imp_right hid) (by rw [idBytes, mask7_eq_and]) (Nat.succ_pos _) (by simp) hwf hs ha
  · exact control_accept (hr.imp_right hid) (by rw [idBytes, mask7_eq_and]) (Nat.succ_pos _) (by simp) hwf hs ha
  · refine control_accept (hr.imp_right fun h => Bool.eq_false_iff.mpr ?_)
      (by rw [modifyBytes, mask7_eq_and, mask7_eq_and]; rfl) (Nat.succ_pos _) (by simp) hwf hs ha
    rw [Ne, outOfRangeModify_iff]
    omega

/-! ### Operands of another category -/

theorem effectTail_eq (c : CfgConst) (cat : Category) (s : State) :
    effectTail c cat s = s.appendAll (effectTailBytes c cat s.opr) := by
  cases cat <;> simp [effectTail, tailPeriodic, tailCondition, tailFriction, effectTailBytes, lohi]

theorem State.load_opr {bs : List Byte} {s t : State} (h : s.load bs = .ok t) : t.opr = s.opr := by
  unfold State.load at h
  split at h
  · cases h; rfl
  · cases h

theorem State.append_opr {b : Byte} {s t : State} (h : s.append b = .ok t) : t.opr = s.opr := by
  unfold State.append at h
  split at h
  · cases h; rfl
  · cases h

theorem State.appendAll_opr : ∀ {bs : List Byte} {s t : State}, s.appendAll bs = .ok t → t.opr = s.opr
  | [], _, _, h => by cases h; rfl
  | b :: bs, s, t, h => by
    rw [State.appendAll] at h
    split at h
    · exact (State.appendAll_opr h).trans (State.append_opr ‹_›)
    · cases h

theorem effectHead_opr {c : CfgConst} {s t : State} (h : effectHead c s = .ok t) : t.opr = s.opr := by
  unfold effectHead at h
  split at h
  · cases h
  · exact (State.appendAll_opr h).trans (State.load_opr ‹_›)

/-- Other operands latched, and nothing else changed. -/
abbrev State.withOpr (p : Opr) : State → State := State.mapHost (fun _ => p) id id

theorem appendAll_withOpr (p : Opr) : ∀ (bs : List Byte) (s : State),
    (s.withOpr p).appendAll bs = (s.appendAll bs).map (State.withOpr p)
  | [], _ => rfl
  | b :: bs, s => by
    have happ : (s.withOpr p).append b = (s.append b).map (State.withOpr p) := by
      have hfl : (s.withOpr p).flen = s.flen := rfl
      unfold State.append
      rw [hfl]
      split
      · rfl
      · rfl
    rw [State.appendAll, State.appendAll, happ]
    cases s.append b with
    | error e => rfl
    | ok t => exact appendAll_withOpr p bs t

/-- What EFFECT of a category reads of two operand records is the same (R16). -/
structure SameEffect (c : CfgConst) (cat : Category) (o p : Opr) : Prop where
  etype      : o.etype = p.etype
  duration   : o.duration = p.duration
  buttonMask : o.buttonMask = p.buttonMask
  tail       : effectTailBytes c cat o = effectTailBytes c cat p
  range      : outOfRangeEffect cat o = outOfRangeEffect cat p

section
variable {c : CfgConst} {cat : Category} {s : State} {p : Opr} (h : SameEffect c cat s.opr p)
include h

theorem effectHead_withOpr : effectHead c (s.withOpr p) = (effectHead c s).map (State.withOpr p) := by
  have hload := load_mapHost (fun _ => p) id id sysexHeader s
  unfold effectHead
  rw [hload]
  cases s.load sysexHeader with
  | error e => rfl
  | ok t =>
    rw [h.etype, h.duration, h.buttonMask]
    exact appendAll_withOpr p _ t

theorem buildEffect_withOpr : buildEffect c cat (s.withOpr p) = (buildEffect c cat s).map (State.withOpr p) := by
  unfold buildEffect
  rw [effectHead_withOpr h]
  cases hhead : effectHead c s with
  | error e => rfl
  | ok t =>
    have htail : effectTail c cat (t.withOpr p) = (effectTail c cat t).map (State.withOpr p) := by
      rw [effectTail_eq, effectTail_eq, effectHead_opr hhead, h.tail]
      exact appendAll_withOpr p _ t
    simp only [Except.map, htail]
    cases effectTail c cat t with
    | error e => rfl
    | ok u => exact appendAll_withOpr p _ (u.sumFrom Config.csumStart)

theorem effectWith_withOpr (hcat : categoryOf c p.etype = some cat) :
    effectWith c (s.withOpr p) = (effectWith c s).map (State.withOpr p) := by
  have hcat' : categoryOf c (s.withOpr p).opr.etype = some cat := hcat
  have hopr : (s.withOpr p).opr = p := rfl
  have hst : (s.withOpr p).strict = s.strict := rfl
  unfold effectWith
  rw [hcat', h.etype, hcat]
  simp only [hopr, hst, h.range]
  split
  · rfl
  · rw [buildEffect_withOpr h]
    cases buildEffect c cat s with
    | error e => rfl
    | ok t =>
      simp only [Except.map, sendEffect_eq]
      exact sendThen_mapHost (fun _ => rfl) none t

end

/-- Settles O30: EFFECT's answer is mapped to the answer under the other record. -/
theorem effectIgnoresForeignOperands : Obligations.EffectIgnoresForeignOperands := by
  intro s t p het hdu hbm hper hcon hfri he
  change outcome (effectWith Config.cfg s) = _ at he
  change outcome (effectWith Config.cfg (s.withOpr p)) = .next (t.withOpr p)
  rw [outcome_next] at he ⊢
  suffices hmap : effectWith Config.cfg (s.withOpr p) = (effectWith Config.cfg s).map (State.withOpr p) by
    rw [hmap, he]; rfl
  cases hcat : categoryOf Config.cfg p.etype with
  | none =>
    have hcat' : categoryOf Config.cfg (s.withOpr p).opr.etype = none := hcat
    rw [effectWith, effectWith, hcat', het, hcat]
    rfl
  | some cat =>
    refine effectWith_withOpr (cat := cat) ?_ hcat
    cases cat with
    | periodic =>
      obtain ⟨h1, h2, h3, h4, h5, h6, h7, h8, h9⟩ := hper hcat
      constructor <;> simp only [effectTailBytes, outOfRangeEffect, het, hdu, hbm, h1, h2, h3, h4, h5, h6, h7, h8, h9]
    | condition =>
      obtain ⟨h1, h2, h3, h4⟩ := hcon hcat
      constructor <;> simp only [effectTailBytes, outOfRangeEffect, het, hdu, hbm, h1, h2, h3, h4]
    | friction =>
      obtain ⟨h1, h2⟩ := hfri hcat
      constructor <;> simp only [effectTailBytes, outOfRangeEffect, het, hdu, hbm, h1, h2]

/-! ### INIT and its messages -/

/-- Running a command's messages from one that is in the buffer already. -/
theorem runItems_loaded {it : Item} {s t : State} (its : List Item) (hwf : s.fbuf.wf = true)
    (h : s.load it.bytes = .ok t) : runItems (it :: its) s = runItems (it :: its) t := by
  obtain ⟨hl, -, -, hf, hwft, -⟩ := State.load_spec it.bytes s t hwf h
  rw [runItems_cons, runItems_cons, loadThenSend, loadThenSend, h, State.load_same it.bytes t hwft hl hf]

/-- A command's messages are its first one, emitted, and then the others from there. -/
theorem runItems_emitMessage {it : Item} {nb : List Byte} {s : State} (hit : 0 < it.bytes.length)
    (hl : it.bytes.length ≤ 78) (hn : nb.length ≤ 78) (hwf : s.fbuf.wf = true) (hs : s.AtStart)
    (ha : s.SinkAccepts (answersOf it.events)) :
    ∃ t, emitMessage it (some nb) s = .ok t ∧ Advances s it.events t ∧ t.fbuf.wf = true ∧
      ∀ d its, runItems (it :: ⟨nb, d⟩ :: its) s = runItems (⟨nb, d⟩ :: its) t := by
  obtain ⟨t, ht, had, hwft, -⟩ := emitMessage_next it nb s hit hl hn hwf hs ha
  refine ⟨t, ht, had, hwft, fun d its => ?_⟩
  obtain ⟨m, l, hload, hfr, hfl, hwf', -⟩ := State.load_fits (bs := it.bytes) hl hwf
  have hev : Item.events ⟨State.frame { s with fbuf := m, flen := l }, it.delay⟩ = it.events := by rw [hfr]
  have htr := transact_accept it.delay { s with fbuf := m, flen := l } hs (by rw [hfl]; exact hit)
    (by rw [hfl]; exact hl) (by rw [hev]; exact ha)
  rw [emitMessage_eq, loadThenSend, hload] at ht
  rw [runItems_cons, loadThenSend, hload]
  simp only [sendThen_more htr] at ht ⊢
  exact runItems_loaded its hwf' ht

/-- Settles O43: each message emitted leaves the rest of INIT to run from there, and the last one is that rest. -/
theorem initIsItsThreeMessages : Obligations.InitIsItsThreeMessages := by
  intro s hwf hs ha
  have h91 : s.SinkAccepts (3 + (10 + 78)) := ha
  obtain ⟨t₁, h₁, had₁, hwf₁, hrun₁⟩ := runItems_emitMessage (it := slotItem .initM1 initMsg1) (nb := initMsg2)
    (by decide) (by decide) (by decide) hwf hs (accepts_left h91)
  have ha₁ : t₁.SinkAccepts (10 + 78) := by
    rw [State.SinkAccepts, had₁.answers]
    exact accepts_right h91
  obtain ⟨t₂, h₂, had₂, hwf₂, hrun₂⟩ := runItems_emitMessage (it := slotItem .initM2 initMsg2)
    (nb := initMsg3 Config.cfg) (by decide) (by decide) (length_initMsg3 _).le hwf₁ ⟨had₁.bi, had₁.dpend⟩
    (accepts_left ha₁)
  have ha₂ : t₂.SinkAccepts (initMsg3 Config.cfg).length := by
    rw [State.SinkAccepts, had₂.answers, length_initMsg3]
    exact accepts_right ha₁
  obtain ⟨t₃, h₃, -⟩ := runItems_one_accept (by rw [length_initMsg3]; decide) (length_initMsg3 _).le hwf₂
    ⟨had₂.bi, had₂.dpend⟩ ha₂
  refine ⟨t₁, t₂, t₃, outcome_next.mpr h₁, outcome_next.mpr h₂, outcome_next.mpr h₃, outcome_next.mpr ?_⟩
  calc initWith Config.cfg s
    _ = runItems (initItems Config.cfg) s := rfl
    _ = runItems [slotItem .initM2 initMsg2, ⟨initMsg3 Config.cfg, none⟩] t₁ := hrun₁ _ _
    _ = runItems [⟨initMsg3 Config.cfg, none⟩] t₂ := hrun₂ _ _
    _ = .ok t₃ := h₃

end Sys2Proof.Machine
end

section
/-! PROOFS. The family `other`, part 6: the sequencer. A running machine is inside one message of its command
(`State.Sends`); what one step can do from there is said once (`SentOn`), and the invariant, progress, the recorded
events and termination are read off it. -/

namespace Sys2Proof.Machine

/-! ### The sequence of slots (R19, R78) -/

theorem slotAt_mi {op : BitVec 3} {en : Bool} {mi : BitVec 3} {sl : Slot} (h : slotAt op en mi = some sl) :
    mi.toNat ≤ 3 := by
  have hall : ∀ (op : BitVec 3) (en : Bool) (mi : BitVec 3), (slotAt op en mi).isSome = true → mi.toNat ≤ 3 := by
    decide
  exact hall op en mi (Option.isSome_of_eq_some h)

theorem slotAt_next {c : CfgConst} {op : BitVec 3} {en : Bool} {mi : BitVec 3} {sl sl' : Slot} {bs : List Byte}
    (h : slotAt op en mi = some sl) (hn : nextMessage c sl = some (sl', bs)) :
    slotAt op en (mi + 1#3) = some sl' := by
  cases sl <;> cases hn
  all_goals
    revert op en mi
    decide

/-- The next message is the encoding of a well-formed row of the next slot (R73). -/
theorem nextMessage_encode {c : CfgConst} (hc : c.wellFormed = true) {sl sl' : Slot} {bs : List Byte}
    (hn : nextMessage c sl = some (sl', bs)) :
    ∃ i, slotOf i = some sl' ∧ i.wellFormed c = true ∧ encode i = bs := by
  obtain ⟨-, -, -, -, -, -, hoff, -, hreg, hb1, hb2, -⟩ := wellFormed_spec c hc
  have reg := byteOf_setWidth _ hreg
  have rw1 := byteOf_setWidth _ hb1
  have rw2 := byteOf_setWidth _ hb2
  have off := byteOf_setWidth _ hoff
  cases sl <;> cases hn
  case initM1 => exact ⟨.initM2, rfl, rfl, rfl⟩
  case initM2 => exact ⟨.initM3 (initMsg3 c), rfl, decide_eq_true rfl, rfl⟩
  case offM1 =>
    exact ⟨.autocenterOffM2 (c.acReg.setWidth 7), rfl, decide_eq_true reg,
      by simp [encode, patAcReg, fill, reg, acRegBytes]⟩
  case offM2 =>
    exact ⟨.autocenterOffM3 (c.acRwB1.setWidth 7) (c.acRwB2.setWidth 7), rfl, by simp [Instr.wellFormed, rw1, rw2],
      by simp [encode, patRw3, fill, rw1, rw2, acRwBytes]⟩
  case offM3 =>
    exact ⟨.autocenterOffM4 (c.acOffMode.setWidth 7), rfl, decide_eq_true off,
      by simp [encode, patPc2, fill, off, acOffBytes]⟩

theorem length_itemsAfter_le (c : CfgConst) (sl : Slot) : (itemsAfter c sl).length ≤ 3 := by
  cases sl <;> simp [itemsAfter]

/-! ### A machine inside a message -/

/-- PWENC runs and is inside the message of its command at slot `sl` (R19, R23, R45). -/
structure State.Sends (c : CfgConst) (sl : Slot) (s : State) : Prop where
  phase   : s.phase = .run
  wf      : s.fbuf.wf = true
  slot    : s.slot = some sl
  message : ∃ i, slotOf i = some sl ∧ i.wellFormed c = true ∧ encode i = s.frame
  sending : s.dpend = false → s.bi.toNat < s.flen.toNat ∧ s.dly = none
  waiting : s.dpend = true → s.bi = 0#7 ∧ s.tx = none ∧ s.dly = slotDelay sl ∧ slotDelay sl ≠ none

/-- What an action of the host that leaves the sequencer alone may change. -/
theorem State.Sends.ports {c : CfgConst} {sl : Slot} {s : State} (h : s.Sends c sl) (acts : List HostAction)
    (st : Bool) (rd : List (HostReg × Code)) :
    State.Sends c sl { s with done := none, actions := acts, strict := st, reads := rd } :=
  { h with }

theorem State.Sends.flen_le {c : CfgConst} {sl : Slot} {s : State} (h : s.Sends c sl) : s.flen.toNat ≤ 78 := by
  obtain ⟨i, hsl, hi, he⟩ := h.message
  rw [← s.frame_length, ← he]
  exact (length_encode hsl hi).2

theorem State.slot_mi {s : State} {sl : Slot} (h : s.slot = some sl) : s.mi.toNat ≤ 4 := by
  unfold State.slot at h
  have hle := slotAt_mi h
  split at hle
  · have hpred : ∀ mi : BitVec 3, (mi - 1#3).toNat ≤ 3 → mi.toNat ≤ 4 := by decide
    exact hpred _ hle
  · exact le_trans hle (by decide)

/-- While PWENC runs, the invariant is to be inside a message, with a named code in `STATUS.err`. -/
theorem inv_iff_of_run {c : CfgConst} (hc : c.wellFormed = true) {s : State} (hp : s.phase = .run) :
    s.Inv c ↔ s.err.toNat ≤ 4 ∧ ∃ sl, s.Sends c sl := by
  constructor
  · rintro ⟨hwf, -, herr, -, -, hrun⟩
    obtain ⟨sl, i, hsl, hdec, hi, hsend, hwait⟩ := hrun hp
    obtain ⟨he, hslot⟩ := encode_of_decode hdec
    exact ⟨herr, sl, ⟨hp, hwf, hsl, ⟨i, hslot, hi, he⟩, hsend, hwait⟩⟩
  · rintro ⟨herr, sl, h⟩
    obtain ⟨i, hslot, hi, he⟩ := h.message
    have hdec : decode c (some sl) s.frame = some i := by
      rw [← he, ← hslot]
      exact decode_encode hc hi
    exact ⟨h.wf, h.flen_le, herr, State.slot_mi h.slot, fun hidle => absurd (hp.symm.trans hidle) (by decide),
      fun _ => ⟨sl, i, h.slot, hdec, hi, h.sending, h.waiting⟩⟩

/-! ### What is left of a command -/

/-- The events of the running command that are still to come. -/
def leftEvents (c : CfgConst) (sl : Slot) (s : State) : List Event :=
  eventsLeft (slotDelay sl) s ++ itemsEvents (itemsAfter c sl)

/-- The bytes of the running command that are still to be sent. -/
def leftBytes (c : CfgConst) (sl : Slot) (s : State) : List Byte :=
  bytesLeft s ++ wireOf (itemsEvents (itemsAfter c sl))

/-- How many answers and messages are at most between `s` and the end of its command. -/
def stepsLeft (c : CfgConst) (sl : Slot) (s : State) : Nat := s.answers.length + (itemsAfter c sl).length

/-- `l` grew to `l'` by what was taken from the front of `r`, of which `r'` is left. -/
def Moved {α : Type} (l r l' r' : List α) : Prop := ∃ x, l' = l ++ x ∧ r = x ++ r'

theorem Moved.refl {α : Type} (l r : List α) : Moved l r l r := ⟨[], by simp⟩

theorem Moved.trans {α : Type} {l r l' r' l'' r'' : List α} (h : Moved l r l' r') (h' : Moved l' r' l'' r'') :
    Moved l r l'' r'' := by
  obtain ⟨x, rfl, rfl⟩ := h
  obtain ⟨y, rfl, rfl⟩ := h'
  exact ⟨x ++ y, by simp, by simp⟩

/-- What stays the same while a command runs. -/
structure SameCommand (s t : State) : Prop where
  opr     : t.opr = s.opr
  strict  : t.strict = s.strict
  actions : t.actions = s.actions
  reads   : t.reads = s.reads
  codes   : t.codes = s.codes
  err     : t.err = s.err

theorem SameCommand.trans {s t u : State} (h : SameCommand s t) (h' : SameCommand t u) : SameCommand s u :=
  ⟨h'.opr.trans h.opr, h'.strict.trans h.strict, h'.actions.trans h.actions, h'.reads.trans h.reads,
    h'.codes.trans h.codes, h'.err.trans h.err⟩

/-- From `s`, inside the message at `sl`, the command goes on at `t`, inside the message at `sl'`; an answer was taken
or a message is over. -/
structure Continues (c : CfgConst) (sl : Slot) (s : State) (sl' : Slot) (t : State) : Prop where
  sends   : t.Sends c sl'
  same    : SameCommand s t
  trace   : Moved s.trace (leftEvents c sl s) t.trace (leftEvents c sl' t)
  wire    : Moved s.wire (leftBytes c sl s) t.wire (leftBytes c sl' t)
  answers : t.answers <:+ s.answers
  less    : stepsLeft c sl' t < stepsLeft c sl s

theorem Continues.trans {c : CfgConst} {sl sl' sl'' : Slot} {s t u : State} (h : Continues c sl s sl' t)
    (h' : Continues c sl' t sl'' u) : Continues c sl s sl'' u :=
  ⟨h'.sends, h.same.trans h'.same, h.trace.trans h'.trace, h.wire.trans h'.wire, h'.answers.trans h.answers,
    h'.less.trans h.less⟩

/-- The sink failed and the command is complete (R140): only whole messages and delays were recorded, the code is
`TransportFailure`, and nothing of the command is left. -/
structure Aborts (c : CfgConst) (s t : State) : Prop where
  trace : ∃ evs, t.trace = s.trace ++ evs ∧ ∀ e ∈ evs, IsEvent c e
  codes : t.codes = s.codes ++ [codeTransportFailure]
  err   : t.err = codeTransportFailure
  phase : t.phase = .idle
  rest  : t.AtRest

/-- From `s`, inside the message at `sl`, the command ends at `t`: with all that was left of it, or because the sink
failed. -/
inductive Finishes (c : CfgConst) (sl : Slot) (s t : State) : Prop
  | done (rest : List SinkAnswer) (h : Ends s (leftEvents c sl s) (leftBytes c sl s) rest codeOk t)
  | failed (hf : .fail ∈ s.answers) (h : Aborts c s t)

/-! ### The events of a command (R44, R45) -/

theorem itemEvents_isEvent {c : CfgConst} {i : Instr} {sl : Slot} (hc : c.wellFormed = true)
    (hsl : slotOf i = some sl) (hi : i.wellFormed c = true) :
    ∀ e ∈ Item.events (slotItem sl (encode i)), IsEvent c e := by
  have hmsg : IsEvent c (.wr (encode i)) := ⟨sl, i, by rw [← hsl]; exact decode_encode hc hi, hi⟩
  intro e he
  rcases List.mem_cons.mp he with rfl | he
  · exact hmsg
  · cases sl
    case initM1 => obtain rfl := List.mem_singleton.mp he; exact .inl rfl
    case initM2 => obtain rfl := List.mem_singleton.mp he; exact .inr (.inl rfl)
    case offM1 => obtain rfl := List.mem_singleton.mp he; exact .inr (.inr rfl)
    all_goals cases he

theorem itemsEvents_cons (it : Item) (its : List Item) : itemsEvents (it :: its) = it.events ++ itemsEvents its :=
  List.flatMap_cons

/-- The messages after a slot's are well-formed rows, whatever is before them. -/
theorem itemsAfter_isEvent {c : CfgConst} (hc : c.wellFormed = true) : ∀ (its : List Item) (sl : Slot),
    its = itemsAfter c sl → ∀ e ∈ itemsEvents its, IsEvent c e
  | [], _, _ => by simp [itemsEvents]
  | it :: its, sl, h => by
    cases hn : nextMessage c sl with
    | none => rw [itemsAfter_of_last hn] at h; cases h
    | some p =>
      obtain ⟨i, hsl, hi, he⟩ := nextMessage_encode hc hn
      rw [itemsAfter_of_next hn, ← he] at h
      obtain ⟨rfl, rfl⟩ := List.cons.inj h
      rw [itemsEvents_cons]
      exact List.forall_mem_append.mpr ⟨itemEvents_isEvent hc hsl hi, itemsAfter_isEvent hc _ p.1 rfl⟩

theorem State.Sends.itemEvents_isEvent {c : CfgConst} {sl : Slot} {s : State} (hc : c.wellFormed = true)
    (h : s.Sends c sl) : ∀ e ∈ Item.events ⟨s.frame, slotDelay sl⟩, IsEvent c e := by
  obtain ⟨i, hsl, hi, he⟩ := h.message
  rw [← he]
  exact Machine.itemEvents_isEvent hc hsl hi

theorem eventsLeft_subset (d : Option Millis) (s : State) : eventsLeft d s ⊆ Item.events ⟨s.frame, d⟩ := by
  unfold eventsLeft
  split
  · cases d with
    | none => exact List.nil_subset _
    | some n => exact List.subset_cons_self _ _
  · exact List.Subset.refl _

theorem State.Sends.leftEvents_isEvent {c : CfgConst} {sl : Slot} {s : State} (hc : c.wellFormed = true)
    (h : s.Sends c sl) : ∀ e ∈ leftEvents c sl s, IsEvent c e :=
  List.forall_mem_append.mpr
    ⟨fun e he => h.itemEvents_isEvent hc e (eventsLeft_subset _ s he), itemsAfter_isEvent hc _ sl rfl⟩

/-! ### One step of the sequencer -/

/-- What the sequencer can do from `s` in one step, inside the message at `sl`. -/
inductive SentOn (c : CfgConst) (sl : Slot) (s t : State) : Prop
  | running (sl' : Slot) (h : Continues c sl s sl' t)
  | ended (h : Finishes c sl s t) (hwf : t.fbuf.wf = true) (hfl : t.flen.toNat ≤ 78)

section
variable {c : CfgConst} {sl sl' : Slot} {s u t : State}

/-- A command that ends from a state it goes on to ends so from where it came from. -/
theorem Continues.finishes (hc : c.wellFormed = true) (hs : s.Sends c sl) (hcont : Continues c sl s sl' u)
    (h : Finishes c sl' u t) : Finishes c sl s t := by
  obtain ⟨x, hx, hleft⟩ := hcont.trace
  obtain ⟨y, hy, hleft'⟩ := hcont.wire
  cases h with
  | done rest h =>
    exact .done rest { h with
      trace := by rw [h.trace, hx, hleft, List.append_assoc]
      wire := by rw [h.wire, hy, hleft', List.append_assoc]
      codes := by rw [h.codes, hcont.same.codes]
      opr := h.opr.trans hcont.same.opr
      strict := h.strict.trans hcont.same.strict
      actions := h.actions.trans hcont.same.actions
      reads := h.reads.trans hcont.same.reads }
  | failed hf h =>
    obtain ⟨evs, htrace, hevs⟩ := h.trace
    have hprior : ∀ e ∈ x, IsEvent c e := fun e he =>
      hs.leftEvents_isEvent hc e (by rw [hleft]; exact List.mem_append_left _ he)
    exact .failed (hcont.answers.subset hf) { h with
      trace := ⟨x ++ evs, by rw [htrace, hx, List.append_assoc], List.forall_mem_append.mpr ⟨hprior, hevs⟩⟩
      codes := by rw [h.codes, hcont.same.codes] }

theorem Continues.sentOn (hc : c.wellFormed = true) (hs : s.Sends c sl) (hcont : Continues c sl s sl' u)
    (h : SentOn c sl' u t) : SentOn c sl s t := by
  cases h with
  | running sl'' h => exact .running sl'' (hcont.trans h)
  | ended h hwf hfl => exact .ended (hcont.finishes hc hs h) hwf hfl

end

/-! ### A message just loaded -/

/-- The sequencer stands before the message at `sl`: nothing of it sent, no request. -/
structure Before (sl : Slot) (s : State) : Prop where
  phase : s.phase = .run
  wf    : s.fbuf.wf = true
  slot  : slotAt s.opr.op s.opr.enabled s.mi = some sl
  start : s.AtStart
  tx    : s.tx = none
  dly   : s.dly = none

theorem wireOf_events (it : Item) : wireOf it.events = it.bytes := by
  cases h : it.delay <;> simp [Item.events, wireOf, Event.bytes, h]

theorem eventsLeft_start {d : Option Millis} {s : State} (h : s.dpend = false) :
    eventsLeft d s = Item.events ⟨s.frame, d⟩ := by
  simp only [eventsLeft, h, Bool.false_eq_true, if_false]

theorem bytesLeft_start {s : State} (h : s.AtStart) : bytesLeft s = s.frame := by
  obtain ⟨hb, hd⟩ := h
  simp [bytesLeft, hd, hb]

/-- Loading a well-formed message puts the sequencer inside it, with all of it and what follows left. -/
theorem Before.load {c : CfgConst} {i : Instr} {sl : Slot} {s : State} (h : Before sl s) (hsl : slotOf i = some sl)
    (hi : i.wellFormed c = true) :
    ∃ t, s.load (encode i) = .ok t ∧ t.Sends c sl ∧ SameCommand s t ∧ t.trace = s.trace ∧ t.wire = s.wire ∧
      t.answers = s.answers ∧ leftEvents c sl t = itemsEvents (itemsFrom c sl (encode i)) ∧
      leftBytes c sl t = wireOf (itemsEvents (itemsFrom c sl (encode i))) := by
  obtain ⟨hpos, hle⟩ := length_encode hsl hi
  obtain ⟨m, l, hload, hfr, hfl, hwf, -⟩ := State.load_fits hle h.wf
  obtain ⟨hb, hd⟩ := h.start
  have hstart : State.AtStart { s with fbuf := m, flen := l } := h.start
  have hslot : State.slot { s with fbuf := m, flen := l } = some sl := by
    rw [State.slot, hd]
    exact h.slot
  refine ⟨{ s with fbuf := m, flen := l }, hload,
    ⟨h.phase, hwf, hslot, ⟨i, hsl, hi, hfr.symm⟩, fun _ => ⟨?_, h.dly⟩,
      fun hp => absurd (hd.symm.trans hp) (by decide)⟩,
    ⟨rfl, rfl, rfl, rfl, rfl, rfl⟩, rfl, rfl, rfl, ?_, ?_⟩
  · rw [hb, hfl]
    exact hpos
  · rw [leftEvents, eventsLeft_start hstart.2, hfr]
    rfl
  · rw [leftBytes, bytesLeft_start hstart, hfr, itemsFrom, itemsEvents_cons, wireOf_append, wireOf_events]

/-! ### The end of a message -/

/-- The message at `sl` and its delay are over at `u`. -/
structure MessageOver (sl : Slot) (s u : State) : Prop where
  same    : SameCommand s u
  phase   : u.phase = .run
  wf      : u.fbuf.wf = true
  flen    : u.flen.toNat ≤ 78
  trace   : u.trace = s.trace ++ eventsLeft (slotDelay sl) s
  wire    : u.wire = s.wire ++ bytesLeft s
  answers : u.answers <:+ s.answers
  mi      : ∃ mi, slotAt u.opr.op u.opr.enabled mi = some sl ∧ u.mi = mi + 1#3
  start   : u.AtStart
  tx      : u.tx = none
  dly     : u.dly = none

section
variable {c : CfgConst} {sl : Slot} {s u : State}

/-- With no message after it the command is complete. -/
theorem MessageOver.complete (h : MessageOver sl s u) (hn : nextMessage c sl = none) :
    SentOn c sl s (u.complete codeOk) := by
  have hlast := itemsAfter_of_last hn
  refine .ended (.done u.answers ?_) h.wf h.flen
  rw [leftEvents, leftBytes, hlast]
  constructor
  case trace => rw [State.complete_trace, h.trace]; simp [itemsEvents]
  case wire => rw [State.complete_wire, h.wire]; simp [itemsEvents, wireOf]
  case codes => rw [State.complete_codes, h.same.codes]
  case opr => exact h.same.opr
  case strict => exact h.same.strict
  case actions => exact h.same.actions
  case reads => exact h.same.reads
  all_goals rfl

/-- With one after it, that one is loaded. -/
theorem MessageOver.load (hc : c.wellFormed = true) (h : MessageOver sl s u) {sl' : Slot} {bs : List Byte}
    (hn : nextMessage c sl = some (sl', bs)) : ∃ t, u.load bs = .ok t ∧ Continues c sl s sl' t := by
  obtain ⟨i, hsl, hi, rfl⟩ := nextMessage_encode hc hn
  obtain ⟨mi, hmi, humi⟩ := h.mi
  have hbefore : Before sl' u :=
    ⟨h.phase, h.wf, by rw [humi]; exact slotAt_next hmi hn, h.start, h.tx, h.dly⟩
  obtain ⟨t, ht, hsends, hsame, htrace, hwire, hans, hev, hby⟩ := hbefore.load hsl hi
  have hafter := itemsAfter_of_next hn
  refine ⟨t, ht, hsends, h.same.trans hsame, ⟨eventsLeft (slotDelay sl) s, htrace.trans h.trace, ?_⟩,
    ⟨bytesLeft s, hwire.trans h.wire, ?_⟩, hans ▸ h.answers, ?_⟩
  · rw [leftEvents, hafter, hev]
  · rw [leftBytes, hafter, hby]
  · have hle := h.answers.length_le
    rw [stepsLeft, stepsLeft, hafter, hans, List.length_cons]
    omega

theorem advance_sentOn (hc : c.wellFormed = true) (h : MessageOver sl s u) :
    ∃ t, advance (nextBytes c sl) u = .ok t ∧ SentOn c sl s t := by
  cases hn : nextMessage c sl with
  | none => exact ⟨u.complete codeOk, by rw [nextBytes, hn]; rfl, h.complete hn⟩
  | some p =>
    obtain ⟨t, ht, hcont⟩ := h.load hc hn
    exact ⟨t, by rw [nextBytes, hn]; exact ht, .running _ hcont⟩

/-! ### Inside a message -/

theorem toNat_add_ofNat7 {x : BitVec 7} {k : Nat} (h : x.toNat + k ≤ 78) :
    (x + BitVec.ofNat 7 k).toNat = x.toNat + k := by
  rw [BitVec.toNat_add, toNat_ofNat7 k (by omega)]
  omega

/-- The sink holds after `k` more bytes. -/
theorem State.Sends.hold (h : s.Sends c sl) (hp : s.dpend = false) {k : Nat} {as : List SinkAnswer} {beat : TxBeat}
    (hk : s.bi.toNat + k < s.flen.toNat) (ha : Took s.answers as) :
    Continues c sl s sl { s with answers := as, wire := s.wire ++ (s.frame.drop s.bi.toNat).take k, tx := some beat,
                                 bi := s.bi + BitVec.ofNat 7 k } := by
  have hfl := h.flen_le
  have hbi : (s.bi + BitVec.ofNat 7 k).toNat = s.bi.toNat + k := toNat_add_ofNat7 (by omega)
  refine ⟨{ h with sending := fun _ => ⟨by rw [hbi]; exact hk, (h.sending hp).2⟩,
                   waiting := fun hp' => absurd (hp.symm.trans hp') (by decide) },
    ⟨rfl, rfl, rfl, rfl, rfl, rfl⟩, Moved.refl _ _, ⟨_, rfl, ?_⟩, ha.1, Nat.add_lt_add_right ha.2 _⟩
  have hleft : bytesLeft { s with answers := as, wire := s.wire ++ (s.frame.drop s.bi.toNat).take k, tx := some beat,
                                  bi := s.bi + BitVec.ofNat 7 k } = (s.frame.drop s.bi.toNat).drop k := by
    rw [List.drop_drop, ← hbi]
    simp only [bytesLeft, hp]
    rfl
  have hall : bytesLeft s = s.frame.drop s.bi.toNat := by
    simp only [bytesLeft, hp, Bool.false_eq_true, if_false]
  rw [leftBytes, leftBytes, hleft, hall, ← List.append_assoc, List.take_append_drop]

/-- The sink holds the delay after the message. -/
theorem State.Sends.holdDelay (h : s.Sends c sl) {n : Millis} {as : List SinkAnswer} (hd : slotDelay sl = some n)
    (ha : Took s.answers as) :
    Continues c sl s sl
      { s with answers := as, wire := s.wire ++ bytesLeft s,
               trace := s.trace ++ (if s.dpend then [] else [.wr s.frame]), dpend := true, dly := some n,
               tx := if s.dpend then s.tx else none, mi := if s.dpend then s.mi else s.mi + 1#3,
               bi := if s.dpend then s.bi else 0#7 } := by
  have hslot := h.slot
  unfold State.slot at hslot
  have hless : as.length + (itemsAfter c sl).length < s.answers.length + (itemsAfter c sl).length :=
    Nat.add_lt_add_right ha.2 _
  cases hp : s.dpend with
  | true =>
    obtain ⟨hb, htx, -, hne⟩ := h.waiting hp
    rw [hp] at hslot
    refine ⟨⟨h.phase, h.wf, hslot, h.message, nofun, fun _ => ⟨hb, htx, hd.symm, hne⟩⟩,
      ⟨rfl, rfl, rfl, rfl, rfl, rfl⟩, ⟨[], rfl, ?_⟩, ⟨bytesLeft s, rfl, ?_⟩, ha.1, hless⟩
    · simp [leftEvents, eventsLeft, hp]
    · simp [leftBytes, bytesLeft, hp]
  | false =>
    rw [hp] at hslot
    have hmi : s.mi + 1#3 - 1#3 = s.mi := BitVec.add_sub_cancel _ _
    refine ⟨⟨h.phase, h.wf, ?_, h.message, nofun, fun _ => ⟨rfl, rfl, hd.symm, by rw [hd]; simp⟩⟩,
      ⟨rfl, rfl, rfl, rfl, rfl, rfl⟩, ⟨[.wr s.frame], rfl, ?_⟩, ⟨bytesLeft s, rfl, ?_⟩, ha.1, hless⟩
    · simp only [State.slot, if_true, Bool.false_eq_true, if_false, hmi]
      exact hslot
    · simp [leftEvents, eventsLeft, hp, hd, Item.events]
    · simp [leftBytes, bytesLeft]

/-- The message and its delay are over. -/
theorem State.Sends.over (h : s.Sends c sl) {as : List SinkAnswer} (ha : as <:+ s.answers) :
    MessageOver sl s
      { s with answers := as, wire := s.wire ++ bytesLeft s, trace := s.trace ++ eventsLeft (slotDelay sl) s,
               dpend := false, tx := if s.dpend then s.tx else none, mi := if s.dpend then s.mi else s.mi + 1#3,
               bi := if s.dpend then s.bi else 0#7, dly := if slotDelay sl = none then s.dly else none } := by
  have hslot := h.slot
  unfold State.slot at hslot
  have hfl := h.flen_le
  cases hp : s.dpend with
  | true =>
    obtain ⟨hb, htx, -, hne⟩ := h.waiting hp
    rw [hp] at hslot
    exact ⟨⟨rfl, rfl, rfl, rfl, rfl, rfl⟩, h.phase, h.wf, hfl, rfl, rfl, ha,
      ⟨_, hslot, (BitVec.sub_add_cancel _ _).symm⟩, ⟨hb, rfl⟩, htx, if_neg hne⟩
  | false =>
    rw [hp] at hslot
    have hdly : (if slotDelay sl = none then s.dly else none) = none := by
      rw [(h.sending hp).2, ite_self]
    exact ⟨⟨rfl, rfl, rfl, rfl, rfl, rfl⟩, h.phase, h.wf, hfl, rfl, rfl, ha, ⟨_, hslot, rfl⟩, ⟨rfl, rfl⟩, rfl, hdly⟩

/-- The sink fails inside the message or its delay. -/
theorem State.Sends.fail (hc : c.wellFormed = true) (h : s.Sends c sl) {as : List SinkAnswer} {w : List Byte}
    {l : List Event} (hf : .fail ∈ s.answers) (hl : l ⊆ Item.events ⟨s.frame, slotDelay sl⟩) :
    SentOn c sl s (State.complete codeTransportFailure
      { s with answers := as, wire := w, trace := s.trace ++ l }) :=
  .ended (.failed hf ⟨⟨l, rfl, fun e he => h.itemEvents_isEvent hc e (hl he)⟩, rfl, rfl, rfl, rfl, rfl, rfl, rfl, rfl⟩)
    h.wf h.flen_le

/-- A transaction either ends the step or is over, and then `next` follows. -/
theorem sendThen_sentOn {next : State → Except Fault State} (hc : c.wellFormed = true) (h : s.Sends c sl)
    (hn : ∀ u, MessageOver sl s u → ∃ t, next u = .ok t ∧ SentOn c sl s t) :
    ∃ t, sendThen (slotDelay sl) next s = .ok t ∧ SentOn c sl s t := by
  have hpos : s.dpend = false → s.bi.toNat < s.flen.toNat ∧ s.flen.toNat ≤ 78 := fun hp =>
    ⟨(h.sending hp).1, h.flen_le⟩
  have hdelay : s.dpend = true → slotDelay sl ≠ none := fun hp => (h.waiting hp).2.2.2
  rcases transact_cases (slotDelay sl) s hpos hdelay with
    ⟨as, ha, e⟩ | ⟨k, as, beat, hp, hk, ha, e⟩ | ⟨as, n, hd, ha, e⟩ | ⟨as, w, l, ha, e, hl⟩
  · rw [sendThen_more e]
    exact hn _ (h.over ha)
  · exact ⟨_, sendThen_stop e, .running sl (h.hold hp hk ha)⟩
  · exact ⟨_, sendThen_stop e, .running sl (h.holdDelay hd ha)⟩
  · exact ⟨_, sendThen_stop e, h.fail hc ha.2 hl⟩

/-- The messages after the one at `sl`, run in one step. -/
theorem runItems_sentOn (hc : c.wellFormed = true) : ∀ (its : List Item) {sl : Slot} {s u : State},
    its = itemsAfter c sl → s.Sends c sl → MessageOver sl s u →
    ∃ t, runItems its u = .ok t ∧ SentOn c sl s t
  | [], sl, s, u, hits, _, ho => by
    cases hn : nextMessage c sl with
    | none => exact ⟨_, rfl, ho.complete hn⟩
    | some p => rw [itemsAfter_of_next hn] at hits; cases hits
  | it :: its, sl, s, u, hits, hs, ho => by
    cases hn : nextMessage c sl with
    | none => rw [itemsAfter_of_last hn] at hits; cases hits
    | some p =>
      rw [itemsAfter_of_next hn] at hits
      obtain ⟨rfl, htail⟩ := List.cons.inj hits
      obtain ⟨v, hload, hcont⟩ := ho.load hc hn
      obtain ⟨t, ht, hsent⟩ := sendThen_sentOn hc hcont.sends (next := runItems its)
        fun w hw => runItems_sentOn hc its htail hcont.sends hw
      exact ⟨t, by rw [runItems_cons, loadThenSend, hload]; exact ht, hcont.sentOn hc hs hsent⟩

end

/-- The running command goes on with the message in the buffer. -/
theorem resume_sentOn {sl : Slot} {s : State} (h : s.Sends Config.cfg sl) :
    ∃ i t, resume Config.cfg s = .run i s ∧ exec i s = .next t ∧ SentOn Config.cfg sl s t := by
  obtain ⟨i, hsl, hi, he⟩ := h.message
  have hdec : decode Config.cfg (some sl) s.frame = some i := by
    rw [← he, ← hsl]
    exact decode_encode cfg_wellFormed hi
  have hload : s.load (encode i) = .ok s := State.load_same _ s h.wf (length_encode hsl hi).2 he.symm
  obtain ⟨t, ht, hsent⟩ := sendThen_sentOn cfg_wellFormed h fun u hu => advance_sentOn cfg_wellFormed hu
  exact ⟨i, t, resume_run (message_of_slot h.slot hdec), by rw [exec_eq_sendThen hsl hload, ht]; rfl, hsent⟩

/-- What accepting a command in `IDLE` can lead to in one step: it ends at once with a code, or its first message is
loaded at `s₁`, with all its events to come, and the sequencer goes on from there. -/
inductive Accepted (c : CfgConst) (s t : State) (m : List Event × Code) : Prop
  | early (code : Code) (hcode : code.toNat ≤ 4) (hm : m = ([], code)) (ht : t = s.complete code)
  | loaded (sl : Slot) (s₁ : State) (hs₁ : s₁.Sends c sl) (hsame : SameCommand s s₁) (htrace : s₁.trace = s.trace)
      (hwire : s₁.wire = s.wire) (hans : s₁.answers = s.answers) (hevs : m = (leftEvents c sl s₁, codeOk))
      (hbytes : leftBytes c sl s₁ = wireOf (leftEvents c sl s₁)) (hsent : SentOn c sl s₁ t)

/-- A command accepted with nothing left of the one before it. -/
theorem exec_accepted {s : State} (hwf : s.fbuf.wf = true) (hp : s.phase = .run) (hrest : s.AtRest) :
    ∃ t, exec (decodeOp s.opr.op) s = .next t ∧ Accepted Config.cfg s t (eventModel Config.cfg s.strict s.opr) := by
  obtain ⟨hmi, hb, hd, htx, hdly⟩ := hrest
  cases exec_command hwf with
  | early code hcode hm hr => exact ⟨_, hr, .early code hcode hm rfl⟩
  | messages i sl acc hsl hi hat hm hr =>
    have hbefore : Before sl { s with acc := acc } := ⟨hp, hwf, by rw [hmi]; exact hat, ⟨hb, hd⟩, htx, hdly⟩
    obtain ⟨s₁, hload, hsends, hsame, htrace, hwire, hans, hev, hby⟩ := hbefore.load hsl hi
    obtain ⟨t, ht, hsent⟩ := sendThen_sentOn cfg_wellFormed hsends (next := runItems (itemsAfter Config.cfg sl))
      fun u hu => runItems_sentOn cfg_wellFormed _ rfl hsends hu
    refine ⟨t, ?_, .loaded sl s₁ hsends { hsame with } htrace hwire hans (by rw [hev]; exact hm) (by rw [hev, hby])
      hsent⟩
    rw [hr, outcome_next, runItems_cons, loadThenSend, hload]
    exact ht

/-! ### The invariant -/

theorem Ends.atRest {s t : State} {evs : List Event} {bytes : List Byte} {rest : List SinkAnswer} {code : Code}
    (h : Ends s evs bytes rest code t) : t.AtRest :=
  ⟨h.mi, h.bi, h.dpend, h.tx, h.dly⟩

theorem inv_of_idle {c : CfgConst} {s : State} (hwf : s.fbuf.wf = true) (hfl : s.flen.toNat ≤ 78)
    (herr : s.err.toNat ≤ 4) (hp : s.phase = .idle) (hrest : s.AtRest) : s.Inv c :=
  ⟨hwf, hfl, herr, by rw [hrest.1]; decide, fun _ => hrest, fun hr => absurd (hp.symm.trans hr) (by decide)⟩

/-- Settles O45: every register is 0 and the buffer is empty. -/
theorem resetMeetsTheInvariant : Obligations.ResetMeetsTheInvariant :=
  inv_of_idle rfl (by decide) (by decide) rfl ⟨rfl, rfl, rfl, rfl, rfl⟩

theorem SentOn.inv {c : CfgConst} (hc : c.wellFormed = true) {sl : Slot} {s t : State} (h : SentOn c sl s t)
    (herr : s.err.toNat ≤ 4) : t.Inv c := by
  cases h with
  | running sl' h => exact (inv_iff_of_run hc h.sends.phase).mpr ⟨by rw [h.same.err]; exact herr, sl', h.sends⟩
  | ended h hwf hfl =>
    cases h with
    | done rest h => exact inv_of_idle hwf hfl (by rw [h.err]; decide) h.phase h.atRest
    | failed _ h => exact inv_of_idle hwf hfl (by rw [h.err]; decide) h.phase h.rest

theorem Accepted.inv {c : CfgConst} (hc : c.wellFormed = true) {s t : State} {m : List Event × Code}
    (h : Accepted c s t m) (hwf : s.fbuf.wf = true) (hfl : s.flen.toNat ≤ 78) (herr : s.err.toNat ≤ 4) : t.Inv c := by
  cases h with
  | early code hcode _ ht =>
    subst ht
    exact inv_of_idle hwf hfl hcode rfl ⟨rfl, rfl, rfl, rfl, rfl⟩
  | loaded sl s₁ _ hsame _ _ _ _ _ hsent => exact hsent.inv hc (by rw [hsame.err]; exact herr)

/-- What the host's actions that reach no instruction change is no part of the invariant. -/
theorem State.Inv.ports {c : CfgConst} {s : State} (h : s.Inv c) (acts : List HostAction) (st : Bool)
    (rd : List (HostReg × Code)) : State.Inv c { s with done := none, actions := acts, strict := st, reads := rd } :=
  h

/-- What one step from a state that meets the invariant can be: the host's action alone, a message of the running
command, or the acceptance of a command. -/
inductive Stepped (s t : State) : Prop
  | host (hinv : t.Inv Config.cfg) (htrace : t.trace = s.trace)
  | message (sl : Slot) (acts : List HostAction)
      (hs : State.Sends Config.cfg sl { s with done := none, actions := acts })
      (h : SentOn Config.cfg sl { s with done := none, actions := acts } t)
  | command (o : Opr) (acts : List HostAction)
      (h : Accepted Config.cfg (State.accept o { s with done := none, actions := acts }) t
        (eventModel Config.cfg s.strict o))

theorem step_of_resume {s : State} {acts : List HostAction} (hinv : s.Inv Config.cfg) (hp : s.phase = .run)
    (hf : fetchWith Config.cfg s = resume Config.cfg { s with done := none, actions := acts }) :
    ∃ t, step s = .next t ∧ Stepped s t := by
  obtain ⟨-, sl, hsends⟩ := (inv_iff_of_run cfg_wellFormed hp).mp hinv
  have hs := hsends.ports acts s.strict s.reads
  obtain ⟨i, t, hres, hex, hsent⟩ := resume_sentOn hs
  exact ⟨t, (step_run (hf.trans hres)).trans hex, .message sl acts hs hsent⟩

theorem step_of_host {s t : State} (hf : fetchWith Config.cfg s = .noInstr t) (hinv : t.Inv Config.cfg)
    (htrace : t.trace = s.trace) : ∃ t, step s = .next t ∧ Stepped s t :=
  ⟨t, step_noInstr hf, .host hinv htrace⟩

theorem step_cases {s : State} (hinv : s.Inv Config.cfg) : ∃ t, step s = .next t ∧ Stepped s t := by
  match ha : s.actions, hp : s.phase with
  | .reset :: rest, _ =>
    exact step_of_host (fetchWith_reset _ ha) resetMeetsTheInvariant rfl
  | .writeStrict v :: rest, _ =>
    exact step_of_host (fetchWith_writeStrict _ ha) (hinv.ports rest v s.reads) rfl
  | .read r :: rest, _ =>
    exact step_of_host (fetchWith_read _ ha) (hinv.ports rest s.strict _) rfl
  | .command o :: rest, .idle =>
    obtain ⟨hwf, -, -, -, hidle, -⟩ := hinv
    obtain ⟨t, hex, hacc⟩ := exec_accepted (s := State.accept o { s with done := none, actions := rest }) hwf rfl
      (hidle hp)
    exact ⟨t, (step_run (fetchWith_command_idle _ ha hp)).trans hex, .command o rest hacc⟩
  | .command o :: rest, .run => exact step_of_resume (acts := s.actions) hinv hp (fetchWith_command_run _ ha hp)
  | .pass :: rest, .idle =>
    exact step_of_host (fetchWith_pass_idle _ ha hp) (hinv.ports rest s.strict s.reads) rfl
  | .pass :: rest, .run => exact step_of_resume (acts := rest) hinv hp (fetchWith_pass_run _ ha hp)
  | [], .idle =>
    exact step_of_host (fetchWith_nil_idle _ ha hp) (hinv.ports s.actions s.strict s.reads) rfl
  | [], .run => exact step_of_resume (acts := s.actions) hinv hp (fetchWith_nil_run _ ha hp)

theorem Stepped.inv {s t : State} (h : Stepped s t) (hinv : s.Inv Config.cfg) : t.Inv Config.cfg := by
  obtain ⟨hwf, hfl, herr, -⟩ := hinv
  cases h with
  | host hinv _ => exact hinv
  | message sl acts _ h => exact h.inv cfg_wellFormed herr
  | command o acts h => exact h.inv cfg_wellFormed hwf hfl herr

/-- Settles O46: each kind of step keeps it. -/
theorem everyStepKeepsTheInvariant : Obligations.EveryStepKeepsTheInvariant := by
  intro s t hinv hstep
  obtain ⟨t', ht', hst⟩ := step_cases hinv
  cases ht'.symm.trans hstep
  exact hst.inv hinv

/-- Settles O47: each kind of step answers a next state. -/
theorem noStepStopsTheMachine : Obligations.NoStepStopsTheMachine := by
  intro s hinv
  obtain ⟨t, ht, -⟩ := step_cases hinv
  exact ⟨t, ht⟩

/-- No run from a state that meets the invariant stops. -/
theorem run_proceeds : ∀ (n : Nat) {s : State}, s.Inv Config.cfg → ∃ t, Sys2Proof.core.run n s = .next t
  | 0, s, _ => ⟨s, rfl⟩
  | n + 1, s, hinv => by
    obtain ⟨t, ht, hst⟩ := step_cases hinv
    rw [core_run_next n ht]
    exact run_proceeds n (hst.inv hinv)

/-- Settles O48: the invariant holds at reset, whatever the lists placed. -/
theorem noRunFromResetStops : Obligations.NoRunFromResetStops := by
  intro actions answers n
  exact run_proceeds n (s := { State.reset with actions := actions, answers := answers }) resetMeetsTheInvariant

/-! ### The recorded events -/

theorem SentOn.trace_isEvent {c : CfgConst} (hc : c.wellFormed = true) {sl : Slot} {s t : State}
    (h : SentOn c sl s t) (hs : s.Sends c sl) (htr : ∀ e ∈ s.trace, IsEvent c e) : ∀ e ∈ t.trace, IsEvent c e := by
  have hleft := hs.leftEvents_isEvent hc
  cases h with
  | running sl' h =>
    obtain ⟨x, hx, he⟩ := h.trace
    rw [he] at hleft
    rw [hx]
    exact List.forall_mem_append.mpr ⟨htr, (List.forall_mem_append.mp hleft).1⟩
  | ended h _ _ =>
    cases h with
    | done rest h =>
      rw [h.trace]
      exact List.forall_mem_append.mpr ⟨htr, hleft⟩
    | failed _ h =>
      obtain ⟨evs, htrace, hevs⟩ := h.trace
      rw [htrace]
      exact List.forall_mem_append.mpr ⟨htr, hevs⟩

/-- Settles O49: what a step records are events of the running command. -/
theorem recordedEventsAreWholeMessages : Obligations.RecordedEventsAreWholeMessages := by
  intro s t hinv htr hstep
  obtain ⟨t', ht', hst⟩ := step_cases hinv
  cases ht'.symm.trans hstep
  cases hst with
  | host _ htrace => rw [htrace]; exact htr
  | message sl acts hs h => exact h.trace_isEvent cfg_wellFormed hs htr
  | command o acts h =>
    cases h with
    | early code _ _ ht => rw [ht]; exact htr
    | loaded sl s₁ hs₁ _ htrace _ _ _ _ hsent =>
      exact hsent.trace_isEvent cfg_wellFormed hs₁ (by rw [htrace]; exact htr)

/-! ### Termination -/

/-- Ending a command does not depend on the `done` pulse of the one before. -/
theorem Finishes.of_done {c : CfgConst} {sl : Slot} {s t : State} (h : Finishes c sl { s with done := none } t) :
    Finishes c sl s t := by
  cases h with
  | done rest h => exact .done rest { h with }
  | failed hf h => exact .failed hf { h with }

theorem Continues.of_done {c : CfgConst} {sl sl' : Slot} {s t : State}
    (h : Continues c sl { s with done := none } sl' t) : Continues c sl s sl' t :=
  { h with same := { h.same with } }

/-- One step of a running command with no host action to come. -/
theorem running_step {sl : Slot} {s : State} (hs : s.Sends Config.cfg sl) (ha : s.actions = []) :
    ∃ t, step s = .next t ∧ (Finishes Config.cfg sl s t ∨ ∃ sl', Continues Config.cfg sl s sl' t) := by
  obtain ⟨i, t, hres, hex, hsent⟩ := resume_sentOn (hs.ports s.actions s.strict s.reads)
  refine ⟨t, (step_run ((fetchWith_nil_run _ ha hs.phase).trans hres)).trans hex, ?_⟩
  cases hsent with
  | running sl' h => exact .inr ⟨sl', h.of_done⟩
  | ended h _ _ => exact .inl h.of_done

/-- With no host action to come, a running command ends within as many steps as it has answers and messages left, and
one more. -/
theorem running_finishes (n : Nat) {sl : Slot} {s : State} (hs : s.Sends Config.cfg sl) (ha : s.actions = [])
    (hn : stepsLeft Config.cfg sl s ≤ n) :
    ∃ k t, k ≤ n + 1 ∧ Sys2Proof.core.run k s = .next t ∧ Finishes Config.cfg sl s t := by
  induction n generalizing sl s with
  | zero =>
    obtain ⟨t, hstep, h | ⟨sl', h⟩⟩ := running_step hs ha
    · exact ⟨1, t, le_refl _, core_run_next 0 hstep, h⟩
    · exact absurd (lt_of_lt_of_le h.less hn) (Nat.not_lt_zero _)
  | succ n ih =>
    obtain ⟨t, hstep, h | ⟨sl', h⟩⟩ := running_step hs ha
    · exact ⟨1, t, by omega, core_run_next 0 hstep, h⟩
    · have hless := h.less
      obtain ⟨k, u, hk, hrun, hfin⟩ := ih h.sends (h.same.actions.trans ha) (by omega)
      exact ⟨k + 1, u, by omega, (core_run_next k hstep).trans hrun, h.finishes cfg_wellFormed hs hfin⟩

theorem stepsLeft_le (c : CfgConst) (sl : Slot) (s : State) : stepsLeft c sl s ≤ s.answers.length + 3 :=
  Nat.add_le_add_left (length_itemsAfter_le c sl) _

/-- Settles O50: a running command has at most three messages after the one it is in. -/
theorem runningCommandsComplete : Obligations.RunningCommandsComplete := by
  intro s hinv hp ha
  obtain ⟨-, sl, hs⟩ := (inv_iff_of_run cfg_wellFormed hp).mp hinv
  obtain ⟨k, t, hk, hrun, hfin⟩ := running_finishes _ hs ha (stepsLeft_le _ sl s)
  refine ⟨k, t, hk, hrun, ?_⟩
  cases hfin with
  | done rest h => exact ⟨h.phase, _, h.codes⟩
  | failed _ h => exact ⟨h.phase, _, h.codes⟩

/-- A command whose first message is loaded ends within as many steps as there are answers, and five more, the first
of them being its acceptance. -/
theorem accepted_finishes {sl : Slot} {s s₁ t : State} (hs₁ : s₁.Sends Config.cfg sl) (ha : s₁.actions = [])
    (hstep : step s = .next t) (hsent : SentOn Config.cfg sl s₁ t) :
    ∃ k u, k ≤ s₁.answers.length + 5 ∧ Sys2Proof.core.run k s = .next u ∧ Finishes Config.cfg sl s₁ u := by
  cases hsent with
  | ended h _ _ => exact ⟨1, t, by omega, core_run_next 0 hstep, h⟩
  | running sl' h =>
    have hle := stepsLeft_le Config.cfg sl s₁
    have hless := h.less
    obtain ⟨k, u, hk, hrun, hfin⟩ := running_finishes _ h.sends (h.same.actions.trans ha) (le_refl _)
    exact ⟨k + 1, u, by omega, (core_run_next k hstep).trans hrun, h.finishes cfg_wellFormed hs₁ hfin⟩

/-- Settles O42: the command is accepted, its events are all left, and without a failing answer all of them are
caused. -/
theorem waitingSinksChangeNoEvent : Obligations.WaitingSinksChangeNoEvent := by
  intro s o hinv hp hact hnofail
  obtain ⟨hwf, -, -, -, hidle, -⟩ := hinv
  obtain ⟨t, hex, hacc⟩ := exec_accepted (s := State.accept o { s with done := none, actions := [] }) hwf rfl (hidle hp)
  have hstep : step s = .next t := (step_run (fetchWith_command_idle _ hact hp)).trans hex
  change Accepted _ _ _ (eventModel Config.cfg s.strict o) at hacc
  cases hacc with
  | early code _ hm ht =>
    subst ht
    rw [hm]
    exact ⟨1, _, by omega, core_run_next 0 hstep, rfl, by simp, by simp [wireOf], rfl, rfl, rfl⟩
  | loaded sl s₁ hs₁ hsame htrace hwire hans hevs hbytes hsent =>
    obtain ⟨k, u, hk, hrun, hfin⟩ := accepted_finishes hs₁ hsame.actions hstep hsent
    rw [hevs, ← hbytes]
    cases hfin with
    | failed hf _ => exact absurd rfl (hnofail _ (by rw [hans] at hf; exact hf))
    | done rest h =>
      refine ⟨k, u, by rw [hans] at hk; exact hk, hrun, h.phase, ?_, ?_, ?_, h.opr.trans hsame.opr,
        h.strict.trans hsame.strict⟩
      · rw [h.trace, htrace]; rfl
      · rw [h.wire, hwire]; rfl
      · rw [h.codes, hsame.codes]; rfl

end Sys2Proof.Machine
end
